-- ==== Sys2Proof/Word.lean ====
section
/-! DEFINITION. The words of the FMB003 frame-codec block (00_scope.md R11): an 8-bit byte, a 16-bit CRC or
parameter ID, a 32-bit register or bus word, a 64-bit timestamp or event value. Every quantity of the block is
unsigned (R18), but for the severity, which is a type of names. -/

namespace Sys2Proof

/-- A byte (R11). -/
abbrev Byte := BitVec 8

/-- A 16-bit value: a CRC (R120), a parameter ID, a bucket count. -/
abbrev Half := BitVec 16

/-- A 32-bit value: a register (R21), a bus word (R70), an operation word (R91). -/
abbrev Word := BitVec 32

/-- A 64-bit value: a timestamp (R146), an event's VAL (R44). -/
abbrev DWord := BitVec 64

end Sys2Proof
end

