-- ==== Sys2Proof/Config.lean ====
section
/-! DEFINITION. What one instance of the block fixes (00_scope.md R9), and the free values: the bytes
the spec leaves unspecified (93_implementation_defined.md U1, U2, U3). -/

namespace Sys2Proof

/-- The parameters of one instance (R9). They stand in State and no step changes them. LATENCY is no number here:
it is the place of the engine's event among the host's (log 7). -/
structure Params where
  /-- bytes in the input buffer IN, legal range 16 .. 65536 -/
  inSize : Nat
  /-- bytes in the output buffer OUT, legal range 20 .. 65536 -/
  outSize : Nat
  /-- entries in the event table, legal range 1 .. 8192 -/
  evtMax : Nat
  /-- entries in the interest table, legal range 1 .. 1024 -/
  interestMax : Nat
  /-- bus address of the aperture, aligned to 1 MiB -/
  blockBase : Nat
  deriving DecidableEq, Repr

/-- The reference configuration REF (R10). BLOCK_BASE has no reference value: 0 is the model's (DESIGN CHOICE, log 1). -/
def Params.ref : Params :=
  { inSize := 4096, outSize := 4096, evtMax := 1024, interestMax := 64, blockBase := 0 }

/-- The free value: the byte that the spec leaves unspecified at an aperture offset, for one draw
(10_state.md R40, R45; 70_reset_and_hazards.md R256). It has no body: nothing can be proved of its value (log 2, log 4, log 5). -/
opaque Config.freeByte : (draw : Nat) → (off : Nat) → Byte

end Sys2Proof
end

