-- ==== Sys2Proof/Syntax.lean ====
section
/-! DEFINITION. The operations of the block: one constructor per row of spec/opcode_table.json (30_encoding.md R91).
An operation word has no operand field (R93): the operands stand in registers and in IN. -/

namespace Sys2Proof

/-- An operation the host selects through CMD (30_encoding.md R91). -/
inductive Instr where
  /-- CRC_COMPUTE (40_crc.md R125): CRC-16/ARC of IN[0..L) -/
  | crcCompute
  /-- CRC_VERIFY (40_crc.md R127): the trailing checksum of IN[0..L) -/
  | crcVerify
  /-- C8E_DECODE (41_codec8e.md R140): one Codec 8E frame -/
  | c8eDecode
  /-- C12_ENCODE (42_codec12.md R180): one Codec 12 command frame -/
  | c12Encode
  /-- C12_DECODE (42_codec12.md R184): one Codec 12 response frame -/
  | c12Decode
  /-- FILTER_PROBE (43_filter_severity.md R204): the comparator and the discard policy for PROBE_ID -/
  | filterProbe
  deriving DecidableEq, Repr

/-- The field OP of an operation (30_encoding.md R91's table). -/
def Instr.opcode : Instr → BitVec 4
  | .crcCompute => 0x1#4
  | .crcVerify => 0x2#4
  | .c8eDecode => 0x3#4
  | .c12Encode => 0x4#4
  | .c12Decode => 0x5#4
  | .filterProbe => 0x6#4

end Sys2Proof
end

