-- ==== Sys2Proof/WellFormed.lean ====
section
/-! DEFINITION. What is well formed. An operation has no operand field (30_encoding.md R93), so every term of
Instr is well formed: its one check is that its OP is none of the reserved values (R92). An instance's parameters
are well formed in the legal ranges of 00_scope.md R9. -/

namespace Sys2Proof

/-- OP values 0x0 and 0x7 to 0xF are reserved (30_encoding.md R92). -/
def reservedOp (op : BitVec 4) : Bool := op == 0x0#4 || decide (0x7#4 ≤ op)

/-- An operation is well formed when its OP is not reserved (R92). -/
def Instr.wellFormed (i : Instr) : Bool := !reservedOp i.opcode

/-- The legal ranges of an instance's parameters (00_scope.md R9). -/
def Params.wellFormed (p : Params) : Bool :=
  (decide (16 ≤ p.inSize) && decide (p.inSize ≤ 65536)) &&
  (decide (20 ≤ p.outSize) && decide (p.outSize ≤ 65536)) &&
  (decide (1 ≤ p.evtMax) && decide (p.evtMax ≤ 8192)) &&
  (decide (1 ≤ p.interestMax) && decide (p.interestMax ≤ 1024)) &&
  decide (p.blockBase % 0x100000 = 0)

end Sys2Proof
end

