-- ==== Sys2Proof/Decode.lean ====
section
/-! DEFINITION. The decoder of the operation word (30_encoding.md R91, R92, R109), total on every word, which rejects
by name, and after it the encoder. -/

namespace Sys2Proof

/-- Why a word is no operation. -/
inductive DecodeError where
  /-- OP is reserved (30_encoding.md R92): the write of such a word commits IllegalOp (60_exceptions.md R221) -/
  | reservedOp (op : BitVec 4)
  deriving DecidableEq, Repr

/-- A row of spec/opcode_table.json: a word w selects it when w AND mask = match (30_encoding.md R109). -/
structure OpRow where
  mask : Word
  pattern : Word
  instr : Instr
  deriving DecidableEq, Repr

/-- A word selects a row (30_encoding.md R109). -/
def OpRow.selects (r : OpRow) (w : Word) : Bool := w &&& r.mask == r.pattern

/-- The rows of spec/opcode_table.json, in its order. -/
def opTable : List OpRow :=
  [ { mask := 0x0000000F#32, pattern := 0x00000001#32, instr := .crcCompute },
    { mask := 0x0000000F#32, pattern := 0x00000002#32, instr := .crcVerify },
    { mask := 0x0000000F#32, pattern := 0x00000003#32, instr := .c8eDecode },
    { mask := 0x0000000F#32, pattern := 0x00000004#32, instr := .c12Encode },
    { mask := 0x0000000F#32, pattern := 0x00000005#32, instr := .c12Decode },
    { mask := 0x0000000F#32, pattern := 0x00000006#32, instr := .filterProbe } ]

/-- Bits [3:0] of a written operation word (30_encoding.md R91; 10_state.md R23). -/
def opField (w : Word) : BitVec 4 := w.extractLsb' 0 4

/-- The operation a word selects, or why none (30_encoding.md R91, R92, R109). -/
def decode (w : Word) : Except DecodeError Instr :=
  match opTable.find? (fun r => r.selects w) with
  | some r => .ok r.instr
  | none => .error (.reservedOp (opField w))

/-- The word of an operation: OP in bits [3:0], the ignored bits [31:4] zero (30_encoding.md R91). -/
def encode (i : Instr) : Word := i.opcode.setWidth 32

/-- Every word that selects an operation: any value in the ignored bits [31:4] (30_encoding.md R91). -/
def encodeWith (upper : BitVec 28) (i : Instr) : Word := upper ++ i.opcode

/-- The operation of a word numbered as spec/opcode_table.json numbers its bits; the bits at and above nbits are 0. -/
def decodeTableWord (nbits w : Nat) : Option Instr :=
  match decode (BitVec.ofNat 32 (w % 2 ^ nbits)) with
  | .ok i => some i
  | .error _ => none

end Sys2Proof
end

