-- ==== Sys2Proof/Machine/State.lean ====
section
/-! DEFINITION. The state of the block as plain data (10_state.md), the ports, the events of the world outside, the
reasons a step can stop, and the state after reset. -/

namespace Sys2Proof.Machine

/-- The memories (10_state.md R40): pairs of an aperture offset and a byte, offsets strictly rising (Memory.wf). An
offset that is not listed holds no known value: what it reads as is a free value (log 2). -/
abbrev Memory := List Host.Cell

/-- The result codes (60_exceptions.md R220). The reserved codes 6 to 15 are never produced: they have no name. -/
inductive ResultCode where
  | noError | codecIncompatible | crcFailed | malformedFrame | capacityExceeded | illegalOp
  deriving DecidableEq, Repr

/-- The severities (43_filter_severity.md R206). -/
inductive Severity where
  | notDetermined | low | high | panic
  deriving DecidableEq, Repr

/-- STATUS (10_state.md R24). -/
structure Status where
  busy : Bool
  done : Bool
  werr : Bool
  verifyOk : Bool
  result : ResultCode
  deriving DecidableEq, Repr

/-- CFG (10_state.md R25). -/
structure Cfg where
  discard : Bool
  ie : Bool
  deriving DecidableEq, Repr

/-- PROBE_RESULT (10_state.md R32). -/
structure ProbeResult where
  isMatch : Bool
  retain : Bool
  deriving DecidableEq, Repr

/-- The frame result registers (10_state.md R33). -/
structure FrameRegs where
  payloadLen : Word
  nrec : Byte
  nevt : Word
  hipri : Severity
  deriving DecidableEq, Repr

/-- The response registers (10_state.md R34). -/
structure ResponseRegs where
  dataSize : Word
  qty : Byte
  type : Byte
  len : Word
  deriving DecidableEq, Repr

/-- The engine's internal state while an operation runs (10_state.md R50): latched at acceptance, used during the
operation, discarded at commit (R51; State.eng is then none). -/
structure Engine where
  /-- the accepted OP -/
  op : BitVec 4
  /-- the latched L -/
  len : Nat
  /-- the parse cursor (R52) -/
  cur : Nat
  /-- the record loop index -/
  r : Nat
  /-- the running maximum (R53) -/
  hi : Severity
  /-- the event counter -/
  nev : Nat
  /-- the per-record matched counter -/
  mat : Nat
  /-- the first-event index of the record -/
  first : Nat
  /-- the running CRC register -/
  crc : Half
  deriving DecidableEq, Repr

/-- A row of the resolver's table: the IDs lo .. hi have the handles base, base + 1, … (log 6). -/
structure ResolverRow where
  lo : Half
  hi : Half
  base : Word
  deriving DecidableEq, Repr

/-- The parameter resolver (00_scope.md R8) as plain data: any function u16 -> Option u32 is a table of such rows
(log 6). A resolver that is not answering leaves a lookup without an answer (93_implementation_defined.md U9). -/
structure Resolver where
  answering : Bool
  rows : List ResolverRow
  deriving DecidableEq, Repr

/-- What a lookup gives (00_scope.md R8): `some` a handle, `none`, or no answer in finite time (U9). -/
inductive Lookup where
  | handle (h : Word)
  | unknown
  | silent
  deriving DecidableEq, Repr

/-- A host bus access (30_encoding.md R107): its direction, its width in bits, the bus address, the data of a write. -/
inductive Access where
  | read (width : Nat) (addr : Nat)
  | write (width : Nat) (addr : Nat) (data : Word)
  deriving DecidableEq, Repr

/-- The block's answer to the host's last access (20_memory.md R72 to R76; log 16). -/
inductive BusAnswer where
  /-- no access has been answered yet -/
  | idle
  /-- the value read -/
  | readOk (v : Word)
  /-- a write was taken, or ignored as a rule says -/
  | writeOk
  /-- a bus error of a read, with the value returned beside it (R76) -/
  | readError (v : Word)
  /-- a bus error of a write (R76) -/
  | writeError
  deriving DecidableEq, Repr

/-- What the world outside does to the block, and when the engine moves (00_scope.md R7, R8; log 7). -/
inductive Event where
  /-- the host's next access (20_memory.md R80) -/
  | access (a : Access)
  /-- the engine's move: the operation runs and commits (70_reset_and_hazards.md R270) -/
  | engine
  /-- `rst` goes high (70_reset_and_hazards.md R250) -/
  | rstAssert
  /-- `rst` goes low -/
  | rstRelease
  /-- another table on the resolver port (70_reset_and_hazards.md R262) -/
  | setResolver (r : Resolver)
  deriving DecidableEq, Repr

/-- The registers of the block (10_state.md R21). -/
inductive RegName where
  | id | cmd | status | cfg | inLen | isetCount | probeId
  | crcValue | crcDecl | errPos | probeResult
  | frPayloadLen | frNrec | frNevt | frHipri
  | rspDatasize | rspQty | rspType | rspLen | outLen
  | capInSize | capOutSize | capEvtMax | capInterestMax
  deriving DecidableEq, Repr

/-- What an aperture offset selects (10_state.md R21, R40). -/
inductive Target where
  | reg (r : RegName)
  | iset | inBuf | outBuf | recTable | evtTable
  deriving DecidableEq, Repr

/-- The whole state. -/
structure State where
  params : Params
  cmdOp : BitVec 4
  status : Status
  cfg : Cfg
  inLen : Word
  isetCount : Word
  probeId : Half
  crcValue : Half
  crcDecl : Word
  errPos : Word
  probe : ProbeResult
  fr : FrameRegs
  rsp : ResponseRegs
  outLen : Word
  mem : Memory
  /-- the engine's internal state, none while it is idle (10_state.md R50, R51) -/
  eng : Option Engine
  rst : Bool
  resolver : Resolver
  resp : BusAnswer
  env : List Event
  /-- the number of the next free draw (log 3) -/
  nextDraw : Nat
  /-- the draw of the unspecified bytes of the interest table, IN and OUT (log 3) -/
  ramDraw : Nat
  /-- the draw of the unspecified bytes of the record and event tables (log 3) -/
  tblDraw : Nat
  deriving DecidableEq, Repr

/-- Why the machine stops with a fault. -/
inductive Fault where
  /-- Raised by Sys2Proof.Machine.takeAccess for a bus address outside BLOCK_BASE .. BLOCK_BASE + 0xFFFFF: the block does not decode it
  (20_memory.md R70), so it is no access to this block. Safe: nothing is claimed of such an access (log 10). -/
  | outsideAperture
  deriving DecidableEq, Repr

/-- Why the machine refuses to go on. -/
inductive Refusal where
  /-- Raised by exec for an operation that has no meaning yet. Safe. -/
  | notModelled (mnemonic : String)
  /-- Raised by Sys2Proof.Machine.takeAccess for a host access while `rst` is asserted (93_implementation_defined.md U7: refuse). Safe (log 12). -/
  | accessDuringReset
  /-- Raised by Sys2Proof.Machine.takeResolver when an answer changes between acceptance and commit of a C8E_DECODE
  (93_implementation_defined.md U8: refuse). Safe (log 13). -/
  | resolverChanged
  /-- Raised by Sys2Proof.Machine.execC8eDecode when a lookup gets no answer (93_implementation_defined.md U9: refuse). Safe (log 14). -/
  | resolverSilent
  deriving DecidableEq, Repr

/-- The registers and the engine after reset (10_state.md R21, R55), for an instance with parameters p. -/
def State.resetWith (p : Params) : State :=
  { params := p
    cmdOp := 0
    status := { busy := false, done := false, werr := false, verifyOk := false, result := .noError }
    cfg := { discard := true, ie := false }
    inLen := 0
    isetCount := 0
    probeId := 0
    crcValue := 0
    crcDecl := 0
    errPos := 0
    probe := { isMatch := false, retain := false }
    fr := { payloadLen := 0, nrec := 0, nevt := 0, hipri := .notDetermined }
    rsp := { dataSize := 0, qty := 0, type := 0, len := 0 }
    outLen := 0
    mem := []
    eng := none
    rst := false
    resolver := { answering := false, rows := [] }
    resp := .idle
    env := []
    nextDraw := 1
    ramDraw := 0
    tblDraw := 0 }

/-- The machine right after reset (10_state.md R55), of the reference configuration REF (00_scope.md R10; log 1). -/
def State.reset : State := State.resetWith Params.ref

end Sys2Proof.Machine
end

