-- ==== Sys2Proof/Machine/Flags.lean ====
section
/-! DEFINITION. The status flags and the interrupt output: who writes BUSY, DONE, WERR, VERIFY_OK and RESULT
(10_state.md R24, R36), and irq (60_exceptions.md R232). -/

namespace Sys2Proof.Machine

/-- The number of a result code (60_exceptions.md R220). -/
def ResultCode.code : ResultCode → BitVec 4
  | .noError => 0#4
  | .codecIncompatible => 1#4
  | .crcFailed => 2#4
  | .malformedFrame => 3#4
  | .capacityExceeded => 4#4
  | .illegalOp => 5#4

/-- STATUS as it reads: BUSY [0], DONE [1], WERR [2], VERIFY_OK [3], RESULT [7:4], [31:8] zero (10_state.md R24). -/
def Status.word (st : Status) : Word :=
  0#24 ++ st.result.code ++ BitVec.ofBool st.verifyOk ++ BitVec.ofBool st.werr ++ BitVec.ofBool st.done ++
    BitVec.ofBool st.busy

/-- A write to STATUS: writing 1 to bit 1 clears DONE, to bit 2 clears WERR; every other bit is ignored (10_state.md R24). -/
def Status.writeOneToClear (st : Status) (v : Word) : Status :=
  { st with done := st.done && !v.getLsbD 1, werr := st.werr && !v.getLsbD 2 }

/-- A write ignored because BUSY = 1 (10_state.md R24). -/
def Status.setWerr (st : Status) : Status := { st with werr := true }

/-- Acceptance sets BUSY and clears DONE (10_state.md R23). -/
def Status.accepted (st : Status) : Status := { st with busy := true, done := false }

/-- Commit clears BUSY, sets DONE, writes RESULT and VERIFY_OK (60_exceptions.md R226 (3)). -/
def Status.committed (st : Status) (r : ResultCode) (ok : Bool) : Status :=
  { st with busy := false, done := true, verifyOk := ok, result := r }

/-- CFG as it reads: DISCARD [0], IE [1], the rest zero (10_state.md R25). -/
def Cfg.word (c : Cfg) : Word := 0#30 ++ BitVec.ofBool c.ie ++ BitVec.ofBool c.discard

/-- A write to CFG (10_state.md R25). -/
def Cfg.ofWord (v : Word) : Cfg := { discard := v.getLsbD 0, ie := v.getLsbD 1 }

/-- PROBE_RESULT as it reads: MATCH [0], RETAIN [1] (10_state.md R32). -/
def ProbeResult.word (p : ProbeResult) : Word := 0#30 ++ BitVec.ofBool p.retain ++ BitVec.ofBool p.isMatch

/-- The interrupt output: level-sensitive, DONE and IE (60_exceptions.md R232). -/
def State.irq (s : State) : Bool := s.status.done && s.cfg.ie

/-- The s8 value of a severity (43_filter_severity.md R206). -/
def Severity.toInt : Severity → Int
  | .notDetermined => -1
  | .low => 0
  | .high => 1
  | .panic => 2

/-- The 8-bit pattern of a severity (43_filter_severity.md R206). -/
def Severity.pattern : Severity → Byte
  | .notDetermined => 0xFF#8
  | .low => 0x00#8
  | .high => 0x01#8
  | .panic => 0x02#8

/-- SevMap: the raw severity byte to the enumerated severity (43_filter_severity.md R206). -/
def sevMap (raw : Byte) : Severity :=
  if raw = 0x00#8 then .low
  else if raw = 0x01#8 then .high
  else if raw = 0x02#8 then .panic
  else .notDetermined

/-- Agg: the running maximum, compared as signed integers (43_filter_severity.md R207). -/
def sevAgg (hi sev : Severity) : Severity := if hi.toInt < sev.toInt then sev else hi

end Sys2Proof.Machine
end

