-- ==== Sys2Proof/Machine/Ops.lean ====
section
/-! DEFINITION. The named operations over memory, bytes and registers, and the completion protocol: acceptance of an
operation, its commit, raising a fatal result (60_exceptions.md R224, R226), and reset (70_reset_and_hazards.md R250). -/

namespace Sys2Proof.Machine

/-! ## Memory: a list of (aperture offset, byte) in canonical form -/

/-- The canonical form: offsets strictly rising. An unlisted offset holds no known value, so no entry equals what it
reads as (log 2). -/
abbrev Memory.wf (m : Memory) : Prop := m.Pairwise (fun a b => a.1 < b.1)

/-- The byte listed at an offset. -/
def Memory.get? : Memory → Nat → Option Byte
  | [], _ => none
  | (k, b) :: m, a => if k = a then some b else Memory.get? m a

/-- The cells of a byte sequence laid out from an offset upwards. -/
def bytesAt (a : Nat) : List Byte → Memory
  | [] => []
  | b :: bs => (a, b) :: bytesAt (a + 1) bs

/-- The cells below an offset. -/
def Memory.below (m : Memory) (a : Nat) : Memory := m.filter (fun c => decide (c.1 < a))

/-- The cells at or above an offset. -/
def Memory.from (m : Memory) (a : Nat) : Memory := m.filter (fun c => decide (a ≤ c.1))

/-- Write a byte sequence from an offset upwards. -/
def Memory.write (m : Memory) (a : Nat) (bs : List Byte) : Memory :=
  Memory.below m a ++ (bytesAt a bs ++ Memory.from m (a + bs.length))

/-- Leave the offsets lo .. hi - 1 without a known value (10_state.md R45). -/
def Memory.unlist (m : Memory) (lo hi : Nat) : Memory := Memory.below m lo ++ Memory.from m hi

/-! ## The aperture (10_state.md R40) -/

/-- Offset of the interest table (R40). -/
def isetBase : Nat := 0x01000
/-- Offset of IN (R40). -/
def inBase : Nat := 0x10000
/-- Offset of OUT (R40). -/
def outBase : Nat := 0x20000
/-- Offset of the record table (R40). -/
def recBase : Nat := 0x30000
/-- Offset of the event table (R40). -/
def evtBase : Nat := 0x40000
/-- The end of the offsets that can hold memories (20_memory.md R70). -/
def memEnd : Nat := 0x80000
/-- The size of the aperture, 1 MiB (20_memory.md R70). -/
def apertureSize : Nat := 0x100000
/-- Entries of the record table (10_state.md R40). -/
def recMax : Nat := 255

/-- The offsets of the record and event tables, the memories a C8E_DECODE leaves unspecified (10_state.md R45). -/
def isTableOffset (a : Nat) : Bool := decide (recBase ≤ a) && decide (a < memEnd)

/-- What a byte with no known value reads as: a free value, the same at every read until the contents become
unspecified anew (10_state.md R40, R45; log 2, log 5). -/
def State.unlistedByte (s : State) (a : Nat) : Byte :=
  Config.freeByte (if isTableOffset a then s.tblDraw else s.ramDraw) a

/-- The byte at an aperture offset of the memories (20_memory.md R89: byte arrays underneath). -/
def State.readByte (s : State) (a : Nat) : Byte :=
  match Memory.get? s.mem a with
  | some b => b
  | none => s.unlistedByte a

/-- A 32-bit word on the little-endian lanes of the bus: the byte at the lowest offset in bits [7:0] (20_memory.md R71). -/
def ofLanes (b0 b1 b2 b3 : Byte) : Word := b3 ++ b2 ++ b1 ++ b0

/-- The four bytes a 32-bit word covers, lowest offset first (20_memory.md R71). -/
def lanes (v : Word) : List Byte :=
  [v.extractLsb' 0 8, v.extractLsb' 8 8, v.extractLsb' 16 8, v.extractLsb' 24 8]

/-- The word at an aperture offset of the memories (20_memory.md R71, R74). -/
def State.readWord (s : State) (a : Nat) : Word :=
  ofLanes (s.readByte a) (s.readByte (a + 1)) (s.readByte (a + 2)) (s.readByte (a + 3))

/-- Write bytes from an aperture offset upwards. -/
def State.writeBytes (s : State) (a : Nat) (bs : List Byte) : State :=
  { s with mem := Memory.write s.mem a bs }

/-! ## Byte sequences (00_scope.md R12) -/

/-- The unsigned integer a byte sequence denotes, read big-endian (R12, R77, R102). -/
def beval (bs : List Byte) : Nat := bs.foldl (fun v b => v * 256 + b.toNat) 0

/-- BE_n(v): the n-byte big-endian encoding of v (R12). -/
def beBytes : (n : Nat) → (v : Nat) → List Byte
  | 0, _ => []
  | n + 1, v => BitVec.ofNat 8 (v / 256 ^ n) :: beBytes n v

/-! ## The completion protocol (60_exceptions.md R226) -/

/-- The engine at the acceptance of an operation: OP and L latched (10_state.md R26, R50). The rest is what the operation
starts from (R51, R53); the values its pseudocode sets first are not read before (log 8). -/
def Engine.accepted (op : BitVec 4) (len : Nat) : Engine :=
  { op := op, len := len, cur := 0, r := 0, hi := .notDetermined, nev := 0, mat := 0, first := 0, crc := 0 }

/-- Acceptance (10_state.md R23; 60_exceptions.md R226 (1)): CMD.OP takes the written [3:0], BUSY = 1, DONE = 0, the
engine starts. -/
def State.accept (s : State) (w : Word) : State :=
  { s with
    cmdOp := opField w
    status := s.status.accepted
    eng := some (Engine.accepted (opField w) s.inLen.toNat) }

/-- The part of every commit (60_exceptions.md R226 (3)): RESULT and VERIFY_OK take their values, DONE = 1, BUSY = 0; the
engine's internal state is discarded (10_state.md R51). -/
def State.commit (s : State) (r : ResultCode) (ok : Bool) : State :=
  { s with status := s.status.committed r ok, eng := none }

/-- Records and events become the contents of the tables; every other entry is unspecified anew: a fresh draw
(10_state.md R43, R44, R45; log 5). -/
def State.setTables (s : State) (recs evts : List Byte) : State :=
  { s with
    mem := Memory.below s.mem recBase ++ (bytesAt recBase recs ++ (bytesAt evtBase evts ++ Memory.from s.mem memEnd))
    tblDraw := s.nextDraw
    nextDraw := s.nextDraw + 1 }

/-- Every record-table and event-table entry is unspecified anew (41_codec8e.md R151, R175). -/
def State.unspecifyTables (s : State) : State :=
  { s with
    mem := Memory.unlist s.mem recBase memEnd
    tblDraw := s.nextDraw
    nextDraw := s.nextDraw + 1 }

/-- The frame result registers of a decode that does not reach NoError (10_state.md R33). -/
def FrameRegs.zero : FrameRegs := { payloadLen := 0, nrec := 0, nevt := 0, hipri := .notDetermined }

/-- The response registers of a decode that does not reach NoError (10_state.md R34). -/
def ResponseRegs.zero : ResponseRegs := { dataSize := 0, qty := 0, type := 0, len := 0 }

/-- The operation's own result group, zeroed (60_exceptions.md R224): FR_ and the tables for C8E_DECODE, OUT_LEN for
the Codec 12 operations, RSP_ for C12_DECODE. -/
def State.zeroResults (s : State) : Instr → State
  | .c8eDecode => { s.unspecifyTables with fr := FrameRegs.zero }
  | .c12Encode => { s with outLen := 0 }
  | .c12Decode => { s with outLen := 0, rsp := ResponseRegs.zero }
  | .crcCompute | .crcVerify | .filterProbe => s

/-- The registers every operation but FILTER_PROBE and IllegalOp commits: CRC_VALUE, CRC_DECL, ERR_POS
(10_state.md R29 to R31). -/
def State.setCheck (s : State) (crc : Half) (decl : Word) (pos : Nat) : State :=
  { s with crcValue := crc, crcDecl := decl, errPos := BitVec.ofNat 32 pos }

/-- `raise E(pos)` (60_exceptions.md R224): the block's exception. RESULT = E, ERR_POS = pos, VERIFY_OK, CRC_VALUE and
CRC_DECL zero, the operation's own results zeroed. Its counterpart, the next acceptance, needs nothing cleared (R230). -/
def State.raise (s : State) (i : Instr) (e : ResultCode) (pos : Nat) : State :=
  ((s.zeroResults i).setCheck 0 0 pos).commit e false

/-- `finish CodecIncompatible` or `finish CrcFailed` of a decode (60_exceptions.md R225; 41_codec8e.md R175;
42_codec12.md R186): ERR_POS = 0, VERIFY_OK = 0, the operation's own results zeroed. -/
def State.finishGate (s : State) (i : Instr) (e : ResultCode) (crc : Half) (decl : Word) : State :=
  ((s.zeroResults i).setCheck crc decl 0).commit e false

/-- A CMD write with a reserved OP commits at once: nothing but STATUS changes, beside CMD.OP at the acceptance
(60_exceptions.md R221; log 15). -/
def State.commitIllegalOp (s : State) : State := s.commit .illegalOp false

/-! ## Reset (70_reset_and_hazards.md R250, R251) -/

/-- Asserting `rst`: every register at its reset value, a running operation abandoned, every memory unspecified anew.
The parameters, the resolver, the host's last answer and the coming events are not the block's to reset (log 19). -/
def State.assertRst (s : State) : State :=
  { State.resetWith s.params with
    rst := true
    resolver := s.resolver
    resp := s.resp
    env := s.env
    nextDraw := s.nextDraw + 1
    ramDraw := s.nextDraw
    tblDraw := s.nextDraw }

/-- Releasing `rst` (70_reset_and_hazards.md R250). -/
def State.releaseRst (s : State) : State := { s with rst := false }

end Sys2Proof.Machine
end

