-- ==== Sys2Proof/Machine/Operands.lean ====
section
/-! DEFINITION. The operands of an operation: the input bytes and the field reads of the parse (00_scope.md R14), the
interest set (10_state.md R41), the resolver (20_memory.md R88). -/

namespace Sys2Proof.Machine

/-- F[i]: byte i of IN (00_scope.md R14; 10_state.md R42). -/
def State.frameByte (s : State) (i : Nat) : Byte := s.readByte (inBase + i)

/-- F[off..off+n) (00_scope.md R12). -/
def State.frameBytes (s : State) (off n : Nat) : List Byte := (List.range' off n).map s.frameByte

/-- A fatal result E(pos) (60_exceptions.md R224). -/
structure Raised where
  code : ResultCode
  pos : Nat
  deriving DecidableEq, Repr

/-- MalformedFrame(pos): the field at offset pos does not fit in the frame (41_codec8e.md R150). -/
def malformed (pos : Nat) : Raised := { code := .malformedFrame, pos := pos }

/-- CapacityExceeded(pos) (60_exceptions.md R222). -/
def capacityExceeded (pos : Nat) : Raised := { code := .capacityExceeded, pos := pos }

/-- take(off, n): the bytes F[off..off+n), or MalformedFrame(off) when off + n > L (00_scope.md R14). -/
def take (s : State) (len off n : Nat) : Except Raised (List Byte) :=
  if len < off + n then .error (malformed off) else .ok (s.frameBytes off n)

/-- rd(n): the big-endian field at the cursor, and the engine with the cursor past it (00_scope.md R14). -/
def rd (s : State) (e : Engine) (n : Nat) : Except Raised (Nat × Engine) :=
  match take s e.len e.cur n with
  | .error x => .error x
  | .ok bs => .ok (beval bs, { e with cur := e.cur + n })

/-- skip(n) (00_scope.md R14). -/
def skip (s : State) (e : Engine) (n : Nat) : Except Raised Engine :=
  match take s e.len e.cur n with
  | .error x => .error x
  | .ok _ => .ok { e with cur := e.cur + n }

/-- The engine as an operation's pseudocode starts: L <- IN_LEN, everything else at its start value (10_state.md R26,
R51, R53). L and OP are the values latched at acceptance, since
IN_LEN and CMD are frozen while BUSY (20_memory.md R81; log 8). -/
def State.start (s : State) : Engine := Engine.accepted s.cmdOp s.inLen.toNat

/-- ISET[k] (10_state.md R41). -/
def State.isetEntry (s : State) (k : Nat) : Word := s.readWord (isetBase + 4 * k)

/-- A row of the resolver's table covers an ID. -/
def ResolverRow.covers (row : ResolverRow) (id : Half) : Bool := decide (row.lo ≤ id) && decide (id ≤ row.hi)

/-- Resolve(id): one lookup on the resolver port (00_scope.md R8, R14); the first row that covers the ID answers (log 6). -/
def Resolver.lookup (r : Resolver) (id : Half) : Lookup :=
  if r.answering then
    match r.rows.find? (fun row => row.covers id) with
    | some row => .handle (row.base + (id - row.lo).setWidth 32)
    | none => .unknown
  else .silent

end Sys2Proof.Machine
end

