-- ==== Sys2Proof/Machine/Bus.lean ====
section
/-! DEFINITION. The host bus (20_memory.md): the address map, the bus errors, register and memory accesses, and what the
host, the platform and the resolver's owner may do to the block (70_reset_and_hazards.md R272). -/

namespace Sys2Proof.Machine

/-- The constant of the ID register (10_state.md R22). -/
def blockId : Word := 0xA0018E0C#32

/-- The register at an aperture offset; every unlisted offset is reserved (10_state.md R21). -/
def RegName.atOffset (off : Nat) : Option RegName :=
  match off with
  | 0x000 => some .id
  | 0x004 => some .cmd
  | 0x008 => some .status
  | 0x00C => some .cfg
  | 0x010 => some .inLen
  | 0x014 => some .isetCount
  | 0x018 => some .probeId
  | 0x020 => some .crcValue
  | 0x024 => some .crcDecl
  | 0x028 => some .errPos
  | 0x02C => some .probeResult
  | 0x030 => some .frPayloadLen
  | 0x034 => some .frNrec
  | 0x038 => some .frNevt
  | 0x03C => some .frHipri
  | 0x040 => some .rspDatasize
  | 0x044 => some .rspQty
  | 0x048 => some .rspType
  | 0x04C => some .rspLen
  | 0x050 => some .outLen
  | 0x060 => some .capInSize
  | 0x064 => some .capOutSize
  | 0x068 => some .capEvtMax
  | 0x06C => some .capInterestMax
  | _ => none

/-- A register's 32-bit value as it reads, reserved bits 0; a read has no side effect (20_memory.md R72). -/
def State.readReg (s : State) : RegName → Word
  | .id => blockId
  | .cmd => s.cmdOp.setWidth 32
  | .status => s.status.word
  | .cfg => s.cfg.word
  | .inLen => s.inLen
  | .isetCount => s.isetCount
  | .probeId => s.probeId.setWidth 32
  | .crcValue => s.crcValue.setWidth 32
  | .crcDecl => s.crcDecl
  | .errPos => s.errPos
  | .probeResult => s.probe.word
  | .frPayloadLen => s.fr.payloadLen
  | .frNrec => s.fr.nrec.setWidth 32
  | .frNevt => s.fr.nevt
  | .frHipri => s.fr.hipri.pattern.setWidth 32
  | .rspDatasize => s.rsp.dataSize
  | .rspQty => s.rsp.qty.setWidth 32
  | .rspType => s.rsp.type.setWidth 32
  | .rspLen => s.rsp.len
  | .outLen => s.outLen
  | .capInSize => BitVec.ofNat 32 s.params.inSize
  | .capOutSize => BitVec.ofNat 32 s.params.outSize
  | .capEvtMax => BitVec.ofNat 32 s.params.evtMax
  | .capInterestMax => BitVec.ofNat 32 s.params.interestMax

/-- A write to an operation input: ignored while BUSY = 1, and then it sets WERR (10_state.md R24; 60_exceptions.md R231). -/
def State.guardWrite (s s' : State) : State :=
  if s.status.busy then { s with status := s.status.setWerr } else s'

/-- A CMD write while BUSY = 0 (10_state.md R23): an operation is accepted; a reserved OP is accepted and commits
IllegalOp at once (30_encoding.md R92; 60_exceptions.md R221). -/
def State.issue (s : State) (w : Word) : State :=
  match decode w with
  | .ok _ => s.accept w
  | .error _ => (s.accept w).commitIllegalOp

/-- A register write (20_memory.md R73; 10_state.md R23 to R28); a write to an RO register is ignored. -/
def State.writeReg (s : State) (r : RegName) (v : Word) : State :=
  match r with
  | .cmd => s.guardWrite (s.issue v)
  | .status => { s with status := s.status.writeOneToClear v }
  | .cfg => s.guardWrite { s with cfg := Cfg.ofWord v }
  | .inLen => s.guardWrite { s with inLen := v }
  | .isetCount => s.guardWrite { s with isetCount := BitVec.ofNat 32 (min v.toNat s.params.interestMax) }
  | .probeId => s.guardWrite { s with probeId := v.setWidth 16 }
  | .id | .crcValue | .crcDecl | .errPos | .probeResult | .frPayloadLen | .frNrec | .frNevt | .frHipri | .rspDatasize
  | .rspQty | .rspType | .rspLen | .outLen | .capInSize | .capOutSize | .capEvtMax | .capInterestMax => s

/-! ## The address map and the bus errors (10_state.md R40; 20_memory.md R70, R76) -/

/-- The first offset of a memory window (10_state.md R40). -/
def Target.base : Target → Nat
  | .reg _ => 0
  | .iset => isetBase
  | .inBuf => inBase
  | .outBuf => outBase
  | .recTable => recBase
  | .evtTable => evtBase

/-- The bytes of a memory window under an instance's parameters (10_state.md R40). -/
def Target.size (p : Params) : Target → Nat
  | .reg _ => 0
  | .iset => 4 * p.interestMax
  | .inBuf => p.inSize
  | .outBuf => p.outSize
  | .recTable => 32 * recMax
  | .evtTable => 32 * p.evtMax

/-- Bytes off .. off + n - 1 lie in a memory window (10_state.md R40; log 11). -/
def inWindow (p : Params) (t : Target) (off n : Nat) : Bool :=
  decide (t.base ≤ off) && decide (off + n ≤ t.base + t.size p)

/-- The memory window that n bytes at an offset lie in, if any: every other offset at or above 0x01000 is reserved
(20_memory.md R76 (a), (b)). -/
def windowAt (p : Params) (off n : Nat) : Option Target :=
  [Target.iset, .inBuf, .outBuf, .recTable, .evtTable].find? (fun t => inWindow p t off n)

/-- What an access of a width at an offset reaches, or none for a bus error of R76 (a) to (e): 8 bits only in IN and
OUT; 32 bits only at a multiple of 4; no other width (20_memory.md R76). -/
def targetAt (p : Params) (width off : Nat) : Option Target :=
  if width = 8 then
    match windowAt p off 1 with
    | some .inBuf => some .inBuf
    | some .outBuf => some .outBuf
    | _ => none
  else if width = 32 then
    if off % 4 ≠ 0 then none
    else if off < 0x1000 then (RegName.atOffset off).map Target.reg
    else windowAt p off 4
  else none

/-- The contents are unspecified while BUSY = 1 (10_state.md R45; 20_memory.md R74). -/
def Target.drawnWhileBusy : Target → Bool
  | .outBuf | .recTable | .evtTable => true
  | .reg _ | .iset | .inBuf => false

/-- A value of a width in bits from four bytes at an offset: 8 bits give zext_32 of the first (20_memory.md R71, R74). -/
def busValue (width : Nat) (byteAt : Nat → Byte) (off : Nat) : Word :=
  if width = 8 then (byteAt off).setWidth 32
  else ofLanes (byteAt off) (byteAt (off + 1)) (byteAt (off + 2)) (byteAt (off + 3))

/-- A host read at an offset (20_memory.md R72, R74, R76). A read of OUT or a table while BUSY gives a fresh draw (log 4). -/
def State.busRead (s : State) (width off : Nat) : State :=
  match targetAt s.params width off with
  | none => { s with resp := .readError 0 }
  | some (.reg r) => { s with resp := .readOk (s.readReg r) }
  | some t =>
    if s.status.busy && t.drawnWhileBusy then
      { s with resp := .readOk (busValue width (Config.freeByte s.nextDraw) off), nextDraw := s.nextDraw + 1 }
    else { s with resp := .readOk (busValue width s.readByte off) }

/-- The bytes a write of a width stores (20_memory.md R71, R75). -/
def busBytes (width : Nat) (v : Word) : List Byte :=
  if width = 8 then [v.extractLsb' 0 8] else lanes v

/-- A host write at an offset (20_memory.md R73, R75, R76): OUT and the tables are a bus error (f). -/
def State.busWrite (s : State) (width off : Nat) (v : Word) : State :=
  match targetAt s.params width off with
  | none => { s with resp := .writeError }
  | some (.reg r) => { s.writeReg r v with resp := .writeOk }
  | some .iset => { s.guardWrite (s.writeBytes off (busBytes width v)) with resp := .writeOk }
  | some .inBuf => { s.guardWrite (s.writeBytes off (busBytes width v)) with resp := .writeOk }
  | some .outBuf => { s with resp := .writeError }
  | some .recTable => { s with resp := .writeError }
  | some .evtTable => { s with resp := .writeError }

/-- The bus address of an access. -/
def Access.addr : Access → Nat
  | .read _ a => a
  | .write _ a _ => a

/-- The block decodes a bus address (20_memory.md R70). -/
def decodesAddr (p : Params) (addr : Nat) : Bool :=
  decide (p.blockBase ≤ addr) && decide (addr < p.blockBase + apertureSize)

/-- One access of the block at its offset (20_memory.md R70). -/
def State.busAccess (s : State) : Access → State
  | .read width addr => s.busRead width (addr - s.params.blockBase)
  | .write width addr v => s.busWrite width (addr - s.params.blockBase) v

/-- The host's access: refused while `rst` is asserted (70_reset_and_hazards.md R250; log 12); outside the aperture it is
no access to this block (log 10). -/
def takeAccess (a : Access) (s : State) : Host.Outcome State Fault Refusal :=
  if s.rst then .refused .accessDuringReset
  else if decodesAddr s.params a.addr then .next (s.busAccess a)
  else .fault .outsideAperture

/-- Two resolvers answer every ID alike (70_reset_and_hazards.md R262). -/
def Resolver.sameAnswers (r r' : Resolver) : Bool :=
  (List.range 65536).all (fun n => decide (r.lookup (BitVec.ofNat 16 n) = r'.lookup (BitVec.ofNat 16 n)))

/-- The running operation is a C8E_DECODE, the only one that uses the resolver (20_memory.md R88). -/
def State.decoding (s : State) : Bool :=
  match s.eng with
  | some e => e.op == Instr.c8eDecode.opcode
  | none => false

/-- Another table on the resolver port: refused if an answer changes during a C8E_DECODE (70_reset_and_hazards.md
R262; log 13). -/
def takeResolver (r : Resolver) (s : State) : Host.Outcome State Fault Refusal :=
  if s.decoding && !s.resolver.sameAnswers r then .refused .resolverChanged
  else .next { s with resolver := r }

end Sys2Proof.Machine
end

