-- ==== Sys2Proof/Machine/Crc.lean ====
section
/-! DEFINITION. The CRC-16/IBM polynomial generator (40_crc.md): CRC16, Verify, CRC_COMPUTE and CRC_VERIFY. -/

namespace Sys2Proof.Machine

/-- One of the eight right shifts, with the conditional XOR of the polynomial when the shifted-out bit is 1 (R120). -/
def crcShift (c : Half) : Half := if c.getLsbD 0 then (c >>> 1) ^^^ 0xA001#16 else c >>> 1

/-- Eight shifts. -/
def crcShift8 (c : Half) : Half :=
  crcShift (crcShift (crcShift (crcShift (crcShift (crcShift (crcShift (crcShift c)))))))

/-- The CRC register after one more byte (R120). -/
def crcByte (c : Half) (b : Byte) : Half := crcShift8 (c ^^^ b.setWidth 16)

/-- CRC16(s): CRC-16/ARC, initial register 0, no final XOR (R120). -/
def crc16 (bs : List Byte) : Half := bs.foldl crcByte 0

/-- What Verify returns (R123). -/
structure Verified where
  ok : Bool
  crc : Half
  decl : Word
  deriving DecidableEq, Repr

/-- Verify(): the checksum region F[8..L-4) against the last four bytes, compared at 32 bits; it needs L >= 12 (R123). -/
def verify (s : State) (len : Nat) : Verified :=
  let c := crc16 (s.frameBytes 8 (len - 12))
  let d := BitVec.ofNat 32 (beval (s.frameBytes (len - 4) 4))
  { ok := c.setWidth 32 == d, crc := c, decl := d }

/-- CRC_COMPUTE (R125). -/
def execCrcCompute (s : State) : Host.Outcome State Fault Refusal :=
  let len := s.start.len
  .next (
    if s.params.inSize < len then s.raise .crcCompute .capacityExceeded 0
    else (s.setCheck (crc16 (s.frameBytes 0 len)) 0 0).commit .noError false)

/-- CRC_VERIFY (R127). -/
def execCrcVerify (s : State) : Host.Outcome State Fault Refusal :=
  let len := s.start.len
  .next (
    if s.params.inSize < len then s.raise .crcVerify .capacityExceeded 0
    else if len < 12 then s.raise .crcVerify .malformedFrame 8
    else
      let v := verify s len
      (s.setCheck v.crc v.decl 0).commit (if v.ok then .noError else .crcFailed) v.ok)

end Sys2Proof.Machine
end

