-- ==== Sys2Proof/Machine/Codec12.lean ====
section
/-! DEFINITION. The Codec 12 command-response serializer (42_codec12.md): C12_ENCODE and C12_DECODE. -/

namespace Sys2Proof.Machine

/-- The checksum region of a command frame: codec tag to trailing quantity (R180, R182). -/
def commandBody (cmd : List Byte) : List Byte :=
  [0x0C#8, 0x01#8, 0x05#8] ++ beBytes 4 cmd.length ++ cmd ++ [0x01#8]

/-- The Codec 12 command frame of a command (30_encoding.md R100; 42_codec12.md R180, R181). -/
def commandFrame (cmd : List Byte) : List Byte :=
  beBytes 4 0 ++ beBytes 4 (8 + cmd.length) ++ commandBody cmd ++ beBytes 4 (crc16 (commandBody cmd)).toNat

/-- The NoError commit of a command (R180, R181): the frame in OUT, its length in OUT_LEN, its CRC in CRC_VALUE. -/
def State.commitCommand (s : State) (cmd : List Byte) : State :=
  ({ (s.writeBytes outBase (commandFrame cmd)).setCheck (crc16 (commandBody cmd)) 0 0 with
      outLen := BitVec.ofNat 32 (20 + cmd.length) }).commit .noError false

/-- C12_ENCODE (R180). -/
def execC12Encode (s : State) : Host.Outcome State Fault Refusal :=
  let n := s.start.len
  .next (
    if s.params.inSize < n then s.raise .c12Encode .capacityExceeded 0
    else if s.params.outSize < 20 + n then s.raise .c12Encode .capacityExceeded 0
    else s.commitCommand (s.frameBytes 0 n))

/-- What a complete response parse gives (R184). -/
structure ParsedResponse where
  dataSize : Nat
  qty : Nat
  type : Nat
  len : Nat
  text : List Byte
  deriving DecidableEq, Repr

/-- The fields of a response, once both gates have passed (R184, R187; 30_encoding.md R101). -/
def parseResponse (s : State) (e : Engine) : Except Raised ParsedResponse :=
  match rd s { e with cur := 4 } 4 with
  | .error x => .error x
  | .ok (ds, e1) =>
    match rd s { e1 with cur := 9 } 1 with
    | .error x => .error x
    | .ok (q, e2) =>
      match rd s e2 1 with
      | .error x => .error x
      | .ok (t, e3) =>
        match rd s e3 4 with
        | .error x => .error x
        | .ok (p, e4) =>
          match take s e4.len 15 p with
          | .error x => .error x
          | .ok txt =>
            if s.params.outSize < p then .error (capacityExceeded 15)
            else .ok { dataSize := ds, qty := q, type := t, len := p, text := txt }

/-- The NoError commit (R184, R186): the payload in OUT, the fields in the response registers. -/
def State.commitResponse (s : State) (v : Verified) (p : ParsedResponse) : State :=
  ({ (s.writeBytes outBase p.text).setCheck v.crc v.decl 0 with
      rsp :=
        { dataSize := BitVec.ofNat 32 p.dataSize
          qty := BitVec.ofNat 8 p.qty
          type := BitVec.ofNat 8 p.type
          len := BitVec.ofNat 32 p.len }
      outLen := BitVec.ofNat 32 p.len }).commit .noError true

/-- C12_DECODE (R184): the gates in their order (R185), the fields, the commit of R186. -/
def execC12Decode (s : State) : Host.Outcome State Fault Refusal :=
  let len := s.start.len
  .next (
    if s.params.inSize < len then s.raise .c12Decode .capacityExceeded 0
    else if len < 9 then s.raise .c12Decode .malformedFrame 8
    else if s.frameByte 8 ≠ 0x0C#8 then s.finishGate .c12Decode .codecIncompatible 0 0
    else if len < 12 then s.raise .c12Decode .malformedFrame 8
    else
      let v := verify s len
      if v.ok then
        match parseResponse s { s.start with crc := v.crc } with
        | .ok p => s.commitResponse v p
        | .error x => s.raise .c12Decode x.code x.pos
      else s.finishGate .c12Decode .crcFailed v.crc v.decl)

end Sys2Proof.Machine
end

