-- ==== Sys2Proof/Machine/Filter.lean ====
section
/-! DEFINITION. The interest-filter comparator and FILTER_PROBE (43_filter_severity.md). The severity map and the
aggregator stand in Machine/Flags.lean. -/

namespace Sys2Proof.Machine

/-- Match(pid) (R200): false when the interest set is empty, else membership by equality on 32 bits. -/
def State.isMatch (s : State) (pid : Half) : Bool :=
  if s.isetCount = 0 then false
  else (List.range s.isetCount.toNat).any (fun k => s.isetEntry k == pid.setWidth 32)

/-- Retain(matched), the discard policy (R202). -/
def State.retain (s : State) (matched : Bool) : Bool :=
  !(decide (0 < s.isetCount.toNat) && !matched && s.cfg.discard)

/-- FILTER_PROBE (R204): the resolver, IN and IN_LEN are not consulted; always NoError. -/
def execFilterProbe (s : State) : Host.Outcome State Fault Refusal :=
  let m := s.isMatch s.probeId
  let t := s.retain m
  .next ({ s with probe := { isMatch := m, retain := t }, errPos := 0 }.commit .noError false)

end Sys2Proof.Machine
end

