-- ==== Sys2Proof/Machine/Codec8e.lean ====
section
/-! DEFINITION. The Codec 8E frame parser and element deserializer (41_codec8e.md): the engine's parse as plain
functions over its internal state (10_state.md R50), and C8E_DECODE. -/

namespace Sys2Proof.Machine

/-- The five buckets of an I/O section (30_encoding.md R96). -/
inductive Bucket where
  | width1 | width2 | width4 | width8 | variable
  deriving DecidableEq, Repr

/-- BUCKET codes of the event table (30_encoding.md R104). -/
def Bucket.code : Bucket → BitVec 3
  | .width1 => 0#3
  | .width2 => 1#3
  | .width4 => 2#3
  | .width8 => 3#3
  | .variable => 4#3

/-- An event-table entry (10_state.md R44). -/
structure EventEntry where
  paramId : Half
  bucket : Bucket
  matched : Bool
  handle : Word
  val : DWord
  voff : Nat
  vlen : Nat
  recIndex : Nat
  deriving DecidableEq, Repr

/-- A record-table entry (10_state.md R43). -/
structure RecordEntry where
  recId : Half
  totalIo : Half
  matchedIo : Nat
  nEvents : Nat
  firstEvent : Nat
  ts : DWord
  sevRaw : Byte
  sev : Severity
  deriving DecidableEq, Repr

/-- The DESC word: PARAM_ID [15:0], BUCKET [18:16], MATCHED [24], other bits 0 (10_state.md R44). -/
def EventEntry.desc (e : EventEntry) : Word :=
  0#7 ++ BitVec.ofBool e.matched ++ 0#5 ++ e.bucket.code ++ e.paramId

/-- The eight words of an event entry (10_state.md R44). -/
def EventEntry.words (e : EventEntry) : List Word :=
  [e.desc, e.handle, e.val.extractLsb' 0 32, e.val.extractLsb' 32 32, BitVec.ofNat 32 e.voff, BitVec.ofNat 32 e.vlen,
    BitVec.ofNat 32 e.recIndex, 0#32]

/-- The SEV word: the raw byte [7:0], the mapped severity as s8 [15:8], [31:16] = 0 (10_state.md R43). -/
def RecordEntry.sevWord (r : RecordEntry) : Word := 0#16 ++ r.sev.pattern ++ r.sevRaw

/-- The eight words of a record entry (10_state.md R43). -/
def RecordEntry.words (r : RecordEntry) : List Word :=
  [r.recId.setWidth 32, r.totalIo.setWidth 32, BitVec.ofNat 32 r.matchedIo, BitVec.ofNat 32 r.nEvents,
    BitVec.ofNat 32 r.firstEvent, r.ts.extractLsb' 0 32, r.ts.extractLsb' 32 32, r.sevWord]

/-- A table's entries as bytes: each word on the lanes of the bus (20_memory.md R71, R89). -/
def tableBytes (entries : List (List Word)) : List Byte := (entries.flatten).flatMap lanes

/-- Why a parse stops before its end: a fatal result, or a lookup without an answer
(93_implementation_defined.md U9). -/
inductive Stop where
  | raised (e : Raised)
  | silent
  deriving DecidableEq, Repr

/-- A parse under way: the engine's internal state and the entries written so far (10_state.md R45). -/
structure Intake where
  eng : Engine
  recs : List RecordEntry
  evts : List EventEntry
  deriving DecidableEq, Repr

/-- Entry, steps 5 to 8 (R160): an I/O element whose ID the resolver knows is matched, dropped or emitted. -/
def emit (s : State) (bk : Bucket) (w : Nat) (d : Intake) (pid voff value : Nat) (h : Word) : Except Stop Intake :=
  let id := BitVec.ofNat 16 pid
  let matched := s.isMatch id
  if !s.retain matched then .ok d
  else if d.eng.nev = s.params.evtMax then .error (.raised (capacityExceeded (voff - 2)))
  else
    .ok { d with
      eng := { d.eng with nev := d.eng.nev + 1, mat := if matched then d.eng.mat + 1 else d.eng.mat }
      evts := d.evts ++ [{ paramId := id, bucket := bk, matched := matched, handle := h, val := BitVec.ofNat 64 value,
                           voff := voff, vlen := w, recIndex := d.eng.r }] }

/-- Entry(code, w) (R140, R160): the ID and the value are consumed before the resolver is asked (R155). -/
def entry (s : State) (bk : Bucket) (w : Nat) (d : Intake) : Except Stop Intake :=
  match rd s d.eng 2 with
  | .error x => .error (.raised x)
  | .ok (pid, e1) =>
    match rd s e1 w with
    | .error x => .error (.raised x)
    | .ok (value, e2) =>
      match s.resolver.lookup (BitVec.ofNat 16 pid) with
      | .silent => .error .silent
      | .unknown => .ok { d with eng := e2 }
      | .handle h => emit s bk w { d with eng := e2 } pid e1.cur value h

/-- `repeat n times: Entry(code, w)` (R140). -/
def entries (s : State) (bk : Bucket) (w : Nat) : (n : Nat) → Intake → Except Stop Intake
  | 0, d => .ok d
  | n + 1, d =>
    match entry s bk w d with
    | .error x => .error x
    | .ok d' => entries s bk w n d'

/-- A fixed-width bucket: the 2-byte count, then the entries (R153). -/
def fixedBucket (s : State) (bk : Bucket) (w : Nat) (d : Intake) : Except Stop Intake :=
  match rd s d.eng 2 with
  | .error x => .error (.raised x)
  | .ok (n, e) => entries s bk w n { d with eng := e }

/-- The variable-width bucket: the 2-byte count, the 2-byte declared width X, then the entries (R154). -/
def variableBucket (s : State) (d : Intake) : Except Stop Intake :=
  match rd s d.eng 2 with
  | .error x => .error (.raised x)
  | .ok (n, e1) =>
    match rd s e1 2 with
    | .error x => .error (.raised x)
    | .ok (x, e2) => entries s .variable x n { d with eng := e2 }

/-- The five buckets in their fixed order (R152). -/
def buckets (s : State) (d0 : Intake) : Except Stop Intake :=
  match fixedBucket s .width1 1 d0 with
  | .error x => .error x
  | .ok d1 =>
    match fixedBucket s .width2 2 d1 with
    | .error x => .error x
    | .ok d2 =>
      match fixedBucket s .width4 4 d2 with
      | .error x => .error x
      | .ok d3 =>
        match fixedBucket s .width8 8 d3 with
        | .error x => .error x
        | .ok d4 => variableBucket s d4

/-- The fields of a record before its buckets (R146 to R149). -/
structure RecordHead where
  ts : Nat
  sevRaw : Nat
  recId : Nat
  totalIo : Nat
  deriving DecidableEq, Repr

/-- The timestamp, the severity (which updates the running maximum at once, R147), the location block skipped as 15
bytes (R148), the record ID, the declared total I/O count (R149); the record's counters start (R140). -/
def recordHead (s : State) (e0 : Engine) : Except Raised (RecordHead × Engine) :=
  match rd s e0 8 with
  | .error x => .error x
  | .ok (ts, e1) =>
    match rd s e1 1 with
    | .error x => .error x
    | .ok (sraw, e2) =>
      match skip s { e2 with hi := sevAgg e2.hi (sevMap (BitVec.ofNat 8 sraw)) } 15 with
      | .error x => .error x
      | .ok e3 =>
        match rd s e3 2 with
        | .error x => .error x
        | .ok (rid, e4) =>
          match rd s e4 2 with
          | .error x => .error x
          | .ok (tot, e5) =>
            .ok ({ ts := ts, sevRaw := sraw, recId := rid, totalIo := tot }, { e5 with first := e5.nev, mat := 0 })

/-- The record entry, written once, after the variable bucket (R164). -/
def recordEntry (h : RecordHead) (e : Engine) : RecordEntry :=
  { recId := BitVec.ofNat 16 h.recId
    totalIo := BitVec.ofNat 16 h.totalIo
    matchedIo := e.mat
    nEvents := e.nev - e.first
    firstEvent := e.first
    ts := BitVec.ofNat 64 h.ts
    sevRaw := BitVec.ofNat 8 h.sevRaw
    sev := sevMap (BitVec.ofNat 8 h.sevRaw) }

/-- One record (R140, R145 to R164). -/
def record (s : State) (d : Intake) : Except Stop Intake :=
  match recordHead s d.eng with
  | .error x => .error (.raised x)
  | .ok (h, e) =>
    match buckets s { d with eng := e } with
    | .error x => .error x
    | .ok d' =>
      .ok { d' with eng := { d'.eng with r := d'.eng.r + 1 }, recs := d'.recs ++ [recordEntry h d'.eng] }

/-- Exactly the declared number of records, in order (R145). -/
def records (s : State) : (n : Nat) → Intake → Except Stop Intake
  | 0, d => .ok d
  | n + 1, d =>
    match record s d with
    | .error x => .error x
    | .ok d' => records s n d'

/-- What a complete parse gives (R170). -/
structure Parsed where
  payloadLen : Nat
  nrec : Nat
  intake : Intake
  deriving DecidableEq, Repr

/-- The header and the records, once both gates have passed (R144, R145). -/
def parseFrame (s : State) (e : Engine) : Except Stop Parsed :=
  match rd s { e with cur := 4 } 4 with
  | .error x => .error (.raised x)
  | .ok (plen, e1) =>
    match rd s { e1 with cur := 9 } 1 with
    | .error x => .error (.raised x)
    | .ok (nrec, e2) =>
      match records s nrec { eng := { e2 with hi := .notDetermined, nev := 0, r := 0 }, recs := [], evts := [] } with
      | .error x => .error x
      | .ok d => .ok { payloadLen := plen, nrec := nrec, intake := d }

/-- The NoError commit (R170, R175): the tables hold the records and the events in wire order (R171). -/
def State.commitFrame (s : State) (v : Verified) (p : Parsed) : State :=
  ({ (s.setTables (tableBytes (p.intake.recs.map RecordEntry.words))
        (tableBytes (p.intake.evts.map EventEntry.words))).setCheck v.crc v.decl 0 with
      fr :=
        { payloadLen := BitVec.ofNat 32 p.payloadLen
          nrec := BitVec.ofNat 8 p.nrec
          nevt := BitVec.ofNat 32 p.intake.eng.nev
          hipri := p.intake.eng.hi } }).commit .noError true

/-- C8E_DECODE (R140): the gates in their order (R141), the parse, the commit of R175. -/
def execC8eDecode (s : State) : Host.Outcome State Fault Refusal :=
  let len := s.start.len
  if s.params.inSize < len then .next (s.raise .c8eDecode .capacityExceeded 0)
  else if len < 9 then .next (s.raise .c8eDecode .malformedFrame 8)
  else if s.frameByte 8 ≠ 0x8E#8 then .next (s.finishGate .c8eDecode .codecIncompatible 0 0)
  else if len < 12 then .next (s.raise .c8eDecode .malformedFrame 8)
  else
    let v := verify s len
    if v.ok then
      match parseFrame s { s.start with crc := v.crc } with
      | .ok p => .next (s.commitFrame v p)
      | .error (.raised x) => .next (s.raise .c8eDecode x.code x.pos)
      | .error .silent => .refused .resolverSilent
    else .next (s.finishGate .c8eDecode .crcFailed v.crc v.decl)

end Sys2Proof.Machine
end

