-- ==== Sys2Proof/Machine/Dispatch.lean ====
section
/-! DEFINITION. The meaning of each operation: one arm per constructor of Instr (30_encoding.md R91). -/

namespace Sys2Proof.Machine

/-- The engine runs an operation and commits it (60_exceptions.md R226 (2), (3)). -/
def exec (i : Instr) (s : State) : Host.Outcome State Fault Refusal :=
  match i with
  | .crcCompute => Sys2Proof.Machine.execCrcCompute s
  | .crcVerify => Sys2Proof.Machine.execCrcVerify s
  | .c8eDecode => Sys2Proof.Machine.execC8eDecode s
  | .c12Encode => Sys2Proof.Machine.execC12Encode s
  | .c12Decode => Sys2Proof.Machine.execC12Decode s
  | .filterProbe => Sys2Proof.Machine.execFilterProbe s

end Sys2Proof.Machine
end

