-- ==== Sys2Proof/Machine/Engine.lean ====
section
/-! DEFINITION. The engine's move and the taking of an event. -/

namespace Sys2Proof.Machine

/-- The operation word of the OP the engine holds (10_state.md R50). -/
def Engine.word (e : Engine) : Word := e.op.setWidth 32

/-- The engine's move (60_exceptions.md R226; 70_reset_and_hazards.md R270): while it holds an operation, which is while
BUSY = 1, it runs it and commits it. While it is idle nothing moves (70_reset_and_hazards.md R252). An operation whose
inputs the host has not loaded (R255, a duty of R272) runs too, on free values: the model's choice, DESIGN CHOICE (log 23). -/
def engineMove (s : State) : Host.Outcome State Fault Refusal :=
  match s.eng with
  | some e =>
    match decode e.word with
    | .ok i => exec i s
    | .error _ => .next s.commitIllegalOp
  | none => .next s

/-- One event of the world outside (00_scope.md R7, R8). -/
def takeEvent (e : Event) (s : State) : Host.Outcome State Fault Refusal :=
  match e with
  | .access a => takeAccess a s
  | .engine => engineMove s
  | .rstAssert => .next s.assertRst
  | .rstRelease => .next s.releaseRst
  | .setResolver r => takeResolver r s

/-- A state in which an operation word has just been accepted and the engine moves next (log 17). -/
def State.issued (s : State) (w : Word) : State :=
  { s.accept w with rst := false, env := .engine :: s.env }

end Sys2Proof.Machine
end

