-- ==== Sys2Proof/Machine/Step.lean ====
section
/-! DEFINITION. One step of the machine: the next event is taken; when none is left the engine moves, so that an
accepted operation commits (70_reset_and_hazards.md R270; log 7). -/

namespace Sys2Proof.Machine

/-- One step. -/
def step (s : State) : Host.Outcome State Fault Refusal :=
  match s.env with
  | [] => engineMove s
  | e :: rest => takeEvent e { s with env := rest }

/-- s with an operation word as the one the engine runs next: accepted, with the engine's move first among the events.
The bits at and above nbits are 0. -/
def State.withFetchWord (s : State) (nbits w : Nat) : State := s.issued (BitVec.ofNat 32 (w % 2 ^ nbits))

end Sys2Proof.Machine
end

