-- ==== Sys2Proof/Safety.lean ====
section
/-! DEFINITION. What claims are stated in: the invariant of the block, the host's duties (70_reset_and_hazards.md R272),
and a step that stops. -/

namespace Sys2Proof.Machine

/-- Memory lists only bytes of the memory windows, in canonical form (10_state.md R40). -/
abbrev State.memOk (s : State) : Prop :=
  Memory.wf s.mem ∧ ∀ c ∈ s.mem, (windowAt s.params c.1 1).isSome = true

/-- The counts stay within the instance's parameters (10_state.md R27, R35; 41_codec8e.md R165), and a frame result of no
record has no event and no severity (10_state.md R33; 41_codec8e.md R145). -/
abbrev State.countsOk (s : State) : Prop :=
  s.isetCount.toNat ≤ s.params.interestMax ∧ s.outLen.toNat ≤ s.params.outSize ∧
  s.fr.nevt.toNat ≤ s.params.evtMax ∧ (s.fr.nrec = 0 → s.fr.nevt = 0 ∧ s.fr.hipri = .notDetermined)

/-- The completion protocol (60_exceptions.md R226, R233): BUSY and DONE are never set together; while BUSY the engine
holds the OP of CMD and the L of IN_LEN, and the OP is no reserved one; while idle it holds nothing (10_state.md R51). -/
abbrev State.protocolOk (s : State) : Prop :=
  (s.status.busy = true → s.status.done = false ∧ s.eng = some (Engine.accepted s.cmdOp s.inLen.toNat) ∧
    reservedOp s.cmdOp = false) ∧
  (s.status.busy = false → s.eng = none) ∧
  (s.status.verifyOk = true → s.status.result = .noError) ∧
  (s.rst = true → s.status.busy = false ∧ s.irq = false)

/-- The invariant of the block. -/
abbrev Inv (s : State) : Prop :=
  s.params.wellFormed = true ∧ s.memOk ∧ s.countsOk ∧ s.protocolOk

/-- The duties of the host and the platform at one event (70_reset_and_hazards.md R250, R254, R262, R272): no access
while `rst` is asserted nor outside the aperture, no change of an answer during a C8E_DECODE, a resolver that answers.
These are the duties whose breach is refused; that the duty to load the inputs first (R255) is none of them is the model's
choice, DESIGN CHOICE (log 23). -/
def State.dutyKept (s : State) : Event → Bool
  | .access a => !s.rst && decodesAddr s.params a.addr
  | .engine => !s.decoding || s.resolver.answering
  | .setResolver r => !s.decoding || s.resolver.sameAnswers r
  | .rstAssert | .rstRelease => true

/-- The event the next step takes: the head of the coming events, or the engine's move (log 7). -/
def State.nextEvent (s : State) : Event :=
  match s.env with
  | [] => .engine
  | e :: _ => e

/-- The step goes on: no fault and no refusal. -/
def State.goesOn (s : State) : Prop := ∃ t, step s = .next t

end Sys2Proof.Machine
end

