-- ==== Sys2Proof/Certificates/Slice0/Wire.lean ====
section
/-! DEFINITION. The Codec 8E wire grammar as a writer (30_encoding.md R94 to R98), and the records and events that the
rules give a frame so written (41_codec8e.md R145 to R171). The machine does not use it: statements hold C8E_DECODE
against it. -/

namespace Sys2Proof.Wire

open Sys2Proof.Machine

/-- One entry of a bucket (R97, R98): its parameter ID and its value bytes. -/
structure Element where
  id : Half
  value : List Byte
  deriving DecidableEq, Repr

/-- One record (R95), its five buckets (R96) and the declared width X of the variable one (R98). -/
structure Record where
  ts : DWord
  severity : Byte
  location : List Byte
  recId : Half
  totalIo : Half
  b1 : List Element
  b2 : List Element
  b4 : List Element
  b8 : List Element
  x : Half
  bx : List Element
  deriving DecidableEq, Repr

/-- The entries of a bucket of width w have values of that width, and their count fits its 2-byte field. -/
def fits (w : Nat) (es : List Element) : Prop := es.length < 65536 ∧ ∀ e ∈ es, e.value.length = w

/-- A record can be written: a 15-byte location block and buckets that fit (R95, R97, R98). -/
def Record.fits (r : Record) : Prop :=
  r.location.length = 15 ∧ Wire.fits 1 r.b1 ∧ Wire.fits 2 r.b2 ∧ Wire.fits 4 r.b4 ∧ Wire.fits 8 r.b8 ∧
  Wire.fits r.x.toNat r.bx

/-- The bytes of one entry: 2-byte ID, value (R97, R98). -/
def Element.bytes (e : Element) : List Byte := beBytes 2 e.id.toNat ++ e.value

/-- The bytes of a bucket's entries. -/
def elementsBytes (es : List Element) : List Byte := es.flatMap Element.bytes

/-- A fixed-width bucket (R97). -/
def bucketBytes (es : List Element) : List Byte := beBytes 2 es.length ++ elementsBytes es

/-- The variable-width bucket (R98). -/
def variableBytes (x : Half) (es : List Element) : List Byte :=
  beBytes 2 es.length ++ (beBytes 2 x.toNat ++ elementsBytes es)

/-- The bytes of a record before its buckets (R95). -/
def Record.headBytes (r : Record) : List Byte :=
  beBytes 8 r.ts.toNat ++ ([r.severity] ++ (r.location ++ (beBytes 2 r.recId.toNat ++ beBytes 2 r.totalIo.toNat)))

/-- The bytes of the five buckets in their order (R96). -/
def Record.bucketsBytes (r : Record) : List Byte :=
  bucketBytes r.b1 ++ (bucketBytes r.b2 ++ (bucketBytes r.b4 ++ (bucketBytes r.b8 ++ variableBytes r.x r.bx)))

/-- The bytes of a record (R95). -/
def Record.bytes (r : Record) : List Byte := r.headBytes ++ r.bucketsBytes

/-- The bytes of the records, one after another (R94). -/
def recordsBytes (rs : List Record) : List Byte := rs.flatMap Record.bytes

/-- The checksum region: codec tag, record count, records, trailing bytes (R94). -/
def region (rs : List Record) (trailing : List Byte) : List Byte :=
  0x8E#8 :: BitVec.ofNat 8 rs.length :: (recordsBytes rs ++ trailing)

/-- A whole frame: preamble, declared payload length, region, checksum field (R94). -/
def frame (preamble : List Byte) (payloadLen : Word) (rs : List Record) (trailing : List Byte) : List Byte :=
  preamble ++ (beBytes 4 payloadLen.toNat ++ (region rs trailing ++ beBytes 4 (crc16 (region rs trailing)).toNat))

/-! ## What the rules give -/

/-- The event of one entry whose value stands at offset voff, if the resolver knows the ID and the policy keeps it (R160
to R162). -/
def eventOf (s : State) (bk : Bucket) (w recIndex voff : Nat) (e : Element) : Option EventEntry :=
  match s.resolver.lookup e.id with
  | .handle h =>
    if s.retain (s.isMatch e.id) then
      some { paramId := e.id, bucket := bk, matched := s.isMatch e.id, handle := h, val := BitVec.ofNat 64 (beval e.value),
             voff := voff, vlen := w, recIndex := recIndex }
    else none
  | _ => none

/-- The events of a bucket's entries, the first entry at offset off; every entry takes 2 + w bytes (R155). -/
def eventsOf (s : State) (bk : Bucket) (w recIndex : Nat) : (off : Nat) → List Element → List EventEntry
  | _, [] => []
  | off, e :: es => (eventOf s bk w recIndex (off + 2) e).toList ++ eventsOf s bk w recIndex (off + (2 + w)) es

/-- The bytes a fixed-width bucket takes: 2 + N (2 + w) (R97). -/
def bucketSize (w : Nat) (es : List Element) : Nat := 2 + es.length * (2 + w)

/-- The bytes the variable bucket takes: 4 + N (2 + X) (R98). -/
def Record.variableSize (r : Record) : Nat := 4 + r.bx.length * (2 + r.x.toNat)

/-- The bytes a record takes (R95). -/
def Record.size (r : Record) : Nat :=
  28 + (bucketSize 1 r.b1 + (bucketSize 2 r.b2 + (bucketSize 4 r.b4 + (bucketSize 8 r.b8 + r.variableSize))))

/-- The events of a record that starts at offset off: by bucket, then entry (R171). -/
def Record.events (s : State) (recIndex off : Nat) (r : Record) : List EventEntry :=
  let o1 := off + 28
  let o2 := o1 + bucketSize 1 r.b1
  let o4 := o2 + bucketSize 2 r.b2
  let o8 := o4 + bucketSize 4 r.b4
  let ox := o8 + bucketSize 8 r.b8
  eventsOf s .width1 1 recIndex (o1 + 2) r.b1 ++ (eventsOf s .width2 2 recIndex (o2 + 2) r.b2 ++
    (eventsOf s .width4 4 recIndex (o4 + 2) r.b4 ++ (eventsOf s .width8 8 recIndex (o8 + 2) r.b8 ++
      eventsOf s .variable r.x.toNat recIndex (ox + 4) r.bx)))

/-- The record entry of a record whose first event has index first (R43, R163, R164). -/
def Record.entry (r : Record) (first : Nat) (evts : List EventEntry) : RecordEntry :=
  { recId := r.recId, totalIo := r.totalIo, matchedIo := (evts.filter (fun e => e.matched)).length,
    nEvents := evts.length, firstEvent := first, ts := r.ts, sevRaw := r.severity, sev := sevMap r.severity }

/-- The events of the records, the first record with index recIndex at offset off (R171). -/
def allEvents (s : State) : (recIndex off : Nat) → List Record → List EventEntry
  | _, _, [] => []
  | i, off, r :: rs => r.events s i off ++ allEvents s (i + 1) (off + r.size) rs

/-- The record entries, the first record's first event with index first (R171). -/
def allEntries (s : State) : (recIndex off first : Nat) → List Record → List RecordEntry
  | _, _, _, [] => []
  | i, off, first, r :: rs =>
    r.entry first (r.events s i off) :: allEntries s (i + 1) (off + r.size) (first + (r.events s i off).length) rs

/-- Record-table entry r of t, word by word at its offset (10_state.md R43), holds the record w, whose entry is e: the fields
of the frame from w, the counts and the first event from e. -/
def Record.stands (t : State) (r : Nat) (w : Record) (e : RecordEntry) : Prop :=
  let word := fun k : Nat => t.readWord (0x30000 + 32 * r + k)
  (word 0x00).toNat = w.recId.toNat ∧ (word 0x04).toNat = w.totalIo.toNat ∧
  word 0x08 = BitVec.ofNat 32 e.matchedIo ∧ word 0x0C = BitVec.ofNat 32 e.nEvents ∧
  word 0x10 = BitVec.ofNat 32 e.firstEvent ∧
  word 0x14 = w.ts.extractLsb' 0 32 ∧ word 0x18 = w.ts.extractLsb' 32 32 ∧
  (word 0x1C).extractLsb' 0 8 = w.severity ∧ ((word 0x1C).extractLsb' 8 8).toInt = (sevMap w.severity).toInt ∧
  (word 0x1C).extractLsb' 16 16 = 0#16

/-- The BUCKET code of a bucket in DESC (30_encoding.md R104). -/
def bucketCode : Bucket → Nat
  | .width1 => 0
  | .width2 => 1
  | .width4 => 2
  | .width8 => 3
  | .variable => 4

/-- Event-table entry n of t, word by word at its offset (10_state.md R44; 30_encoding.md R104), holds the event e. -/
def eventStands (t : State) (n : Nat) (e : EventEntry) : Prop :=
  let word := fun k : Nat => t.readWord (0x40000 + 32 * n + k)
  (word 0x00).toNat = e.paramId.toNat + 2 ^ 16 * bucketCode e.bucket + 2 ^ 24 * e.matched.toNat ∧
  word 0x04 = e.handle ∧ word 0x08 = e.val.extractLsb' 0 32 ∧ word 0x0C = e.val.extractLsb' 32 32 ∧
  word 0x10 = BitVec.ofNat 32 e.voff ∧ word 0x14 = BitVec.ofNat 32 e.vlen ∧ word 0x18 = BitVec.ofNat 32 e.recIndex ∧
  word 0x1C = 0#32

/-- The highest severity of the records (R207). -/
def highest (rs : List Record) : Severity := rs.foldl (fun hi r => sevAgg hi (sevMap r.severity)) .notDetermined

end Sys2Proof.Wire
end

