-- ==== Sys2Proof/Certificates/Slice0/Obligations.lean ====
section
/-! DEFINITION. The statements about the block, each from the numbered rules of spec/. -/

open Sys2Proof Sys2Proof.Machine Host.Outcome

/-! ## Encoding -/

/-- Every word, whatever its ignored bits, decodes by its bits [3:0] (R91, R109); a word is rejected exactly when its OP is
0x0 or 0x7 to 0xF (R92); and the encoder's word, with any ignored bits, decodes to its operation. -/
def Obligations.DecodeReadsOpFieldAndInvertsEncode : Prop :=
  (∀ (i : Instr) (upper : BitVec 28), i.wellFormed = true →
    decode (encode i) = .ok i ∧ decode (encodeWith upper i) = .ok i) ∧
  (∀ (w : Word) (i : Instr), decode w = .ok i ↔ w.extractLsb' 0 4 = i.opcode) ∧
  (∀ w : Word, (∃ e, decode w = .error e) ↔
    w.extractLsb' 0 4 = 0x0#4 ∨ 0x7#4 ≤ w.extractLsb' 0 4)

/-- No word selects two rows of the opcode table (R109). -/
def Obligations.OpTableRowsAreDisjoint : Prop :=
  ∀ (w : Word) (r r' : OpRow), r ∈ opTable → r' ∈ opTable → r.selects w = true → r'.selects w = true → r = r'

/-- Words written out from R91's table and the vectors V-OP-1 to V-OP-6 of 95_test_vectors.md. -/
def Obligations.WrittenOutWordsDecode : Prop :=
  decode 0x00000001#32 = .ok .crcCompute ∧ decode 0xFFFFFFF2#32 = .ok .crcVerify ∧
  decode 0x00000013#32 = .ok .c8eDecode ∧ decode 0x00000004#32 = .ok .c12Encode ∧
  decode 0x00000005#32 = .ok .c12Decode ∧ decode 0x00000016#32 = .ok .filterProbe ∧
  decode 0x00000000#32 = .error (.reservedOp 0x0#4) ∧ decode 0x00000017#32 = .error (.reservedOp 0x7#4) ∧
  decode 0x0000000F#32 = .error (.reservedOp 0xF#4)

/-! ## The step -/

/-- When the engine moves next and the OP it holds decodes to an operation i, the step is exec of i at the state past
that event. So is the step of a state that withFetchWord prepared. That a step is one event, and that the engine moves when no event
is left, is the model's (log 7, log 17). -/
def Obligations.EngineStepRunsTheDecodedOperation : Prop :=
  (∀ (s : State) (e : Engine) (i : Instr), s.nextEvent = .engine → s.eng = some e →
    decode (e.op.setWidth 32) = .ok i → step s = exec i { s with env := s.env.tail }) ∧
  (∀ (s : State) (i : Instr) (nbits w : Nat), decode (BitVec.ofNat 32 (w % 2 ^ nbits)) = .ok i →
    step (s.withFetchWord nbits w) =
      exec i { s.accept (BitVec.ofNat 32 (w % 2 ^ nbits)) with rst := false })

/-- A host access at the head of the events, while `rst` is released and inside the aperture, reaches the block at the
offset bus address - BLOCK_BASE (R70); outside the aperture it stops the model (log 10), and while `rst` is asserted it is refused
(93_implementation_defined.md U7, log 12). -/
def Obligations.StepTakesTheNextHostAccess : Prop :=
  ∀ (s : State) (width addr : Nat) (v : Word) (rest : List Event),
    (s.rst = false → s.params.blockBase ≤ addr → addr < s.params.blockBase + 0x100000 →
      (s.env = .access (.read width addr) :: rest →
        step s = next ({ s with env := rest }.busRead width (addr - s.params.blockBase))) ∧
      (s.env = .access (.write width addr v) :: rest →
        step s = next ({ s with env := rest }.busWrite width (addr - s.params.blockBase) v))) ∧
    (s.rst = false → (addr < s.params.blockBase ∨ s.params.blockBase + 0x100000 ≤ addr) →
      (s.env = .access (.read width addr) :: rest ∨ s.env = .access (.write width addr v) :: rest) →
      step s = fault .outsideAperture) ∧
    (s.rst = true →
      (s.env = .access (.read width addr) :: rest ∨ s.env = .access (.write width addr v) :: rest) →
      step s = refused .accessDuringReset)

/-! ## The CRC generator -/

/-- R126's examples and its trace, R125's example and the empty input of R122 (a), all of which the spec derives from R120. -/
def Obligations.CrcGivesTheStatedExamples : Prop :=
  crc16 [0x00#8] = 0x0000#16 ∧ crc16 [0x01#8] = 0xC0C1#16 ∧ crc16 [0x80#8] = 0xA001#16 ∧
  crc16 [0xFF#8] = 0x4040#16 ∧ crc16 [0x8E#8] = 0x6480#16 ∧ crc16 [0x0C#8] = 0x0500#16 ∧
  crc16 [0xFF#8, 0xFF#8] = 0xB001#16 ∧ crc16 [0x41#8] = 0x30C0#16 ∧ crc16 [] = 0x0000#16 ∧
  crc16 [0x31#8, 0x32#8, 0x33#8, 0x34#8, 0x35#8, 0x36#8, 0x37#8, 0x38#8, 0x39#8] = 0xBB3D#16 ∧
  [1, 2, 3, 4, 5, 6, 7, 8].map (fun n => Nat.repeat crcShift n 0x000C#16) =
    [0x0006#16, 0x0003#16, 0xA000#16, 0x5000#16, 0x2800#16, 0x1400#16, 0x0A00#16, 0x0500#16]

/-- CRC16 of any all-zero sequence is 0, and CRC16 is linear over XOR (R122 (a), (b)). -/
def Obligations.CrcIsLinearOverXor : Prop :=
  (∀ n : Nat, crc16 (List.replicate n 0#8) = 0#16) ∧
  (∀ s e : List Byte, s.length = e.length →
    crc16 (List.zipWith (fun a b => a ^^^ b) s e) = crc16 s ^^^ crc16 e)

/-- A sequence with exactly one nonzero byte has a nonzero CRC (R122 (c)), and changing one byte of a sequence always
changes its CRC (R122 (d)). -/
def Obligations.CrcDetectsEveryOneByteChange : Prop :=
  (∀ (n m : Nat) (b : Byte), b ≠ 0#8 →
    crc16 (List.replicate n 0#8 ++ b :: List.replicate m 0#8) ≠ 0#16) ∧
  (∀ (bs : List Byte) (k : Nat) (h : k < bs.length) (b : Byte), b ≠ bs[k] → crc16 (bs.set k b) ≠ crc16 bs)

/-- A frame that verifies, with any one byte inside the checksummed region changed, no longer verifies: CRC_VERIFY
commits CrcFailed with VERIFY_OK = 0 (R128). A change of a byte 0 to 7 is not seen. -/
def Obligations.VerifyFailsAfterAnyOneByteChange : Prop :=
  ∀ (s : State) (k : Nat) (b : Byte),
    s.inLen.toNat ≤ s.params.inSize → 12 ≤ s.inLen.toNat → (verify s s.inLen.toNat).ok = true →
    (8 ≤ k → k + 4 < s.inLen.toNat → b ≠ s.frameByte k →
      ∃ t, exec .crcVerify (s.writeBytes (0x10000 + k) [b]) = next t ∧
        t.status.result = .crcFailed ∧ t.status.verifyOk = false) ∧
    (k < 8 →
      ∃ t, exec .crcVerify (s.writeBytes (0x10000 + k) [b]) = next t ∧
        t.status.result = .noError ∧ t.status.verifyOk = true)

/-- CRC_COMPUTE (R125): its OP, what it commits, that it writes nothing else, and L = 0. -/
def Obligations.CrcComputeCommitsTheCrcOfIn : Prop :=
  Instr.crcCompute.opcode = 0x1#4 ∧
  (∀ s : State, s.inLen.toNat ≤ s.params.inSize →
    exec .crcCompute s = next
      { s with
        crcValue := crc16 (s.frameBytes 0 s.inLen.toNat), crcDecl := 0#32, errPos := 0#32
        status := { busy := false, done := true, werr := s.status.werr, verifyOk := false, result := .noError }
        eng := none }) ∧
  (∀ s : State, s.params.inSize < s.inLen.toNat →
    exec .crcCompute s = next
      { s with
        crcValue := 0#16, crcDecl := 0#32, errPos := 0#32
        status := { busy := false, done := true, werr := s.status.werr, verifyOk := false, result := .capacityExceeded }
        eng := none }) ∧
  (∀ s : State, s.inLen = 0#32 → crc16 (s.frameBytes 0 s.inLen.toNat) = 0#16)

/-- CRC_VERIFY (R127, R123): its OP, what it commits in each case, and that it writes nothing else. -/
def Obligations.CrcVerifyCommitsTheChecksumOutcome : Prop :=
  Instr.crcVerify.opcode = 0x2#4 ∧
  ∀ s : State,
    (s.params.inSize < s.inLen.toNat →
      exec .crcVerify s = next
        { s with
          crcValue := 0#16, crcDecl := 0#32, errPos := 0#32
          status := { busy := false, done := true, werr := s.status.werr, verifyOk := false, result := .capacityExceeded }
          eng := none }) ∧
    (s.inLen.toNat ≤ s.params.inSize → s.inLen.toNat < 12 →
      exec .crcVerify s = next
        { s with
          crcValue := 0#16, crcDecl := 0#32, errPos := 8#32
          status := { busy := false, done := true, werr := s.status.werr, verifyOk := false, result := .malformedFrame }
          eng := none }) ∧
    (∀ (c : Half) (d : Nat), s.inLen.toNat ≤ s.params.inSize → 12 ≤ s.inLen.toNat →
      c = crc16 (s.frameBytes 8 (s.inLen.toNat - 4 - 8)) → d = beval (s.frameBytes (s.inLen.toNat - 4) 4) →
      exec .crcVerify s = next
        { s with
          crcValue := c, crcDecl := BitVec.ofNat 32 d, errPos := 0#32
          status :=
            { busy := false, done := true, werr := s.status.werr, verifyOk := decide (c.toNat = d)
              result := if c.toNat = d then .noError else .crcFailed }
          eng := none })

/-! ## The interest filter and the severity aggregator -/

/-- Match and Retain (R200, R202): what they are, for every ID and state. -/
def Obligations.MatchIsMembershipAndRetainIsThePolicy : Prop :=
  ∀ (s : State) (pid : Half) (m : Bool),
    (s.isMatch pid = true ↔
      s.isetCount.toNat ≠ 0 ∧ ∃ k, k < s.isetCount.toNat ∧ (s.readWord (0x01000 + 4 * k)).toNat = pid.toNat) ∧
    (s.retain m = false ↔ 0 < s.isetCount.toNat ∧ m = false ∧ s.cfg.discard = true)

/-- FILTER_PROBE (R204): its OP; PROBE_RESULT is RETAIN << 1 | MATCH, always NoError; nothing else is written; the three
outcomes of R203. -/
def Obligations.FilterProbeCommitsMatchAndRetain : Prop :=
  Instr.filterProbe.opcode = 0x6#4 ∧
  ∀ s : State, ∃ t, exec .filterProbe s = next t ∧
    t = { s with
          probe := t.probe, errPos := 0#32
          status := { busy := false, done := true, werr := s.status.werr, verifyOk := false, result := .noError }
          eng := none } ∧
    (t.readReg .probeResult).toNat = 2 * (s.retain (s.isMatch s.probeId)).toNat + (s.isMatch s.probeId).toNat ∧
    (s.isetCount = 0#32 → (t.readReg .probeResult).toNat = 2) ∧
    (s.isetCount ≠ 0#32 → s.isMatch s.probeId = true → (t.readReg .probeResult).toNat = 3) ∧
    (s.isetCount ≠ 0#32 → s.isMatch s.probeId = false →
      (t.readReg .probeResult).toNat = if s.cfg.discard then 0 else 2)

/-- SevMap (R206): the four rows of the table, as s8 values and bit patterns. -/
def Obligations.SeverityMapFollowsTheTable : Prop :=
  (sevMap 0x00#8).toInt = 0 ∧ (sevMap 0x01#8).toInt = 1 ∧ (sevMap 0x02#8).toInt = 2 ∧
  (∀ raw : Byte, 0x03#8 ≤ raw → (sevMap raw).toInt = -1) ∧
  (∀ raw : Byte, (sevMap raw).pattern.toInt = (sevMap raw).toInt)

/-- Agg is the maximum as signed integers, commutative and associative, and the fold over a frame's severities from
NotDetermined is their maximum, whatever their order (R207, R208). -/
def Obligations.AggregateIsTheSignedMaximum : Prop :=
  (∀ a b : Severity, (sevAgg a b).toInt = max a.toInt b.toInt) ∧
  (∀ a b : Severity, sevAgg a b = sevAgg b a) ∧
  (∀ a b c : Severity, sevAgg (sevAgg a b) c = sevAgg a (sevAgg b c)) ∧
  (∀ l l' : List Severity, l.Perm l' → l.foldl sevAgg .notDetermined = l'.foldl sevAgg .notDetermined)

/-! ## C8E_DECODE -/

/-- What a C8E_DECODE that does not reach NoError leaves (R175): t against s. The two tables are unspecified anew (R45,
R151): which draw names them is the model's (log 5), so the table offsets are left out of the clause on bytes. -/
def Sys2Proof.Machine.DecodeFails (s t : State) (r : ResultCode) (crc : Half) (decl : Word) (pos : Nat) : Prop :=
  t = { s with
        crcValue := crc, crcDecl := decl, errPos := BitVec.ofNat 32 pos
        fr := { payloadLen := 0#32, nrec := 0#8, nevt := 0#32, hipri := .notDetermined }
        status := { busy := false, done := true, werr := s.status.werr, verifyOk := false, result := r }
        eng := none
        mem := t.mem, nextDraw := t.nextDraw, tblDraw := t.tblDraw } ∧
  t.readReg .frHipri = 0x000000FF#32 ∧
  (∀ a, (a < 0x30000 ∨ 0x80000 ≤ a) → t.readByte a = s.readByte a)

/-- The gates of C8E_DECODE in their order, each with its commit (R141, R142, R143, R175). -/
def Obligations.C8eGatesShortCircuitInOrder : Prop :=
  ∀ s : State,
    (s.params.inSize < s.inLen.toNat →
      ∃ t, exec .c8eDecode s = next t ∧ DecodeFails s t .capacityExceeded 0 0 0) ∧
    (s.inLen.toNat ≤ s.params.inSize → s.inLen.toNat < 9 →
      ∃ t, exec .c8eDecode s = next t ∧ DecodeFails s t .malformedFrame 0 0 8) ∧
    (s.inLen.toNat ≤ s.params.inSize → 9 ≤ s.inLen.toNat → s.frameByte 8 ≠ 0x8E#8 →
      ∃ t, exec .c8eDecode s = next t ∧ DecodeFails s t .codecIncompatible 0 0 0) ∧
    (s.inLen.toNat ≤ s.params.inSize → 9 ≤ s.inLen.toNat → s.inLen.toNat < 12 → s.frameByte 8 = 0x8E#8 →
      ∃ t, exec .c8eDecode s = next t ∧ DecodeFails s t .malformedFrame 0 0 8) ∧
    (s.inLen.toNat ≤ s.params.inSize → 12 ≤ s.inLen.toNat → s.frameByte 8 = 0x8E#8 →
      (crc16 (s.frameBytes 8 (s.inLen.toNat - 12))).toNat ≠ beval (s.frameBytes (s.inLen.toNat - 4) 4) →
      ∃ t, exec .c8eDecode s = next t ∧
        DecodeFails s t .crcFailed (crc16 (s.frameBytes 8 (s.inLen.toNat - 12)))
          (BitVec.ofNat 32 (beval (s.frameBytes (s.inLen.toNat - 4) 4))) 0)

/-- A field read (R14, R150): it gives the big-endian field and moves the cursor past it, or, when the field passes L, it
is MalformedFrame at the field's offset. -/
def Obligations.FieldReadIsBoundedByTheFrame : Prop :=
  ∀ (s : State) (e : Engine) (n : Nat),
    (e.cur + n ≤ e.len → rd s e n = .ok (beval (s.frameBytes e.cur n), { e with cur := e.cur + n })) ∧
    (e.len < e.cur + n → rd s e n = .error { code := .malformedFrame, pos := e.cur })

/-- A frame that passes both gates and declares a record, but ends inside the first record's header: MalformedFrame at
the first field that does not fit (R150; R95's offsets), with nothing of the frame left (R151). -/
def Obligations.TruncatedRecordHeaderIsMalformedAtItsField : Prop :=
  ∀ (s : State) (off width : Nat),
    (off, width) ∈ [(10, 8), (18, 1), (19, 15), (34, 2), (36, 2), (38, 2)] →
    s.inLen.toNat ≤ s.params.inSize → 12 ≤ s.inLen.toNat → s.frameByte 8 = 0x8E#8 →
    (verify s s.inLen.toNat).ok = true → s.frameByte 9 ≠ 0#8 →
    off ≤ s.inLen.toNat → s.inLen.toNat < off + width →
    ∃ t, exec .c8eDecode s = next t ∧ DecodeFails s t .malformedFrame 0 0 off

/-- A bucket consumes the bytes of its count and width, whatever the resolver and the filter keep (R153, R154, R155). -/
def Obligations.BucketsConsumeTheirDeclaredBytes : Prop :=
  (∀ (s : State) (bk : Bucket) (w : Nat) (d d' : Intake), fixedBucket s bk w d = .ok d' →
    d'.eng.cur = d.eng.cur + (2 + beval (s.frameBytes d.eng.cur 2) * (2 + w))) ∧
  (∀ (s : State) (d d' : Intake), variableBucket s d = .ok d' →
    d'.eng.cur = d.eng.cur +
      (4 + beval (s.frameBytes d.eng.cur 2) * (2 + beval (s.frameBytes (d.eng.cur + 2) 2))))

/-- Two decodes of the same frame, under any two resolvers, interest sets and DISCARD, that both complete parse the same
records: the cursor ends at the same place, within L, and every record has the same header (R155, R52). -/
def Obligations.FilterNeverChangesTheParse : Prop :=
  ∀ (s s' : State) (e : Engine) (p p' : Parsed),
    (∀ k, k < e.len → s'.frameByte k = s.frameByte k) →
    parseFrame s e = .ok p → parseFrame s' e = .ok p' →
    p'.intake.eng.cur = p.intake.eng.cur ∧ p.intake.eng.cur ≤ e.len ∧ p'.payloadLen = p.payloadLen ∧ p'.nrec = p.nrec ∧
    p'.intake.eng.hi = p.intake.eng.hi ∧
    p'.intake.recs.map (fun r => (r.recId, r.totalIo, r.ts, r.sevRaw, r.sev)) =
      p.intake.recs.map (fun r => (r.recId, r.totalIo, r.ts, r.sevRaw, r.sev))

/-- C8E_DECODE of a frame written by the wire grammar (R94 to R98), whatever its trailing bytes, its resolver that
answers, its interest set and DISCARD: NoError, the header in FR_ (R170), and the record and event tables hold exactly the
records and the kept events, in wire order (R160 to R164, R171), each word at its offset (R43, R44, R104). -/
def Obligations.C8eDecodesEveryFrameOfTheWireGrammar : Prop :=
  ∀ (s : State) (preamble trailing : List Byte) (plen : Word) (rs : List Wire.Record),
    s.params.wellFormed = true → s.resolver.answering = true →
    preamble.length = 4 → rs.length < 256 → (∀ r ∈ rs, r.fits) →
    s.inLen.toNat = (Wire.frame preamble plen rs trailing).length → s.inLen.toNat ≤ s.params.inSize →
    s.frameBytes 0 s.inLen.toNat = Wire.frame preamble plen rs trailing →
    (Wire.allEvents s 0 10 rs).length ≤ s.params.evtMax →
    ∃ t, exec .c8eDecode s = next t ∧
      t = { s with
            crcValue := crc16 (Wire.region rs trailing)
            crcDecl := (crc16 (Wire.region rs trailing)).setWidth 32, errPos := 0#32
            fr :=
              { payloadLen := plen, nrec := BitVec.ofNat 8 rs.length
                nevt := BitVec.ofNat 32 (Wire.allEvents s 0 10 rs).length, hipri := Wire.highest rs }
            status := { busy := false, done := true, werr := s.status.werr, verifyOk := true, result := .noError }
            eng := none
            mem := t.mem, nextDraw := t.nextDraw, tblDraw := t.tblDraw } ∧
      (Wire.allEntries s 0 10 0 rs).length = rs.length ∧
      (∀ (r : Nat) (w : Wire.Record) (e : RecordEntry), rs[r]? = some w → (Wire.allEntries s 0 10 0 rs)[r]? = some e →
        w.stands t r e) ∧
      (∀ (n : Nat) (e : EventEntry), (Wire.allEvents s 0 10 rs)[n]? = some e → Wire.eventStands t n e) ∧
      (∀ a, (a < 0x30000 ∨ 0x80000 ≤ a) → t.readByte a = s.readByte a)

/-- The same frame with more kept events than the event table holds: CapacityExceeded, with ERR_POS the offset of the
first event's parameter ID that finds the table full, and no partial result (R165, R151). -/
def Obligations.C8eFullEventTableIsCapacityExceeded : Prop :=
  ∀ (s : State) (preamble trailing : List Byte) (plen : Word) (rs : List Wire.Record) (ev : EventEntry),
    s.resolver.answering = true →
    preamble.length = 4 → rs.length < 256 → (∀ r ∈ rs, r.fits) →
    s.inLen.toNat = (Wire.frame preamble plen rs trailing).length → s.inLen.toNat ≤ s.params.inSize →
    s.frameBytes 0 s.inLen.toNat = Wire.frame preamble plen rs trailing →
    (Wire.allEvents s 0 10 rs)[s.params.evtMax]? = some ev →
    ∃ t, exec .c8eDecode s = next t ∧ DecodeFails s t .capacityExceeded 0 0 (ev.voff - 2)

/-- The invariants of a NoError commit, read from the registers and the tables (R173). -/
def Obligations.C8eTablesAgreeWithTheFrameRegisters : Prop :=
  ∀ s t : State, s.params.wellFormed = true → exec .c8eDecode s = next t → t.status.result = .noError →
    let f := fun r k : Nat => (t.readWord (0x30000 + 32 * r + 4 * k)).toNat
    let severity := fun r : Nat => ((t.readWord (0x30000 + 32 * r + 28)).extractLsb' 8 8).toInt
    let matched := fun e : Nat => (t.readWord (0x40000 + 32 * e)).getLsbD 24
    t.fr.nevt.toNat = ((List.range t.fr.nrec.toNat).map (fun r => f r 3)).sum ∧
    (t.fr.nrec ≠ 0#8 → f 0 4 = 0) ∧
    (∀ r, r + 1 < t.fr.nrec.toNat → f (r + 1) 4 = f r 4 + f r 3) ∧
    (∀ r, r < t.fr.nrec.toNat →
      f r 2 = ((List.range' (f r 4) (f r 3)).filter matched).length ∧ f r 2 ≤ f r 3) ∧
    t.fr.nrec = s.frameByte 9 ∧
    (t.fr.nrec = 0#8 → t.fr.hipri.toInt = -1) ∧
    (∀ r, r < t.fr.nrec.toNat → severity r ≤ t.fr.hipri.toInt) ∧
    (t.fr.nrec ≠ 0#8 → ∃ r, r < t.fr.nrec.toNat ∧ severity r = t.fr.hipri.toInt) ∧
    (0 < s.isetCount.toNat → s.cfg.discard = true → ∀ e, e < t.fr.nevt.toNat → matched e = true)

/-- The frame of C8E_DECODE: when it commits, only the registers of R175's table change, and every byte outside the two
tables reads as before. -/
def Obligations.C8eChangesOnlyItsResults : Prop :=
  ∀ s t : State, s.params.wellFormed = true → exec .c8eDecode s = next t →
    t = { s with
          crcValue := t.crcValue, crcDecl := t.crcDecl, errPos := t.errPos, fr := t.fr, status := t.status
          eng := none, mem := t.mem, nextDraw := t.nextDraw, tblDraw := t.tblDraw } ∧
    t.status.busy = false ∧ t.status.done = true ∧ t.status.werr = s.status.werr ∧
    (∀ a, (a < 0x30000 ∨ 0x80000 ≤ a) → t.readByte a = s.readByte a)

/-! ## The Codec 12 serializer -/

/-- C12_ENCODE (R180, R100, R181): its OP, the frame it writes to OUT, field by field, the registers it commits, and that
nothing else changes, memory byte by byte; when the command or the frame does not fit, CapacityExceeded(0) with OUT untouched. -/
def Obligations.C12EncodeWritesTheCommandFrame : Prop :=
  Instr.c12Encode.opcode = 0x4#4 ∧
  ∀ (s : State) (n : Nat) (cmd body bytes : List Byte), n = s.inLen.toNat → cmd = s.frameBytes 0 n →
    body = [0x0C#8, 0x01#8, 0x05#8] ++ beBytes 4 n ++ cmd ++ [0x01#8] →
    bytes = [0#8, 0#8, 0#8, 0#8] ++ beBytes 4 (8 + n) ++ body ++ beBytes 4 (crc16 body).toNat →
    (n ≤ s.params.inSize → 20 + n ≤ s.params.outSize →
      ∃ t, exec .c12Encode s = next t ∧
        t = { s with
              crcValue := crc16 body, crcDecl := 0#32, errPos := 0#32, outLen := BitVec.ofNat 32 (20 + n)
              status := { busy := false, done := true, werr := s.status.werr, verifyOk := false, result := .noError }
              eng := none, mem := t.mem } ∧
        bytes.length = 20 + n ∧
        (∀ (k : Nat) (h : k < bytes.length), t.readByte (0x20000 + k) = bytes[k]) ∧
        (∀ a, (a < 0x20000 ∨ 0x20000 + (20 + n) ≤ a) → t.readByte a = s.readByte a)) ∧
    ((s.params.inSize < n ∨ s.params.outSize < 20 + n) →
      exec .c12Encode s = next
        { s with
          crcValue := 0#16, crcDecl := 0#32, errPos := 0#32, outLen := 0#32
          status := { busy := false, done := true, werr := s.status.werr, verifyOk := false, result := .capacityExceeded }
          eng := none })

/-- What a C12_DECODE that does not reach NoError leaves (R186): everything but the registers named, memory included. -/
def Sys2Proof.Machine.ResponseFails (s : State) (r : ResultCode) (crc : Half) (decl : Word) (pos : Nat) : State :=
  { s with
    crcValue := crc, crcDecl := decl, errPos := BitVec.ofNat 32 pos
    rsp := { dataSize := 0#32, qty := 0#8, type := 0#8, len := 0#32 }, outLen := 0#32
    status := { busy := false, done := true, werr := s.status.werr, verifyOk := false, result := r }
    eng := none }

/-- The gates of C12_DECODE in their order, each with its commit (R184, R185, R186). -/
def Obligations.C12GatesShortCircuitInOrder : Prop :=
  ∀ s : State,
    (s.params.inSize < s.inLen.toNat → exec .c12Decode s = next (ResponseFails s .capacityExceeded 0 0 0)) ∧
    (s.inLen.toNat ≤ s.params.inSize → s.inLen.toNat < 9 →
      exec .c12Decode s = next (ResponseFails s .malformedFrame 0 0 8)) ∧
    (s.inLen.toNat ≤ s.params.inSize → 9 ≤ s.inLen.toNat → s.frameByte 8 ≠ 0x0C#8 →
      exec .c12Decode s = next (ResponseFails s .codecIncompatible 0 0 0)) ∧
    (s.inLen.toNat ≤ s.params.inSize → 9 ≤ s.inLen.toNat → s.inLen.toNat < 12 → s.frameByte 8 = 0x0C#8 →
      exec .c12Decode s = next (ResponseFails s .malformedFrame 0 0 8)) ∧
    (s.inLen.toNat ≤ s.params.inSize → 12 ≤ s.inLen.toNat → s.frameByte 8 = 0x0C#8 →
      (crc16 (s.frameBytes 8 (s.inLen.toNat - 12))).toNat ≠ beval (s.frameBytes (s.inLen.toNat - 4) 4) →
      exec .c12Decode s = next
        (ResponseFails s .crcFailed (crc16 (s.frameBytes 8 (s.inLen.toNat - 12)))
          (BitVec.ofNat 32 (beval (s.frameBytes (s.inLen.toNat - 4) 4))) 0))

/-- C12_DECODE of a response that passes both gates (R184, R186, R187): its fields in the response registers and its
payload in OUT; MalformedFrame at offset 11 or 15 for a field or payload that passes L; CapacityExceeded(15) for a
payload larger than OUT. Every byte of memory but the payload's reads as before. -/
def Obligations.C12DecodeReportsTheResponse : Prop :=
  ∀ (s : State) (c : Half) (p : Nat),
    s.inLen.toNat ≤ s.params.inSize → 12 ≤ s.inLen.toNat → s.frameByte 8 = 0x0C#8 →
    c = crc16 (s.frameBytes 8 (s.inLen.toNat - 12)) → c.toNat = beval (s.frameBytes (s.inLen.toNat - 4) 4) →
    p = beval (s.frameBytes 11 4) →
    (s.inLen.toNat < 15 → exec .c12Decode s = next (ResponseFails s .malformedFrame 0 0 11)) ∧
    (15 ≤ s.inLen.toNat → s.inLen.toNat < 15 + p →
      exec .c12Decode s = next (ResponseFails s .malformedFrame 0 0 15)) ∧
    (15 + p ≤ s.inLen.toNat → s.params.outSize < p →
      exec .c12Decode s = next (ResponseFails s .capacityExceeded 0 0 15)) ∧
    (15 + p ≤ s.inLen.toNat → p ≤ s.params.outSize →
      ∃ t, exec .c12Decode s = next t ∧
        t = { s with
              crcValue := c, crcDecl := c.setWidth 32, errPos := 0#32
              rsp :=
                { dataSize := BitVec.ofNat 32 (beval (s.frameBytes 4 4)), qty := s.frameByte 9, type := s.frameByte 10
                  len := BitVec.ofNat 32 p }
              outLen := BitVec.ofNat 32 p
              status := { busy := false, done := true, werr := s.status.werr, verifyOk := true, result := .noError }
              eng := none, mem := t.mem } ∧
        (∀ k, k < p → t.readByte (0x20000 + k) = s.frameByte (15 + k)) ∧
        (∀ a, (a < 0x20000 ∨ 0x20000 + p ≤ a) → t.readByte a = s.readByte a))

/-- A response that decodes to NoError, with one byte changed (R188): CrcFailed inside the region past the tag and inside
the checksum field, CodecIncompatible at the tag, still decoded to NoError before the region. -/
def Obligations.MutatedResponseFailsByPosition : Prop :=
  ∀ (s t : State) (k : Nat) (b : Byte),
    exec .c12Decode s = next t → t.status.result = .noError → k < s.inLen.toNat → b ≠ s.frameByte k →
    ∃ t', exec .c12Decode (s.writeBytes (0x10000 + k) [b]) = next t' ∧
      (9 ≤ k → k + 5 ≤ s.inLen.toNat → t'.status.result = .crcFailed) ∧
      (k = 8 → t'.status.result = .codecIncompatible) ∧
      (k ≤ 7 → t'.status.result = .noError ∧ t'.status.verifyOk = true) ∧
      (4 ≤ k → k ≤ 7 → t'.rsp.dataSize ≠ t.rsp.dataSize) ∧
      (s.inLen.toNat ≤ k + 4 → t'.status.result = .crcFailed)

/-- A C12_ENCODE output in IN, decoded with C12_DECODE, gives the command back (R189; R182: the frame verifies). The
document promises no such law of the device's protocol (93_implementation_defined.md U6). -/
def Obligations.EncodedCommandDecodesToItself : Prop :=
  ∀ (s s' t : State) (cmd : List Byte),
    s.params.wellFormed = true → cmd = s.frameBytes 0 s.inLen.toNat →
    exec .c12Encode s = next t → t.status.result = .noError →
    s'.inLen = t.outLen → s'.params = s.params → s'.inLen.toNat ≤ s'.params.inSize →
    (∀ k, k < t.outLen.toNat → s'.frameByte k = t.readByte (0x20000 + k)) →
    (verify s' s'.inLen.toNat).ok = true ∧
    ∃ t', exec .c12Decode s' = next t' ∧ t'.status.result = .noError ∧
      t'.rsp.dataSize.toNat = 8 + cmd.length ∧ t'.rsp.qty = 1#8 ∧ t'.rsp.type = 5#8 ∧
      t'.rsp.len.toNat = cmd.length ∧ t'.outLen.toNat = cmd.length ∧
      (∀ (k : Nat) (h : k < cmd.length), t'.readByte (0x20000 + k) = cmd[k])

/-! ## Frames and completion over the operations -/

/-- CRC_COMPUTE, CRC_VERIFY and FILTER_PROBE store nothing and write only their own registers (R263): all of memory, byte
by byte, and every other register as before. -/
def Obligations.RegisterOperationsLeaveMemoryAlone : Prop :=
  ∀ (i : Instr) (s t : State), i ∈ [Instr.crcCompute, .crcVerify, .filterProbe] → exec i s = next t →
    (∀ a, t.readByte a = s.readByte a) ∧
    (i ∈ [Instr.crcCompute, .crcVerify] →
      t = { s with crcValue := t.crcValue, crcDecl := t.crcDecl, errPos := t.errPos, status := t.status, eng := none }) ∧
    (i = .filterProbe → t = { s with probe := t.probe, errPos := t.errPos, status := t.status, eng := none }) ∧
    t.status.busy = false ∧ t.status.done = true ∧ t.status.werr = s.status.werr

/-- C12_ENCODE and C12_DECODE write OUT only at Out[0..OUT_LEN) (R42), and only their own registers (R263). -/
def Obligations.Codec12OperationsWriteOnlyBelowOutLen : Prop :=
  ∀ (i : Instr) (s t : State), s.params.wellFormed = true → i ∈ [Instr.c12Encode, .c12Decode] → exec i s = next t →
    t = { s with
          crcValue := t.crcValue, crcDecl := t.crcDecl, errPos := t.errPos, rsp := t.rsp, outLen := t.outLen
          status := t.status, eng := none, mem := t.mem } ∧
    (i = .c12Encode → t.rsp = s.rsp) ∧
    t.status.busy = false ∧ t.status.done = true ∧ t.status.werr = s.status.werr ∧
    (∀ a, (a < 0x20000 ∨ 0x20000 + t.outLen.toNat ≤ a) → t.readByte a = s.readByte a)

/-- Every accepted operation commits (R228): in every state each operation answers a next state, idle and DONE, but
for a C8E_DECODE whose resolver does not answer (93_implementation_defined.md U9, log 14). -/
def Obligations.EveryOperationCommits : Prop :=
  ∀ (i : Instr) (s : State), (i = .c8eDecode → s.resolver.answering = true) →
    ∃ t, exec i s = next t ∧ t.status.busy = false ∧ t.status.done = true ∧ t.eng = none

/-- No operation faults, and the only refusal is a C8E_DECODE whose resolver does not answer (R272's duty to answer,
93_implementation_defined.md U9). -/
def Obligations.OnlyASilentResolverStopsAnOperation : Prop :=
  ∀ (i : Instr) (s : State),
    (∀ f, exec i s ≠ fault f) ∧
    (∀ r, exec i s = refused r → i = .c8eDecode ∧ r = .resolverSilent ∧ s.resolver.answering = false)

/-- No result depends on an IN byte at or beyond L, nor on an interest word at or beyond ISET_COUNT (R255;
93_implementation_defined.md U15): two states that agree on the rest commit the same registers, the same OUT bytes and the same valid table
entries. -/
def Obligations.UnreadInputsNeverMatter : Prop :=
  ∀ (i : Instr) (s s' t : State),
    s.params.wellFormed = true →
    s' = { s with mem := s'.mem, ramDraw := s'.ramDraw, tblDraw := s'.tblDraw, nextDraw := s'.nextDraw } →
    (∀ k, k < s.inLen.toNat → s'.frameByte k = s.frameByte k) →
    (∀ k, k < s.isetCount.toNat → s'.isetEntry k = s.isetEntry k) →
    exec i s = next t →
    ∃ t', exec i s' = next t' ∧
      t' = { t with mem := t'.mem, ramDraw := t'.ramDraw, tblDraw := t'.tblDraw, nextDraw := t'.nextDraw } ∧
      (i ∈ [Instr.c12Encode, .c12Decode] → ∀ k, k < t.outLen.toNat → t'.readByte (0x20000 + k) = t.readByte (0x20000 + k)) ∧
      (i = .c8eDecode →
        (∀ k, k < 32 * t.fr.nrec.toNat → t'.readByte (0x30000 + k) = t.readByte (0x30000 + k)) ∧
        (∀ k, k < 32 * t.fr.nevt.toNat → t'.readByte (0x40000 + k) = t.readByte (0x40000 + k)))

/-! ## Acceptance, commit and the interrupt -/

/-- A CMD write while idle accepts an operation (R23, R226 (1)): CMD.OP, BUSY = 1, DONE = 0, the OP and L latched;
nothing else changes, so every result register keeps its value until the commit. -/
def Obligations.CmdWriteWhileIdleAcceptsTheOperation : Prop :=
  ∀ (s : State) (w : Word) (i : Instr), s.status.busy = false → w.extractLsb' 0 4 = i.opcode →
    s.busWrite 32 0x004 w =
      { s with
        cmdOp := w.extractLsb' 0 4
        status :=
          { busy := true, done := false, werr := s.status.werr, verifyOk := s.status.verifyOk, result := s.status.result }
        eng := some (Engine.accepted i.opcode s.inLen.toNat)
        resp := .writeOk }

/-- A CMD write while idle with a reserved OP commits IllegalOp at once, which the model reads as in the same step (log
15): nothing but STATUS and CMD.OP changes, ERR_POS keeps its value (R221, R92), and CMD reads the OP (R23). Issuing a
valid operation afterwards recovers: it is accepted. -/
def Obligations.ReservedOpCommitsIllegalOpAtOnce : Prop :=
  ∀ (s : State) (w : Word), s.status.busy = false → (w.extractLsb' 0 4 = 0x0#4 ∨ 0x7#4 ≤ w.extractLsb' 0 4) →
    s.busWrite 32 0x004 w =
      { s with
        cmdOp := w.extractLsb' 0 4
        status := { busy := false, done := true, werr := s.status.werr, verifyOk := false, result := .illegalOp }
        eng := none
        resp := .writeOk } ∧
    ∀ (i : Instr) (w' : Word), w'.extractLsb' 0 4 = i.opcode →
      ((s.busWrite 32 0x004 w).busWrite 32 0x004 w').status.busy = true

/-- A write to CMD, CFG, IN_LEN, ISET_COUNT, PROBE_ID, the interest table or IN while BUSY is ignored and sets WERR
(R24, R231, R260): nothing else changes. -/
def Obligations.InputWritesWhileBusyAreIgnoredAndSetWerr : Prop :=
  ∀ (s : State) (v : Word), s.status.busy = true → s.params.wellFormed = true →
    let ignored := { s with
        status := { busy := true, done := s.status.done, werr := true, verifyOk := s.status.verifyOk, result := s.status.result }
        resp := .writeOk }
    (∀ off, off ∈ [0x004, 0x00C, 0x010, 0x014, 0x018] → s.busWrite 32 off v = ignored) ∧
    (∀ k, k < s.params.interestMax → s.busWrite 32 (0x01000 + 4 * k) v = ignored) ∧
    (∀ k, k < s.params.inSize → s.busWrite 8 (0x10000 + k) v = ignored) ∧
    (∀ k, 4 * k + 4 ≤ s.params.inSize → s.busWrite 32 (0x10000 + 4 * k) v = ignored)

/-- While BUSY no host access changes what the running operation commits (R81, R231): run after any access, it commits
the same registers and memory, but for WERR, the bus answer and the draws of the model. -/
def Obligations.HostAccessWhileBusyNeverChangesTheResult : Prop :=
  ∀ (i : Instr) (s t : State) (a : Access), s.status.busy = true → s.params.wellFormed = true → exec i s = next t →
    ∃ t', exec i (s.busAccess a) = next t' ∧
      t' = { t with
             status := { t.status with werr := t'.status.werr }
             resp := t'.resp, nextDraw := t'.nextDraw, tblDraw := t'.tblDraw }

/-- While BUSY, no host access changes a register but STATUS.DONE and STATUS.WERR, nor the memories (R226 (2), R82): every other register
reads its pre-commit value. -/
def Obligations.RegistersKeepTheirPreCommitValues : Prop :=
  ∀ (s : State) (a : Access), s.status.busy = true → s.params.wellFormed = true →
    s.busAccess a =
      { s with
        status := { s.status with done := (s.busAccess a).status.done, werr := (s.busAccess a).status.werr }
        resp := (s.busAccess a).resp, nextDraw := (s.busAccess a).nextDraw }

/-- The interrupt (R232): irq = DONE and IE; it is IE right after any commit, IllegalOp's too (R221; that this commit stands in
the step of the CMD write is the model's reading, log 15), and low after acceptance, after
DONE is cleared, after IE is cleared and after reset. -/
def Obligations.InterruptFollowsDoneAndEnable : Prop :=
  (∀ s : State, s.irq = true ↔ s.status.done = true ∧ s.cfg.ie = true) ∧
  (∀ (i : Instr) (s t : State), exec i s = next t → t.irq = s.cfg.ie) ∧
  (∀ (s : State) (w : Word), s.status.busy = false →
    ((∃ i : Instr, w.extractLsb' 0 4 = i.opcode) → (s.busWrite 32 0x004 w).irq = false) ∧
    ((w.extractLsb' 0 4 = 0x0#4 ∨ 0x7#4 ≤ w.extractLsb' 0 4) → (s.busWrite 32 0x004 w).irq = s.cfg.ie)) ∧
  (∀ (s : State) (v : Word), v.getLsbD 1 = true → (s.busWrite 32 0x008 v).irq = false) ∧
  (∀ (s : State) (v : Word), s.status.busy = false → v.getLsbD 1 = false → (s.busWrite 32 0x00C v).irq = false) ∧
  (∀ s : State, s.assertRst.irq = false)

/-- BUSY rises only at a CMD write with a legal OP and falls only at an engine's move or at reset (R36, R226, R251). That a
reserved OP, which R221 has accepted and committed at once, never shows BUSY is the model's reading (log 15); that an operation
runs and commits in one move of the engine, an event of its own, is the model's (log 7). -/
def Obligations.OnlyAcceptanceSetsBusyOnlyCommitOrResetClearsIt : Prop :=
  ∀ s t : State, step s = next t →
    (s.status.busy = false → t.status.busy = true →
      ∃ (v : Word) (i : Instr),
        s.nextEvent = .access (.write 32 (s.params.blockBase + 0x004) v) ∧ decode v = .ok i ∧
        t.cmdOp = i.opcode ∧ t.status.done = false) ∧
    (s.status.busy = true → t.status.busy = false →
      (s.nextEvent = .engine ∧ t.status.done = true) ∨ s.nextEvent = .rstAssert)

/-- Who writes the result registers (R32 to R35, R263): FR_ only a C8E_DECODE, RSP_ only a C12_DECODE, PROBE_RESULT only a
FILTER_PROBE, OUT_LEN only the Codec 12 operations; reset beside them. -/
def Obligations.ResultRegistersHaveOneWriter : Prop :=
  ∀ s t : State, step s = next t → s.nextEvent ≠ .rstAssert →
    (t.fr ≠ s.fr → s.nextEvent = .engine ∧ s.eng.map Engine.op = some 0x3#4) ∧
    (t.rsp ≠ s.rsp → s.nextEvent = .engine ∧ s.eng.map Engine.op = some 0x5#4) ∧
    (t.probe ≠ s.probe → s.nextEvent = .engine ∧ s.eng.map Engine.op = some 0x6#4) ∧
    (t.outLen ≠ s.outLen → s.nextEvent = .engine ∧ (s.eng.map Engine.op = some 0x4#4 ∨ s.eng.map Engine.op = some 0x5#4))

/-- An accepted operation reaches its commit (R228, R270): from a state in which an operation runs, with any accesses of
the host still to come and a resolver that answers, the block is idle with DONE set after at most one step more than those accesses.
That the engine moves when no event is left stands for the weak fairness of R270 (log 7). -/
def Obligations.AcceptedOperationReachesItsCommit : Prop :=
  ∀ s : State, s.status.busy = true → s.eng.isSome = true → s.rst = false → s.resolver.answering = true →
    (∀ e ∈ s.env, ∃ a, e = .access a ∧ s.params.blockBase ≤ a.addr ∧ a.addr < s.params.blockBase + 0x100000) →
    ∃ t, core.run (s.env.length + 1) s = next t ∧ t.status.busy = false ∧ t.status.done = true

/-- After any commit the block accepts the next operation at once, with nothing cleared first (R230). -/
def Obligations.AfterAnyCommitTheNextOperationIsAccepted : Prop :=
  ∀ (i j : Instr) (s t : State) (w : Word), exec i s = next t → w.extractLsb' 0 4 = j.opcode →
    (t.busWrite 32 0x004 w).status.busy = true ∧ (t.busWrite 32 0x004 w).eng = some (Engine.accepted j.opcode t.inLen.toNat) ∧
    (t.busWrite 32 0x004 w).status.done = false

/-! ## The host bus -/

/-- The register map (R21, R72; 10_state.md R22 to R38): a 32-bit read at each listed offset gives that register, its reserved
bits 0, and changes nothing but the bus answer. -/
def Obligations.RegisterReadsGiveTheMap : Prop :=
  ∀ (s : State) (off value : Nat),
    s.params.wellFormed = true →
    (off, value) ∈
      [(0x000, 0xA0018E0C), (0x004, s.cmdOp.toNat),
       (0x008, s.status.busy.toNat + 2 * s.status.done.toNat + 4 * s.status.werr.toNat + 8 * s.status.verifyOk.toNat +
         16 * s.status.result.code.toNat),
       (0x00C, s.cfg.discard.toNat + 2 * s.cfg.ie.toNat), (0x010, s.inLen.toNat), (0x014, s.isetCount.toNat),
       (0x018, s.probeId.toNat), (0x020, s.crcValue.toNat), (0x024, s.crcDecl.toNat), (0x028, s.errPos.toNat),
       (0x02C, s.probe.isMatch.toNat + 2 * s.probe.retain.toNat), (0x030, s.fr.payloadLen.toNat), (0x034, s.fr.nrec.toNat),
       (0x038, s.fr.nevt.toNat), (0x03C, s.fr.hipri.pattern.toNat), (0x040, s.rsp.dataSize.toNat),
       (0x044, s.rsp.qty.toNat), (0x048, s.rsp.type.toNat), (0x04C, s.rsp.len.toNat), (0x050, s.outLen.toNat),
       (0x060, s.params.inSize), (0x064, s.params.outSize), (0x068, s.params.evtMax), (0x06C, s.params.interestMax)] →
    s.busRead 32 off = { s with resp := .readOk (BitVec.ofNat 32 value) } ∧ value < 2 ^ 32

/-- The result codes have the numbers of R220's table. -/
def Obligations.ResultCodesHaveTheirNumbers : Prop :=
  ResultCode.noError.code = 0#4 ∧ ResultCode.codecIncompatible.code = 1#4 ∧ ResultCode.crcFailed.code = 2#4 ∧
  ResultCode.malformedFrame.code = 3#4 ∧ ResultCode.capacityExceeded.code = 4#4 ∧ ResultCode.illegalOp.code = 5#4

/-- Writes to the input registers while idle, and what they then read (R25 to R28): CFG keeps bits 1:0, IN_LEN all 32
bits, ISET_COUNT min(v, INTEREST_MAX), PROBE_ID bits 15:0; nothing else changes. -/
def Obligations.InputRegisterWritesWhileIdle : Prop :=
  ∀ (s : State) (v : Word), s.status.busy = false → s.params.wellFormed = true →
    s.busWrite 32 0x00C v = { s with cfg := { discard := v.getLsbD 0, ie := v.getLsbD 1 }, resp := .writeOk } ∧
    (s.busWrite 32 0x00C v).readReg .cfg = v &&& 3#32 ∧
    s.busWrite 32 0x010 v = { s with inLen := v, resp := .writeOk } ∧
    s.busWrite 32 0x014 v = { s with isetCount := (s.busWrite 32 0x014 v).isetCount, resp := .writeOk } ∧
    ((s.busWrite 32 0x014 v).readReg .isetCount).toNat = min v.toNat s.params.interestMax ∧
    s.busWrite 32 0x018 v = { s with probeId := v.extractLsb' 0 16, resp := .writeOk } ∧
    (s.busWrite 32 0x018 v).readReg .probeId = v &&& 0xFFFF#32

/-- A write to STATUS, whatever BUSY is (R24): bits 1 and 2 clear DONE and WERR where 1, and every other bit is ignored. -/
def Obligations.StatusWriteClearsOnlyDoneAndWerr : Prop :=
  ∀ (s : State) (v : Word),
    s.busWrite 32 0x008 v =
      { s with
        status :=
          { busy := s.status.busy, verifyOk := s.status.verifyOk, result := s.status.result
            done := if v.getLsbD 1 then false else s.status.done
            werr := if v.getLsbD 2 then false else s.status.werr }
        resp := .writeOk }

/-- A write to an RO register is ignored, whatever BUSY is, and raises no error (R21, R73). -/
def Obligations.ReadOnlyRegisterWritesAreIgnored : Prop :=
  ∀ (s : State) (v : Word) (off : Nat),
    off ∈ [0x000, 0x020, 0x024, 0x028, 0x02C, 0x030, 0x034, 0x038, 0x03C, 0x040, 0x044, 0x048, 0x04C, 0x050, 0x060, 0x064,
      0x068, 0x06C] →
    s.busWrite 32 off v = { s with resp := .writeOk }

/-- The bus errors (R76 (a) to (f)): the access changes no state of the block, not even WERR; the host gets an error, and
a read returns 0 with it. Every access that none of the conditions names is answered without an error. A 32-bit access that
begins inside a window and ends past its size counts as past it (the model's reading, log 11). -/
def Obligations.BusErrorsAreExactlyTheListedAccesses : Prop :=
  ∀ (s : State) (width off : Nat) (v : Word), s.params.wellFormed = true →
    let registers := [0x000, 0x004, 0x008, 0x00C, 0x010, 0x014, 0x018, 0x020, 0x024, 0x028, 0x02C, 0x030, 0x034, 0x038, 0x03C,
      0x040, 0x044, 0x048, 0x04C, 0x050, 0x060, 0x064, 0x068, 0x06C]
    let bytes := width / 8
    let inside := fun base size => base ≤ off ∧ off + bytes ≤ base + size
    let iset := inside 0x01000 (4 * s.params.interestMax)
    let inBuf := inside 0x10000 s.params.inSize
    let outBuf := inside 0x20000 s.params.outSize
    let recTable := inside 0x30000 (32 * 255)
    let evtTable := inside 0x40000 (32 * s.params.evtMax)
    let readable := (width = 32 ∧ off % 4 = 0 ∧ (off ∈ registers ∨ iset ∨ inBuf ∨ outBuf ∨ recTable ∨ evtTable)) ∨
      (width = 8 ∧ (inBuf ∨ outBuf))
    let writable := (width = 32 ∧ off % 4 = 0 ∧ (off ∈ registers ∨ iset ∨ inBuf)) ∨ (width = 8 ∧ inBuf)
    (¬ readable → s.busRead width off = { s with resp := .readError 0#32 }) ∧
    (readable → ∃ x, (s.busRead width off).resp = .readOk x) ∧
    (¬ writable → s.busWrite width off v = { s with resp := .writeError }) ∧
    (writable → (s.busWrite width off v).resp = .writeOk)

/-- IN through the bus while idle (R71, R75, R89): a 32-bit write puts bits [7:0] at the lowest offset, a 32-bit read gives
it back, 8-bit reads give its lanes, an 8-bit write changes one byte; every other byte and register is as before. -/
def Obligations.InAccessesUseLittleEndianLanes : Prop :=
  ∀ (s : State) (v : Word) (off : Nat), s.status.busy = false → s.params.wellFormed = true → 0x10000 ≤ off →
    (off % 4 = 0 → off + 4 ≤ 0x10000 + s.params.inSize →
      let t := s.busWrite 32 off v
      t = { s with mem := t.mem, resp := .writeOk } ∧
      (t.busRead 32 off).resp = .readOk v ∧
      (∀ k, k < 4 → t.readByte (off + k) = v.extractLsb' (8 * k) 8 ∧
        (t.busRead 8 (off + k)).resp = .readOk ((v.extractLsb' (8 * k) 8).setWidth 32)) ∧
      (∀ a, (a < off ∨ off + 4 ≤ a) → t.readByte a = s.readByte a)) ∧
    (off < 0x10000 + s.params.inSize →
      let t := s.busWrite 8 off v
      t = { s with mem := t.mem, resp := .writeOk } ∧
      (t.busRead 8 off).resp = .readOk ((v.extractLsb' 0 8).setWidth 32) ∧
      (∀ a, a ≠ off → t.readByte a = s.readByte a))

/-- The interest table through the bus while idle (R41, R75): word k keeps all 32 bits, and nothing else changes. -/
def Obligations.InterestWordsKeepAllTheirBits : Prop :=
  ∀ (s : State) (v : Word) (k : Nat), s.status.busy = false → s.params.wellFormed = true → k < s.params.interestMax →
    let t := s.busWrite 32 (0x01000 + 4 * k) v
    t = { s with mem := t.mem, resp := .writeOk } ∧ t.isetEntry k = v ∧
    (t.busRead 32 (0x01000 + 4 * k)).resp = .readOk v ∧
    (∀ a, (a < 0x01000 + 4 * k ∨ 0x01000 + 4 * k + 4 ≤ a) → t.readByte a = s.readByte a)

/-- A read of a memory window that is not unspecified gives the bytes and changes nothing (R74, R79): IN and the interest
table at any time, OUT and the tables while idle; 32 bits on their lanes from any window, 8 bits zero-extended from IN or OUT.
While BUSY, OUT and the tables give a fresh free value (R74; the draw is
the model's, log 4). -/
def Obligations.MemoryReadsGiveTheBytesOrAFreeValue : Prop :=
  ∀ (s : State) (width off base size : Nat) (v free : Word), s.params.wellFormed = true → base ≤ off →
    (width = 32 ∧ off % 4 = 0 ∧ off + 4 ≤ base + size ∧
      v = s.readByte (off + 3) ++ s.readByte (off + 2) ++ s.readByte (off + 1) ++ s.readByte off ∧
      free = Config.freeByte s.nextDraw (off + 3) ++ Config.freeByte s.nextDraw (off + 2) ++
        Config.freeByte s.nextDraw (off + 1) ++ Config.freeByte s.nextDraw off) ∨
    (width = 8 ∧ (base = 0x10000 ∨ base = 0x20000) ∧ off < base + size ∧
      v.toNat = (s.readByte off).toNat ∧ free.toNat = (Config.freeByte s.nextDraw off).toNat) →
    ((base, size) ∈ [(0x01000, 4 * s.params.interestMax), (0x10000, s.params.inSize)] →
      s.busRead width off = { s with resp := .readOk v }) ∧
    ((base, size) ∈ [(0x20000, s.params.outSize), (0x30000, 32 * 255), (0x40000, 32 * s.params.evtMax)] →
      (s.status.busy = false → s.busRead width off = { s with resp := .readOk v }) ∧
      (s.status.busy = true → s.busRead width off = { s with resp := .readOk free, nextDraw := s.nextDraw + 1 }))

/-! ## Reset and the ports -/

/-- After reset every register holds its reset value (R55), read through the register map, for every instance; the
engine is idle, irq is low, and every byte of memory is a free value. -/
def Obligations.ResetLeavesTheStatedRegisterValues : Prop :=
  ∀ p : Params,
    (∀ r : RegName, (State.resetWith p).readReg r =
      match r with
      | .id => 0xA0018E0C#32
      | .cfg => 0x00000001#32
      | .frHipri => 0x000000FF#32
      | .capInSize => BitVec.ofNat 32 p.inSize
      | .capOutSize => BitVec.ofNat 32 p.outSize
      | .capEvtMax => BitVec.ofNat 32 p.evtMax
      | .capInterestMax => BitVec.ofNat 32 p.interestMax
      | _ => 0x00000000#32) ∧
    (State.resetWith p).status.busy = false ∧ (State.resetWith p).irq = false ∧ (State.resetWith p).eng = none ∧
    (∀ a, ∃ draw, (State.resetWith p).readByte a = Config.freeByte draw a)

/-- Asserting rst (R250, R251): the registers take their reset values, a running operation is abandoned without a commit
(BUSY = 0, DONE = 0), irq goes low, and the parameters stay. Every byte of memory becomes a fresh free value: which draw names it is the
model's (log 2, log 19). -/
def Obligations.AssertingRstAbandonsAndResets : Prop :=
  ∀ (s : State) (rest : List Event), s.env = .rstAssert :: rest →
    ∃ t, step s = next t ∧
      (∀ r : RegName, t.readReg r = (State.resetWith s.params).readReg r) ∧
      t.params = s.params ∧ t.status.busy = false ∧ t.status.done = false ∧ t.irq = false ∧ t.eng = none ∧
      t.rst = true ∧ t.env = rest ∧ (∀ a, t.readByte a = Config.freeByte s.nextDraw a)

/-- The resolver's table may be replaced at any time but while a C8E_DECODE runs, and then only by one with the same
answers: a change is refused (R262; 93_implementation_defined.md U8, log 13). -/
def Obligations.ResolverChangeDuringDecodeIsRefused : Prop :=
  ∀ (s : State) (r : Resolver) (rest : List Event), s.env = .setResolver r :: rest →
    (s.eng.map Engine.op = some 0x3#4 → (∃ id : Half, r.lookup id ≠ s.resolver.lookup id) →
      step s = refused .resolverChanged) ∧
    ((s.eng.map Engine.op ≠ some 0x3#4 ∨ ∀ id : Half, r.lookup id = s.resolver.lookup id) →
      step s = next { s with resolver := r, env := rest })

/-! ## Invariants -/

/-- The invariant holds at reset. -/
def Obligations.ResetMeetsTheInvariant : Prop := Inv State.reset

/-- Every step keeps the invariant: memory in canonical form and inside its windows, the parameters legal, the counts
within the parameters, BUSY and DONE never together, the engine's latched OP and L equal to CMD and IN_LEN while BUSY. -/
def Obligations.EveryStepKeepsTheInvariant : Prop :=
  ∀ s t : State, Inv s → step s = next t → Inv t

/-- No step changes the instance's parameters, so that ID and the CAP registers read the same for ever (R22, R38). -/
def Obligations.ParametersAndIdNeverChange : Prop :=
  ∀ s t : State, step s = next t →
    t.params = s.params ∧
    ∀ r, r ∈ [RegName.id, .capInSize, .capOutSize, .capEvtMax, .capInterestMax] → t.readReg r = s.readReg r

/-- As long as the host and the platform keep their duties (R272), a step never stops. -/
def Obligations.KeptDutiesNeverStopTheMachine : Prop :=
  ∀ s : State, Inv s → s.dutyKept s.nextEvent = true → s.goesOn
end

