-- ==== Sys2Proof/Laws/State.lean ====
section
/-! SUPPORT. One lemma per field per update of State, true by rfl: no later proof unfolds a record update. -/

namespace Sys2Proof.Machine


/-! ### accept -/

@[simp] theorem State.accept_params (s : State) (w : Word) : (s.accept w).params = s.params := rfl
@[simp] theorem State.accept_cmdOp (s : State) (w : Word) : (s.accept w).cmdOp = opField w := rfl
@[simp] theorem State.accept_status (s : State) (w : Word) : (s.accept w).status = s.status.accepted := rfl
@[simp] theorem State.accept_cfg (s : State) (w : Word) : (s.accept w).cfg = s.cfg := rfl
@[simp] theorem State.accept_inLen (s : State) (w : Word) : (s.accept w).inLen = s.inLen := rfl
@[simp] theorem State.accept_isetCount (s : State) (w : Word) : (s.accept w).isetCount = s.isetCount := rfl
@[simp] theorem State.accept_probeId (s : State) (w : Word) : (s.accept w).probeId = s.probeId := rfl
@[simp] theorem State.accept_crcValue (s : State) (w : Word) : (s.accept w).crcValue = s.crcValue := rfl
@[simp] theorem State.accept_crcDecl (s : State) (w : Word) : (s.accept w).crcDecl = s.crcDecl := rfl
@[simp] theorem State.accept_errPos (s : State) (w : Word) : (s.accept w).errPos = s.errPos := rfl
@[simp] theorem State.accept_probe (s : State) (w : Word) : (s.accept w).probe = s.probe := rfl
@[simp] theorem State.accept_fr (s : State) (w : Word) : (s.accept w).fr = s.fr := rfl
@[simp] theorem State.accept_rsp (s : State) (w : Word) : (s.accept w).rsp = s.rsp := rfl
@[simp] theorem State.accept_outLen (s : State) (w : Word) : (s.accept w).outLen = s.outLen := rfl
@[simp] theorem State.accept_mem (s : State) (w : Word) : (s.accept w).mem = s.mem := rfl
@[simp] theorem State.accept_eng (s : State) (w : Word) : (s.accept w).eng = some (Engine.accepted (opField w) s.inLen.toNat) := rfl
@[simp] theorem State.accept_rst (s : State) (w : Word) : (s.accept w).rst = s.rst := rfl
@[simp] theorem State.accept_resolver (s : State) (w : Word) : (s.accept w).resolver = s.resolver := rfl
@[simp] theorem State.accept_resp (s : State) (w : Word) : (s.accept w).resp = s.resp := rfl
@[simp] theorem State.accept_env (s : State) (w : Word) : (s.accept w).env = s.env := rfl
@[simp] theorem State.accept_nextDraw (s : State) (w : Word) : (s.accept w).nextDraw = s.nextDraw := rfl
@[simp] theorem State.accept_ramDraw (s : State) (w : Word) : (s.accept w).ramDraw = s.ramDraw := rfl
@[simp] theorem State.accept_tblDraw (s : State) (w : Word) : (s.accept w).tblDraw = s.tblDraw := rfl

/-! ### commit -/

@[simp] theorem State.commit_params (s : State) (r : ResultCode) (ok : Bool) : (s.commit r ok).params = s.params := rfl
@[simp] theorem State.commit_cmdOp (s : State) (r : ResultCode) (ok : Bool) : (s.commit r ok).cmdOp = s.cmdOp := rfl
@[simp] theorem State.commit_status (s : State) (r : ResultCode) (ok : Bool) : (s.commit r ok).status = s.status.committed r ok := rfl
@[simp] theorem State.commit_cfg (s : State) (r : ResultCode) (ok : Bool) : (s.commit r ok).cfg = s.cfg := rfl
@[simp] theorem State.commit_inLen (s : State) (r : ResultCode) (ok : Bool) : (s.commit r ok).inLen = s.inLen := rfl
@[simp] theorem State.commit_isetCount (s : State) (r : ResultCode) (ok : Bool) : (s.commit r ok).isetCount = s.isetCount := rfl
@[simp] theorem State.commit_probeId (s : State) (r : ResultCode) (ok : Bool) : (s.commit r ok).probeId = s.probeId := rfl
@[simp] theorem State.commit_crcValue (s : State) (r : ResultCode) (ok : Bool) : (s.commit r ok).crcValue = s.crcValue := rfl
@[simp] theorem State.commit_crcDecl (s : State) (r : ResultCode) (ok : Bool) : (s.commit r ok).crcDecl = s.crcDecl := rfl
@[simp] theorem State.commit_errPos (s : State) (r : ResultCode) (ok : Bool) : (s.commit r ok).errPos = s.errPos := rfl
@[simp] theorem State.commit_probe (s : State) (r : ResultCode) (ok : Bool) : (s.commit r ok).probe = s.probe := rfl
@[simp] theorem State.commit_fr (s : State) (r : ResultCode) (ok : Bool) : (s.commit r ok).fr = s.fr := rfl
@[simp] theorem State.commit_rsp (s : State) (r : ResultCode) (ok : Bool) : (s.commit r ok).rsp = s.rsp := rfl
@[simp] theorem State.commit_outLen (s : State) (r : ResultCode) (ok : Bool) : (s.commit r ok).outLen = s.outLen := rfl
@[simp] theorem State.commit_mem (s : State) (r : ResultCode) (ok : Bool) : (s.commit r ok).mem = s.mem := rfl
@[simp] theorem State.commit_eng (s : State) (r : ResultCode) (ok : Bool) : (s.commit r ok).eng = none := rfl
@[simp] theorem State.commit_rst (s : State) (r : ResultCode) (ok : Bool) : (s.commit r ok).rst = s.rst := rfl
@[simp] theorem State.commit_resolver (s : State) (r : ResultCode) (ok : Bool) : (s.commit r ok).resolver = s.resolver := rfl
@[simp] theorem State.commit_resp (s : State) (r : ResultCode) (ok : Bool) : (s.commit r ok).resp = s.resp := rfl
@[simp] theorem State.commit_env (s : State) (r : ResultCode) (ok : Bool) : (s.commit r ok).env = s.env := rfl
@[simp] theorem State.commit_nextDraw (s : State) (r : ResultCode) (ok : Bool) : (s.commit r ok).nextDraw = s.nextDraw := rfl
@[simp] theorem State.commit_ramDraw (s : State) (r : ResultCode) (ok : Bool) : (s.commit r ok).ramDraw = s.ramDraw := rfl
@[simp] theorem State.commit_tblDraw (s : State) (r : ResultCode) (ok : Bool) : (s.commit r ok).tblDraw = s.tblDraw := rfl

/-! ### setCheck -/

@[simp] theorem State.setCheck_params (s : State) (c : Half) (d : Word) (p : Nat) : (s.setCheck c d p).params = s.params := rfl
@[simp] theorem State.setCheck_cmdOp (s : State) (c : Half) (d : Word) (p : Nat) : (s.setCheck c d p).cmdOp = s.cmdOp := rfl
@[simp] theorem State.setCheck_status (s : State) (c : Half) (d : Word) (p : Nat) : (s.setCheck c d p).status = s.status := rfl
@[simp] theorem State.setCheck_cfg (s : State) (c : Half) (d : Word) (p : Nat) : (s.setCheck c d p).cfg = s.cfg := rfl
@[simp] theorem State.setCheck_inLen (s : State) (c : Half) (d : Word) (p : Nat) : (s.setCheck c d p).inLen = s.inLen := rfl
@[simp] theorem State.setCheck_isetCount (s : State) (c : Half) (d : Word) (p : Nat) : (s.setCheck c d p).isetCount = s.isetCount := rfl
@[simp] theorem State.setCheck_probeId (s : State) (c : Half) (d : Word) (p : Nat) : (s.setCheck c d p).probeId = s.probeId := rfl
@[simp] theorem State.setCheck_crcValue (s : State) (c : Half) (d : Word) (p : Nat) : (s.setCheck c d p).crcValue = c := rfl
@[simp] theorem State.setCheck_crcDecl (s : State) (c : Half) (d : Word) (p : Nat) : (s.setCheck c d p).crcDecl = d := rfl
@[simp] theorem State.setCheck_errPos (s : State) (c : Half) (d : Word) (p : Nat) : (s.setCheck c d p).errPos = BitVec.ofNat 32 p := rfl
@[simp] theorem State.setCheck_probe (s : State) (c : Half) (d : Word) (p : Nat) : (s.setCheck c d p).probe = s.probe := rfl
@[simp] theorem State.setCheck_fr (s : State) (c : Half) (d : Word) (p : Nat) : (s.setCheck c d p).fr = s.fr := rfl
@[simp] theorem State.setCheck_rsp (s : State) (c : Half) (d : Word) (p : Nat) : (s.setCheck c d p).rsp = s.rsp := rfl
@[simp] theorem State.setCheck_outLen (s : State) (c : Half) (d : Word) (p : Nat) : (s.setCheck c d p).outLen = s.outLen := rfl
@[simp] theorem State.setCheck_mem (s : State) (c : Half) (d : Word) (p : Nat) : (s.setCheck c d p).mem = s.mem := rfl
@[simp] theorem State.setCheck_eng (s : State) (c : Half) (d : Word) (p : Nat) : (s.setCheck c d p).eng = s.eng := rfl
@[simp] theorem State.setCheck_rst (s : State) (c : Half) (d : Word) (p : Nat) : (s.setCheck c d p).rst = s.rst := rfl
@[simp] theorem State.setCheck_resolver (s : State) (c : Half) (d : Word) (p : Nat) : (s.setCheck c d p).resolver = s.resolver := rfl
@[simp] theorem State.setCheck_resp (s : State) (c : Half) (d : Word) (p : Nat) : (s.setCheck c d p).resp = s.resp := rfl
@[simp] theorem State.setCheck_env (s : State) (c : Half) (d : Word) (p : Nat) : (s.setCheck c d p).env = s.env := rfl
@[simp] theorem State.setCheck_nextDraw (s : State) (c : Half) (d : Word) (p : Nat) : (s.setCheck c d p).nextDraw = s.nextDraw := rfl
@[simp] theorem State.setCheck_ramDraw (s : State) (c : Half) (d : Word) (p : Nat) : (s.setCheck c d p).ramDraw = s.ramDraw := rfl
@[simp] theorem State.setCheck_tblDraw (s : State) (c : Half) (d : Word) (p : Nat) : (s.setCheck c d p).tblDraw = s.tblDraw := rfl

/-! ### writeBytes -/

@[simp] theorem State.writeBytes_params (s : State) (a : Nat) (bs : List Byte) : (s.writeBytes a bs).params = s.params := rfl
@[simp] theorem State.writeBytes_cmdOp (s : State) (a : Nat) (bs : List Byte) : (s.writeBytes a bs).cmdOp = s.cmdOp := rfl
@[simp] theorem State.writeBytes_status (s : State) (a : Nat) (bs : List Byte) : (s.writeBytes a bs).status = s.status := rfl
@[simp] theorem State.writeBytes_cfg (s : State) (a : Nat) (bs : List Byte) : (s.writeBytes a bs).cfg = s.cfg := rfl
@[simp] theorem State.writeBytes_inLen (s : State) (a : Nat) (bs : List Byte) : (s.writeBytes a bs).inLen = s.inLen := rfl
@[simp] theorem State.writeBytes_isetCount (s : State) (a : Nat) (bs : List Byte) : (s.writeBytes a bs).isetCount = s.isetCount := rfl
@[simp] theorem State.writeBytes_probeId (s : State) (a : Nat) (bs : List Byte) : (s.writeBytes a bs).probeId = s.probeId := rfl
@[simp] theorem State.writeBytes_crcValue (s : State) (a : Nat) (bs : List Byte) : (s.writeBytes a bs).crcValue = s.crcValue := rfl
@[simp] theorem State.writeBytes_crcDecl (s : State) (a : Nat) (bs : List Byte) : (s.writeBytes a bs).crcDecl = s.crcDecl := rfl
@[simp] theorem State.writeBytes_errPos (s : State) (a : Nat) (bs : List Byte) : (s.writeBytes a bs).errPos = s.errPos := rfl
@[simp] theorem State.writeBytes_probe (s : State) (a : Nat) (bs : List Byte) : (s.writeBytes a bs).probe = s.probe := rfl
@[simp] theorem State.writeBytes_fr (s : State) (a : Nat) (bs : List Byte) : (s.writeBytes a bs).fr = s.fr := rfl
@[simp] theorem State.writeBytes_rsp (s : State) (a : Nat) (bs : List Byte) : (s.writeBytes a bs).rsp = s.rsp := rfl
@[simp] theorem State.writeBytes_outLen (s : State) (a : Nat) (bs : List Byte) : (s.writeBytes a bs).outLen = s.outLen := rfl
@[simp] theorem State.writeBytes_mem (s : State) (a : Nat) (bs : List Byte) : (s.writeBytes a bs).mem = Memory.write s.mem a bs := rfl
@[simp] theorem State.writeBytes_eng (s : State) (a : Nat) (bs : List Byte) : (s.writeBytes a bs).eng = s.eng := rfl
@[simp] theorem State.writeBytes_rst (s : State) (a : Nat) (bs : List Byte) : (s.writeBytes a bs).rst = s.rst := rfl
@[simp] theorem State.writeBytes_resolver (s : State) (a : Nat) (bs : List Byte) : (s.writeBytes a bs).resolver = s.resolver := rfl
@[simp] theorem State.writeBytes_resp (s : State) (a : Nat) (bs : List Byte) : (s.writeBytes a bs).resp = s.resp := rfl
@[simp] theorem State.writeBytes_env (s : State) (a : Nat) (bs : List Byte) : (s.writeBytes a bs).env = s.env := rfl
@[simp] theorem State.writeBytes_nextDraw (s : State) (a : Nat) (bs : List Byte) : (s.writeBytes a bs).nextDraw = s.nextDraw := rfl
@[simp] theorem State.writeBytes_ramDraw (s : State) (a : Nat) (bs : List Byte) : (s.writeBytes a bs).ramDraw = s.ramDraw := rfl
@[simp] theorem State.writeBytes_tblDraw (s : State) (a : Nat) (bs : List Byte) : (s.writeBytes a bs).tblDraw = s.tblDraw := rfl

/-! ### setTables -/

@[simp] theorem State.setTables_params (s : State) (rs es : List Byte) : (s.setTables rs es).params = s.params := rfl
@[simp] theorem State.setTables_cmdOp (s : State) (rs es : List Byte) : (s.setTables rs es).cmdOp = s.cmdOp := rfl
@[simp] theorem State.setTables_status (s : State) (rs es : List Byte) : (s.setTables rs es).status = s.status := rfl
@[simp] theorem State.setTables_cfg (s : State) (rs es : List Byte) : (s.setTables rs es).cfg = s.cfg := rfl
@[simp] theorem State.setTables_inLen (s : State) (rs es : List Byte) : (s.setTables rs es).inLen = s.inLen := rfl
@[simp] theorem State.setTables_isetCount (s : State) (rs es : List Byte) : (s.setTables rs es).isetCount = s.isetCount := rfl
@[simp] theorem State.setTables_probeId (s : State) (rs es : List Byte) : (s.setTables rs es).probeId = s.probeId := rfl
@[simp] theorem State.setTables_crcValue (s : State) (rs es : List Byte) : (s.setTables rs es).crcValue = s.crcValue := rfl
@[simp] theorem State.setTables_crcDecl (s : State) (rs es : List Byte) : (s.setTables rs es).crcDecl = s.crcDecl := rfl
@[simp] theorem State.setTables_errPos (s : State) (rs es : List Byte) : (s.setTables rs es).errPos = s.errPos := rfl
@[simp] theorem State.setTables_probe (s : State) (rs es : List Byte) : (s.setTables rs es).probe = s.probe := rfl
@[simp] theorem State.setTables_fr (s : State) (rs es : List Byte) : (s.setTables rs es).fr = s.fr := rfl
@[simp] theorem State.setTables_rsp (s : State) (rs es : List Byte) : (s.setTables rs es).rsp = s.rsp := rfl
@[simp] theorem State.setTables_outLen (s : State) (rs es : List Byte) : (s.setTables rs es).outLen = s.outLen := rfl
@[simp] theorem State.setTables_mem (s : State) (rs es : List Byte) : (s.setTables rs es).mem = 
    Memory.below s.mem recBase ++ (bytesAt recBase rs ++ (bytesAt evtBase es ++ Memory.from s.mem memEnd)) := rfl
@[simp] theorem State.setTables_eng (s : State) (rs es : List Byte) : (s.setTables rs es).eng = s.eng := rfl
@[simp] theorem State.setTables_rst (s : State) (rs es : List Byte) : (s.setTables rs es).rst = s.rst := rfl
@[simp] theorem State.setTables_resolver (s : State) (rs es : List Byte) : (s.setTables rs es).resolver = s.resolver := rfl
@[simp] theorem State.setTables_resp (s : State) (rs es : List Byte) : (s.setTables rs es).resp = s.resp := rfl
@[simp] theorem State.setTables_env (s : State) (rs es : List Byte) : (s.setTables rs es).env = s.env := rfl
@[simp] theorem State.setTables_nextDraw (s : State) (rs es : List Byte) : (s.setTables rs es).nextDraw = s.nextDraw + 1 := rfl
@[simp] theorem State.setTables_ramDraw (s : State) (rs es : List Byte) : (s.setTables rs es).ramDraw = s.ramDraw := rfl
@[simp] theorem State.setTables_tblDraw (s : State) (rs es : List Byte) : (s.setTables rs es).tblDraw = s.nextDraw := rfl

/-! ### unspecifyTables -/

@[simp] theorem State.unspecifyTables_params (s : State) : (s.unspecifyTables).params = s.params := rfl
@[simp] theorem State.unspecifyTables_cmdOp (s : State) : (s.unspecifyTables).cmdOp = s.cmdOp := rfl
@[simp] theorem State.unspecifyTables_status (s : State) : (s.unspecifyTables).status = s.status := rfl
@[simp] theorem State.unspecifyTables_cfg (s : State) : (s.unspecifyTables).cfg = s.cfg := rfl
@[simp] theorem State.unspecifyTables_inLen (s : State) : (s.unspecifyTables).inLen = s.inLen := rfl
@[simp] theorem State.unspecifyTables_isetCount (s : State) : (s.unspecifyTables).isetCount = s.isetCount := rfl
@[simp] theorem State.unspecifyTables_probeId (s : State) : (s.unspecifyTables).probeId = s.probeId := rfl
@[simp] theorem State.unspecifyTables_crcValue (s : State) : (s.unspecifyTables).crcValue = s.crcValue := rfl
@[simp] theorem State.unspecifyTables_crcDecl (s : State) : (s.unspecifyTables).crcDecl = s.crcDecl := rfl
@[simp] theorem State.unspecifyTables_errPos (s : State) : (s.unspecifyTables).errPos = s.errPos := rfl
@[simp] theorem State.unspecifyTables_probe (s : State) : (s.unspecifyTables).probe = s.probe := rfl
@[simp] theorem State.unspecifyTables_fr (s : State) : (s.unspecifyTables).fr = s.fr := rfl
@[simp] theorem State.unspecifyTables_rsp (s : State) : (s.unspecifyTables).rsp = s.rsp := rfl
@[simp] theorem State.unspecifyTables_outLen (s : State) : (s.unspecifyTables).outLen = s.outLen := rfl
@[simp] theorem State.unspecifyTables_mem (s : State) : (s.unspecifyTables).mem = Memory.unlist s.mem recBase memEnd := rfl
@[simp] theorem State.unspecifyTables_eng (s : State) : (s.unspecifyTables).eng = s.eng := rfl
@[simp] theorem State.unspecifyTables_rst (s : State) : (s.unspecifyTables).rst = s.rst := rfl
@[simp] theorem State.unspecifyTables_resolver (s : State) : (s.unspecifyTables).resolver = s.resolver := rfl
@[simp] theorem State.unspecifyTables_resp (s : State) : (s.unspecifyTables).resp = s.resp := rfl
@[simp] theorem State.unspecifyTables_env (s : State) : (s.unspecifyTables).env = s.env := rfl
@[simp] theorem State.unspecifyTables_nextDraw (s : State) : (s.unspecifyTables).nextDraw = s.nextDraw + 1 := rfl
@[simp] theorem State.unspecifyTables_ramDraw (s : State) : (s.unspecifyTables).ramDraw = s.ramDraw := rfl
@[simp] theorem State.unspecifyTables_tblDraw (s : State) : (s.unspecifyTables).tblDraw = s.nextDraw := rfl

/-! ### zeroResults: the fields outside the operations' own result groups -/

@[simp] theorem State.zeroResults_params (s : State) (i : Instr) : (s.zeroResults i).params = s.params := by cases i <;> rfl
@[simp] theorem State.zeroResults_cmdOp (s : State) (i : Instr) : (s.zeroResults i).cmdOp = s.cmdOp := by cases i <;> rfl
@[simp] theorem State.zeroResults_status (s : State) (i : Instr) : (s.zeroResults i).status = s.status := by cases i <;> rfl
@[simp] theorem State.zeroResults_cfg (s : State) (i : Instr) : (s.zeroResults i).cfg = s.cfg := by cases i <;> rfl
@[simp] theorem State.zeroResults_inLen (s : State) (i : Instr) : (s.zeroResults i).inLen = s.inLen := by cases i <;> rfl
@[simp] theorem State.zeroResults_isetCount (s : State) (i : Instr) : (s.zeroResults i).isetCount = s.isetCount := by cases i <;> rfl
@[simp] theorem State.zeroResults_probeId (s : State) (i : Instr) : (s.zeroResults i).probeId = s.probeId := by cases i <;> rfl
@[simp] theorem State.zeroResults_crcValue (s : State) (i : Instr) : (s.zeroResults i).crcValue = s.crcValue := by cases i <;> rfl
@[simp] theorem State.zeroResults_crcDecl (s : State) (i : Instr) : (s.zeroResults i).crcDecl = s.crcDecl := by cases i <;> rfl
@[simp] theorem State.zeroResults_errPos (s : State) (i : Instr) : (s.zeroResults i).errPos = s.errPos := by cases i <;> rfl
@[simp] theorem State.zeroResults_probe (s : State) (i : Instr) : (s.zeroResults i).probe = s.probe := by cases i <;> rfl
@[simp] theorem State.zeroResults_eng (s : State) (i : Instr) : (s.zeroResults i).eng = s.eng := by cases i <;> rfl
@[simp] theorem State.zeroResults_rst (s : State) (i : Instr) : (s.zeroResults i).rst = s.rst := by cases i <;> rfl
@[simp] theorem State.zeroResults_resolver (s : State) (i : Instr) : (s.zeroResults i).resolver = s.resolver := by cases i <;> rfl
@[simp] theorem State.zeroResults_resp (s : State) (i : Instr) : (s.zeroResults i).resp = s.resp := by cases i <;> rfl
@[simp] theorem State.zeroResults_env (s : State) (i : Instr) : (s.zeroResults i).env = s.env := by cases i <;> rfl
@[simp] theorem State.zeroResults_ramDraw (s : State) (i : Instr) : (s.zeroResults i).ramDraw = s.ramDraw := by cases i <;> rfl

/-! ### guardWrite: the fields no guarded write can change but through its second state -/

@[simp] theorem State.guardWrite_busy (s s' : State) (h : s.status.busy = true) :
    s.guardWrite s' = { s with status := s.status.setWerr } := by simp [State.guardWrite, h]

@[simp] theorem State.guardWrite_idle (s s' : State) (h : s.status.busy = false) : s.guardWrite s' = s' := by
  simp [State.guardWrite, h]


/-! ### Status -/

@[simp] theorem Status.accepted_busy (st : Status) : (st.accepted).busy = true := rfl
@[simp] theorem Status.accepted_done (st : Status) : (st.accepted).done = false := rfl
@[simp] theorem Status.accepted_werr (st : Status) : (st.accepted).werr = st.werr := rfl
@[simp] theorem Status.accepted_verifyOk (st : Status) : (st.accepted).verifyOk = st.verifyOk := rfl
@[simp] theorem Status.accepted_result (st : Status) : (st.accepted).result = st.result := rfl
@[simp] theorem Status.committed_busy (st : Status) (r : ResultCode) (ok : Bool) : (st.committed r ok).busy = false := rfl
@[simp] theorem Status.committed_done (st : Status) (r : ResultCode) (ok : Bool) : (st.committed r ok).done = true := rfl
@[simp] theorem Status.committed_werr (st : Status) (r : ResultCode) (ok : Bool) : (st.committed r ok).werr = st.werr := rfl
@[simp] theorem Status.committed_verifyOk (st : Status) (r : ResultCode) (ok : Bool) : (st.committed r ok).verifyOk = ok := rfl
@[simp] theorem Status.committed_result (st : Status) (r : ResultCode) (ok : Bool) : (st.committed r ok).result = r := rfl
@[simp] theorem Status.setWerr_busy (st : Status) : (st.setWerr).busy = st.busy := rfl
@[simp] theorem Status.setWerr_done (st : Status) : (st.setWerr).done = st.done := rfl
@[simp] theorem Status.setWerr_werr (st : Status) : (st.setWerr).werr = true := rfl
@[simp] theorem Status.setWerr_verifyOk (st : Status) : (st.setWerr).verifyOk = st.verifyOk := rfl
@[simp] theorem Status.setWerr_result (st : Status) : (st.setWerr).result = st.result := rfl
@[simp] theorem Status.writeOneToClear_busy (st : Status) (v : Word) : (st.writeOneToClear v).busy = st.busy := rfl
@[simp] theorem Status.writeOneToClear_done (st : Status) (v : Word) : (st.writeOneToClear v).done = (st.done && !v.getLsbD 1) := rfl
@[simp] theorem Status.writeOneToClear_werr (st : Status) (v : Word) : (st.writeOneToClear v).werr = (st.werr && !v.getLsbD 2) := rfl
@[simp] theorem Status.writeOneToClear_verifyOk (st : Status) (v : Word) : (st.writeOneToClear v).verifyOk = st.verifyOk := rfl
@[simp] theorem Status.writeOneToClear_result (st : Status) (v : Word) : (st.writeOneToClear v).result = st.result := rfl

/-! ### Engine -/

@[simp] theorem Engine.accepted_op (op : BitVec 4) (n : Nat) : (Engine.accepted op n).op = op := rfl
@[simp] theorem Engine.accepted_len (op : BitVec 4) (n : Nat) : (Engine.accepted op n).len = n := rfl
@[simp] theorem Engine.accepted_cur (op : BitVec 4) (n : Nat) : (Engine.accepted op n).cur = 0 := rfl
@[simp] theorem Engine.accepted_r (op : BitVec 4) (n : Nat) : (Engine.accepted op n).r = 0 := rfl
@[simp] theorem Engine.accepted_hi (op : BitVec 4) (n : Nat) : (Engine.accepted op n).hi = .notDetermined := rfl
@[simp] theorem Engine.accepted_nev (op : BitVec 4) (n : Nat) : (Engine.accepted op n).nev = 0 := rfl
@[simp] theorem Engine.accepted_mat (op : BitVec 4) (n : Nat) : (Engine.accepted op n).mat = 0 := rfl
@[simp] theorem Engine.accepted_first (op : BitVec 4) (n : Nat) : (Engine.accepted op n).first = 0 := rfl
@[simp] theorem Engine.accepted_crc (op : BitVec 4) (n : Nat) : (Engine.accepted op n).crc = 0 := rfl
@[simp] theorem State.start_len (s : State) : s.start.len = s.inLen.toNat := rfl

end Sys2Proof.Machine
end

