-- ==== Sys2Proof/Laws/Memory.lean ====
section
/-! SUPPORT. Memory: what a read gives after each operation, and that each operation keeps the canonical form. -/

namespace Sys2Proof.Machine

/-! ### Laying out bytes -/

theorem get?_bytesAt (a : Nat) (bs : List Byte) (x : Nat) :
    Memory.get? (bytesAt a bs) x = if a ≤ x then bs[x - a]? else none := by
  induction bs generalizing a with
  | nil => simp [bytesAt, Memory.get?]
  | cons b bs ih =>
    simp only [bytesAt, Memory.get?]
    rw [ih]
    rcases Nat.lt_trichotomy a x with h | h | h
    · have h1 : ¬ a = x := by omega
      have h2 : x - a = (x - (a + 1)) + 1 := by omega
      rw [if_neg h1, if_pos (by omega), if_pos (by omega), h2, List.getElem?_cons_succ]
    · subst h; simp
    · rw [if_neg (by omega), if_neg (by omega), if_neg (by omega)]

theorem mem_bytesAt {a : Nat} {bs : List Byte} {c : Host.Cell} (h : c ∈ bytesAt a bs) :
    a ≤ c.1 ∧ c.1 < a + bs.length := by
  induction bs generalizing a with
  | nil => simp [bytesAt] at h
  | cons b bs ih =>
    simp only [bytesAt, List.mem_cons] at h
    rcases h with rfl | h
    · simp
    · have := ih h
      simp only [List.length_cons]
      omega

theorem wf_bytesAt (a : Nat) (bs : List Byte) : Memory.wf (bytesAt a bs) := by
  induction bs generalizing a with
  | nil => exact List.Pairwise.nil
  | cons b bs ih => exact List.Pairwise.cons (fun c hc => (mem_bytesAt hc).1) (ih (a + 1))

/-! ### Reading through an append, below and from -/

theorem get?_append (m m' : Memory) (x : Nat) :
    Memory.get? (m ++ m') x = (Memory.get? m x).or (Memory.get? m' x) := by
  induction m with
  | nil => simp [Memory.get?]
  | cons c m ih =>
    rcases c with ⟨k, b⟩
    by_cases h : k = x <;> simp [Memory.get?, h, ih]

theorem get?_filter (m : Memory) (q : Nat → Bool) (x : Nat) :
    Memory.get? (m.filter (fun c => q c.1)) x = if q x then Memory.get? m x else none := by
  induction m with
  | nil => simp [Memory.get?]
  | cons c m ih =>
    rcases c with ⟨k, b⟩
    by_cases hk : k = x
    · subst hk; by_cases hq : q k <;> simp [Memory.get?, hq, ih]
    · by_cases hq : q k
      · simp [Memory.get?, hq, hk, ih]
      · simp [Memory.get?, hq, hk, ih]

@[simp] theorem get?_below (m : Memory) (a x : Nat) :
    Memory.get? (Memory.below m a) x = if x < a then Memory.get? m x else none := by
  rw [Memory.below, get?_filter m (fun k => decide (k < a)) x]; simp

@[simp] theorem get?_from (m : Memory) (a x : Nat) :
    Memory.get? (Memory.from m a) x = if a ≤ x then Memory.get? m x else none := by
  rw [Memory.from, get?_filter m (fun k => decide (a ≤ k)) x]; simp

/-! ### Reading after a write -/

theorem get?_write (m : Memory) (a : Nat) (bs : List Byte) (x : Nat) :
    Memory.get? (Memory.write m a bs) x =
      if a ≤ x ∧ x < a + bs.length then bs[x - a]? else Memory.get? m x := by
  simp only [Memory.write, get?_append, get?_below, get?_from, get?_bytesAt]
  by_cases h1 : x < a
  · rw [if_pos h1, if_neg (by omega), if_neg (by omega), if_neg (by omega)]; simp
  · by_cases h2 : x < a + bs.length
    · rw [if_neg h1, if_pos (by omega), if_neg (by omega), if_pos ⟨by omega, h2⟩]; simp
    · have : bs[x - a]? = none := by rw [List.getElem?_eq_none_iff]; omega
      rw [if_neg h1, if_pos (by omega), if_pos (by omega), if_neg (by omega), this]; simp

theorem get?_unlist (m : Memory) (lo hi x : Nat) (h : lo ≤ hi) :
    Memory.get? (Memory.unlist m lo hi) x = if lo ≤ x ∧ x < hi then none else Memory.get? m x := by
  simp only [Memory.unlist, get?_append, get?_below, get?_from]
  by_cases h1 : x < lo
  · rw [if_pos h1, if_neg (by omega), if_neg (by omega)]; simp
  · by_cases h2 : x < hi
    · rw [if_neg h1, if_neg (by omega), if_pos ⟨by omega, h2⟩]; simp
    · rw [if_neg h1, if_pos (by omega), if_neg (by omega)]; simp

/-! ### The canonical form is kept -/

theorem mem_below {m : Memory} {a : Nat} {c : Host.Cell} : c ∈ Memory.below m a ↔ c ∈ m ∧ c.1 < a := by
  simp [Memory.below]

theorem mem_from {m : Memory} {a : Nat} {c : Host.Cell} : c ∈ Memory.from m a ↔ c ∈ m ∧ a ≤ c.1 := by
  simp [Memory.from]

theorem wf_below {m : Memory} (h : Memory.wf m) (a : Nat) : Memory.wf (Memory.below m a) := h.filter _

theorem wf_from {m : Memory} (h : Memory.wf m) (a : Nat) : Memory.wf (Memory.from m a) := h.filter _

theorem wf_append {m m' : Memory} (h : Memory.wf m) (h' : Memory.wf m')
    (hlt : ∀ c ∈ m, ∀ c' ∈ m', c.1 < c'.1) : Memory.wf (m ++ m') := List.pairwise_append.2 ⟨h, h', hlt⟩

theorem wf_write {m : Memory} (h : Memory.wf m) (a : Nat) (bs : List Byte) : Memory.wf (Memory.write m a bs) := by
  refine wf_append (wf_below h a) (wf_append (wf_bytesAt a bs) (wf_from h _) ?_) ?_
  · intro c hc c' hc'
    have h1 := mem_bytesAt hc
    have h2 := (mem_from.1 hc').2
    omega
  · intro c hc c' hc'
    have h1 := (mem_below.1 hc).2
    rcases List.mem_append.1 hc' with h2 | h2
    · have := (mem_bytesAt h2).1; omega
    · have := (mem_from.1 h2).2; omega

theorem wf_unlist {m : Memory} (h : Memory.wf m) {lo hi : Nat} (hle : lo ≤ hi) :
    Memory.wf (Memory.unlist m lo hi) := by
  refine wf_append (wf_below h lo) (wf_from h hi) ?_
  intro c hc c' hc'
  have h1 := (mem_below.1 hc).2
  have h2 := (mem_from.1 hc').2
  omega

theorem wf_setTables {s : State} (h : Memory.wf s.mem) {rs es : List Byte} (hr : rs.length ≤ evtBase - recBase)
    (he : es.length ≤ memEnd - evtBase) : Memory.wf (s.setTables rs es).mem := by
  simp only [State.setTables_mem]
  simp only [recBase, evtBase, memEnd] at *
  refine wf_append (wf_below h _) (wf_append (wf_bytesAt _ _) (wf_append (wf_bytesAt _ _) (wf_from h _) ?_) ?_) ?_
  · intro c hc c' hc'
    have h1 := mem_bytesAt hc
    have h2 := (mem_from.1 hc').2
    omega
  · intro c hc c' hc'
    have h1 := mem_bytesAt hc
    rcases List.mem_append.1 hc' with h2 | h2
    · have := (mem_bytesAt h2).1; omega
    · have := (mem_from.1 h2).2; omega
  · intro c hc c' hc'
    have h1 := (mem_below.1 hc).2
    rcases List.mem_append.1 hc' with h2 | h2
    · have := (mem_bytesAt h2).1; omega
    · rcases List.mem_append.1 h2 with h3 | h3
      · have := (mem_bytesAt h3).1; omega
      · have := (mem_from.1 h3).2; omega

theorem mem_write {m : Memory} {a : Nat} {bs : List Byte} {c : Host.Cell} (h : c ∈ Memory.write m a bs) :
    c ∈ m ∨ (a ≤ c.1 ∧ c.1 < a + bs.length) := by
  rcases List.mem_append.1 h with h | h
  · exact .inl (mem_below.1 h).1
  · rcases List.mem_append.1 h with h | h
    · exact .inr (mem_bytesAt h)
    · exact .inl (mem_from.1 h).1

theorem mem_unlist {m : Memory} {lo hi : Nat} {c : Host.Cell} (h : c ∈ Memory.unlist m lo hi) : c ∈ m := by
  rcases List.mem_append.1 h with h | h
  · exact (mem_below.1 h).1
  · exact (mem_from.1 h).1

theorem mem_setTables {s : State} {rs es : List Byte} {c : Host.Cell} (h : c ∈ (s.setTables rs es).mem) :
    c ∈ s.mem ∨ (recBase ≤ c.1 ∧ c.1 < recBase + rs.length) ∨ (evtBase ≤ c.1 ∧ c.1 < evtBase + es.length) := by
  rcases List.mem_append.1 h with h | h
  · exact .inl (mem_below.1 h).1
  · rcases List.mem_append.1 h with h | h
    · exact .inr (.inl (mem_bytesAt h))
    · rcases List.mem_append.1 h with h | h
      · exact .inr (.inr (mem_bytesAt h))
      · exact .inl (mem_from.1 h).1

/-! ### The byte a state reads -/

/-- A byte read depends on the memory and the draws alone. -/
theorem readByte_congr {s s' : State} (hm : s'.mem = s.mem) (hr : s'.ramDraw = s.ramDraw) (ht : s'.tblDraw = s.tblDraw)
    (x : Nat) : s'.readByte x = s.readByte x := by
  simp [State.readByte, State.unlistedByte, hm, hr, ht]

theorem readWord_congr {s s' : State} (h : ∀ x, s'.readByte x = s.readByte x) (x : Nat) : s'.readWord x = s.readWord x := by
  simp [State.readWord, h]

theorem readByte_writeBytes (s : State) (a : Nat) (bs : List Byte) (x : Nat) :
    (s.writeBytes a bs).readByte x = if h : a ≤ x ∧ x < a + bs.length then bs[x - a]'(by omega) else s.readByte x := by
  unfold State.readByte
  rw [State.writeBytes_mem, get?_write]
  by_cases h : a ≤ x ∧ x < a + bs.length
  · rw [if_pos h, dif_pos h, List.getElem?_eq_getElem (by omega : x - a < bs.length)]
  · rw [if_neg h, dif_neg h]
    rfl

theorem readByte_writeBytes_of_outside {s : State} {a : Nat} {bs : List Byte} {x : Nat}
    (h : x < a ∨ a + bs.length ≤ x) : (s.writeBytes a bs).readByte x = s.readByte x := by
  rw [readByte_writeBytes, dif_neg (by omega)]

/-- After the tables are written: their entries, elsewhere in the table offsets a fresh draw, everything else as before. -/
theorem readByte_setTables (s : State) (rs es : List Byte) (hr : rs.length ≤ evtBase - recBase)
    (hes : es.length ≤ memEnd - evtBase) (x : Nat) :
    (s.setTables rs es).readByte x =
      if isTableOffset x then
        ((if x < evtBase then rs[x - recBase]? else es[x - evtBase]?).getD (Config.freeByte s.nextDraw x))
      else s.readByte x := by
  have hb : recBase = 196608 := rfl
  have he : evtBase = 262144 := rfl
  have hm : memEnd = 524288 := rfl
  unfold State.readByte
  rw [State.setTables_mem, get?_append, get?_append, get?_append]
  simp only [get?_below, get?_from, get?_bytesAt, State.unlistedByte, State.setTables_tblDraw, State.setTables_ramDraw]
  have hrec : evtBase ≤ x → rs[x - recBase]? = none := fun h => by rw [List.getElem?_eq_none_iff]; omega
  by_cases ht : isTableOffset x = true
  · have ht' : recBase ≤ x ∧ x < memEnd := by simpa [isTableOffset] using ht
    rw [if_neg (by omega : ¬ x < recBase), if_pos ht'.1, if_neg (by omega : ¬ memEnd ≤ x)]
    simp only [ht, if_true, Option.none_or, Option.or_none]
    by_cases h2 : x < evtBase
    · rw [if_pos h2, if_neg (by omega : ¬ evtBase ≤ x)]
      cases h : rs[x - recBase]? <;> simp
    · rw [if_neg h2, if_pos (by omega : evtBase ≤ x), hrec (by omega)]
      cases h : es[x - evtBase]? <;> simp
  · have ht' : x < recBase ∨ memEnd ≤ x := by
      simp [isTableOffset] at ht; omega
    simp only [ht]
    rcases ht' with h1 | h1
    · rw [if_pos h1, if_neg (by omega : ¬ recBase ≤ x), if_neg (by omega : ¬ evtBase ≤ x), if_neg (by omega : ¬ memEnd ≤ x)]
      simp
    · have hrs : rs[x - recBase]? = none := by rw [List.getElem?_eq_none_iff]; omega
      have hev : es[x - evtBase]? = none := by rw [List.getElem?_eq_none_iff]; omega
      rw [if_neg (by omega : ¬ x < recBase), if_pos (by omega : recBase ≤ x), if_pos (by omega : evtBase ≤ x), if_pos h1,
        hrs, hev]
      simp

theorem isTableOffset_iff {a : Nat} : isTableOffset a = true ↔ 0x30000 ≤ a ∧ a < 0x80000 := by
  simp only [isTableOffset, Bool.and_eq_true, decide_eq_true_eq]; exact Iff.rfl

theorem isTableOffset_eq_false {a : Nat} (h : a < 0x30000 ∨ 0x80000 ≤ a) : isTableOffset a = false := by
  rw [← Bool.not_eq_true, isTableOffset_iff]; omega

theorem readByte_unspecifyTables (s : State) (x : Nat) :
    s.unspecifyTables.readByte x = if isTableOffset x then Config.freeByte s.nextDraw x else s.readByte x := by
  unfold State.readByte
  rw [State.unspecifyTables_mem, get?_unlist _ _ _ _ (by decide)]
  by_cases ht : isTableOffset x = true
  · have ht' : recBase ≤ x ∧ x < memEnd := by simpa [isTableOffset] using ht
    rw [if_pos ht']
    simp [State.unlistedByte, ht]
  · have ht' : ¬ (recBase ≤ x ∧ x < memEnd) := by simpa [isTableOffset] using ht
    rw [if_neg ht']
    simp only [State.unlistedByte, ht]
    rfl

theorem readByte_unspecifyTables_of_outside {s : State} {x : Nat} (h : x < 0x30000 ∨ 0x80000 ≤ x) :
    s.unspecifyTables.readByte x = s.readByte x := by
  rw [readByte_unspecifyTables, isTableOffset_eq_false h]; rfl

theorem readByte_setTables_of_outside {s : State} {rs es : List Byte} (hr : rs.length ≤ evtBase - recBase)
    (he : es.length ≤ memEnd - evtBase) {x : Nat} (h : x < 0x30000 ∨ 0x80000 ≤ x) :
    (s.setTables rs es).readByte x = s.readByte x := by
  rw [readByte_setTables s rs es hr he, isTableOffset_eq_false h]; rfl

end Sys2Proof.Machine
end

