-- ==== Sys2Proof/Laws/Bytes.lean ====
section
/-! SUPPORT. Byte sequences (00_scope.md R12): beval and BE_n, the lanes of the bus, the bytes of the frame. -/

namespace Sys2Proof.Machine

/-! ### beval and BE_n -/

@[simp] theorem beval_nil : beval [] = 0 := rfl

theorem beval_foldl (bs : List Byte) (v : Nat) :
    bs.foldl (fun v b => v * 256 + b.toNat) v = v * 256 ^ bs.length + beval bs := by
  induction bs generalizing v with
  | nil => simp
  | cons b bs ih =>
    simp only [List.foldl_cons, List.length_cons, beval]
    rw [ih, ih (0 * 256 + b.toNat)]
    ring

theorem beval_cons (b : Byte) (bs : List Byte) : beval (b :: bs) = b.toNat * 256 ^ bs.length + beval bs := by
  have := beval_foldl bs (0 * 256 + b.toNat)
  simpa [beval] using this

theorem beval_append (bs cs : List Byte) : beval (bs ++ cs) = beval bs * 256 ^ cs.length + beval cs := by
  simp only [beval, List.foldl_append]
  exact beval_foldl cs _

@[simp] theorem beval_singleton (b : Byte) : beval [b] = b.toNat := by simp [beval_cons]

theorem beval_lt (bs : List Byte) : beval bs < 256 ^ bs.length := by
  induction bs with
  | nil => simp
  | cons b bs ih =>
    rw [beval_cons, List.length_cons, Nat.pow_succ]
    have hb : b.toNat ≤ 255 := by have := b.isLt; omega
    have := Nat.mul_le_mul_right (256 ^ bs.length) hb
    omega

@[simp] theorem length_beBytes (n v : Nat) : (beBytes n v).length = n := by
  induction n with
  | zero => rfl
  | succ n ih => simp [beBytes, ih]

theorem beval_beBytes (n v : Nat) : beval (beBytes n v) = v % 256 ^ n := by
  induction n with
  | zero => simp [beBytes, Nat.mod_one]
  | succ n ih =>
    rw [beBytes, beval_cons, ih, length_beBytes, Nat.pow_succ, Nat.mod_mul, BitVec.toNat_ofNat, Nat.mul_comm, Nat.add_comm]

theorem beval_beBytes_of_lt {n v : Nat} (h : v < 256 ^ n) : beval (beBytes n v) = v := by
  rw [beval_beBytes, Nat.mod_eq_of_lt h]

theorem beval_replicate_zero (n : Nat) : beval (List.replicate n 0#8) = 0 := by
  induction n with
  | zero => rfl
  | succ n ih => simp [List.replicate_succ, beval_cons, ih]

/-! ### The lanes of the bus -/

@[simp] theorem length_lanes (v : Word) : (lanes v).length = 4 := rfl

theorem lanes_ofLanes (b0 b1 b2 b3 : Byte) : lanes (ofLanes b0 b1 b2 b3) = [b0, b1, b2, b3] := by
  simp only [lanes, ofLanes, List.cons.injEq, and_true]
  refine ⟨?_, ?_, ?_, ?_⟩ <;>
  · apply BitVec.eq_of_getLsbD_eq
    intro i hi
    simp only [BitVec.getLsbD_extractLsb', BitVec.getLsbD_append, hi, decide_true, Bool.true_and]
    first
      | simp; done
      | (repeat' split) <;> first | omega | (congr 1; omega)

theorem ofLanes_lanes (v : Word) :
    ofLanes (v.extractLsb' 0 8) (v.extractLsb' 8 8) (v.extractLsb' 16 8) (v.extractLsb' 24 8) = v := by
  apply BitVec.eq_of_getLsbD_eq
  intro i hi
  have h : i < 8 ∨ (8 ≤ i ∧ i < 16) ∨ (16 ≤ i ∧ i < 24) ∨ (24 ≤ i ∧ i < 32) := by omega
  simp only [ofLanes, BitVec.getLsbD_append, BitVec.getLsbD_extractLsb']
  rcases h with h | h | h | h
  · simp [h]
  · rw [if_neg (by omega), if_pos (by omega)]
    rw [show 8 + (i - 8) = i by omega]; simp; omega
  · rw [if_neg (by omega), if_neg (by omega), if_pos (by omega)]
    rw [show 16 + (i - 8 - 8) = i by omega]; simp; omega
  · rw [if_neg (by omega), if_neg (by omega), if_neg (by omega)]
    rw [show 24 + (i - 8 - 8 - 8) = i by omega]; simp; omega

/-! ### The bytes of the frame -/

@[simp] theorem length_frameBytes (s : State) (off n : Nat) : (s.frameBytes off n).length = n := by
  simp [State.frameBytes]

@[simp] theorem frameBytes_zero (s : State) (off : Nat) : s.frameBytes off 0 = [] := rfl

theorem getElem_frameBytes (s : State) (off n k : Nat) (h : k < (s.frameBytes off n).length) :
    (s.frameBytes off n)[k] = s.frameByte (off + k) := by
  simp [State.frameBytes]

theorem frameBytes_add (s : State) (off n m : Nat) :
    s.frameBytes off (n + m) = s.frameBytes off n ++ s.frameBytes (off + n) m := by
  simp only [State.frameBytes]
  rw [← List.range'_append_1, List.map_append]

theorem frameBytes_one (s : State) (off : Nat) : s.frameBytes off 1 = [s.frameByte off] := rfl

/-- The frame bytes depend on the bytes of the range alone. -/
theorem frameBytes_congr {s s' : State} {off n : Nat} (h : ∀ k, off ≤ k → k < off + n → s'.frameByte k = s.frameByte k) :
    s'.frameBytes off n = s.frameBytes off n := by
  simp only [State.frameBytes]
  apply List.map_congr_left
  intro k hk
  rw [List.mem_range'_1] at hk
  exact h k hk.1 hk.2

theorem frameByte_of_bytes {s : State} {bs : List Byte} (h : s.frameBytes 0 bs.length = bs) {k : Nat}
    (hk : k < bs.length) : s.frameByte k = bs[k] := by
  have h1 : (s.frameBytes 0 bs.length)[k]'(by simpa using hk) = s.frameByte (0 + k) := getElem_frameBytes ..
  rw [Nat.zero_add] at h1
  rw [← h1]
  simp only [h]

/-- The bytes of a slice of a frame whose whole content is known. -/
theorem frameBytes_of_append {s : State} {pre mid post : List Byte}
    (h : s.frameBytes 0 (pre ++ (mid ++ post)).length = pre ++ (mid ++ post)) :
    s.frameBytes pre.length mid.length = mid := by
  rw [List.length_append, List.length_append, frameBytes_add, frameBytes_add] at h
  have h1 := List.append_inj h (by simp)
  have h2 := List.append_inj h1.2 (by simp)
  simpa using h2.1

/-- Bytes known as a and then b: the first are a, the rest b. -/
theorem frameBytes_split {s : State} {off n : Nat} {a b : List Byte} (h : s.frameBytes off (a ++ b).length = a ++ b)
    (hn : a.length = n) : s.frameBytes off n = a ∧ s.frameBytes (off + n) b.length = b := by
  rw [List.length_append, frameBytes_add, hn] at h
  exact List.append_inj h (by simp [hn])

end Sys2Proof.Machine
end

