-- ==== Sys2Proof/Laws/Crc.lean ====
section
/-! SUPPORT. The CRC step is linear over XOR and takes no nonzero register to zero (40_crc.md R122). -/

namespace Sys2Proof.Machine

theorem crcShift_xor (a b : Half) : crcShift (a ^^^ b) = crcShift a ^^^ crcShift b := by
  have hs : (a ^^^ b) >>> 1 = (a >>> 1) ^^^ (b >>> 1) := BitVec.ushiftRight_xor_distrib a b 1
  unfold crcShift
  rw [BitVec.getLsbD_xor, hs]
  generalize a >>> 1 = x
  generalize b >>> 1 = y
  cases a.getLsbD 0 <;> cases b.getLsbD 0
  · simp
  · simp [BitVec.xor_assoc]
  · simp only [Bool.xor_false, if_true, if_false, Bool.false_eq_true]
    ac_rfl
  · have h : x ^^^ 0xA001#16 ^^^ (y ^^^ 0xA001#16) = x ^^^ y ^^^ (0xA001#16 ^^^ 0xA001#16) := by
      ac_rfl
    simp only [Bool.xor_self, if_true, h, BitVec.xor_self, BitVec.xor_zero]
    simp

theorem crcShift_eq_zero {c : Half} (h : crcShift c = 0) : c = 0 := by
  have bit : ∀ i, (crcShift c).getLsbD i = false := by intro i; rw [h]; simp
  unfold crcShift at bit
  by_cases h0 : c.getLsbD 0 = true
  · have := bit 15
    simp only [h0, if_true] at this
    simp at this
  · apply BitVec.eq_of_getLsbD_eq
    intro i hi
    simp only [h0] at bit
    rcases i with _ | i
    · simpa using h0
    · have := bit i
      simp [BitVec.getLsbD_ushiftRight] at this
      rw [Nat.add_comm 1 i] at this
      simpa using this

@[simp] theorem crcShift_zero : crcShift 0 = 0 := by decide

@[simp] theorem crcShift8_zero : crcShift8 0 = 0 := by decide

theorem crcShift8_xor (a b : Half) : crcShift8 (a ^^^ b) = crcShift8 a ^^^ crcShift8 b := by
  simp only [crcShift8, crcShift_xor]

theorem crcShift8_eq_zero {c : Half} (h : crcShift8 c = 0) : c = 0 := by
  unfold crcShift8 at h
  iterate 8 replace h := crcShift_eq_zero h
  exact h

theorem setWidth_xor_byte (a b : Byte) : (a ^^^ b).setWidth 16 = a.setWidth 16 ^^^ b.setWidth 16 := by
  apply BitVec.eq_of_getLsbD_eq
  intro i hi
  simp [BitVec.getLsbD_setWidth, BitVec.getLsbD_xor]

/-- One byte into the register is linear in the register and the byte together (R122 (b)). -/
theorem crcByte_xor (c d : Half) (a b : Byte) : crcByte (c ^^^ d) (a ^^^ b) = crcByte c a ^^^ crcByte d b := by
  unfold crcByte
  rw [← crcShift8_xor, setWidth_xor_byte]
  congr 1
  ac_rfl

theorem crc16_append (s t : List Byte) : crc16 (s ++ t) = t.foldl crcByte (crc16 s) := List.foldl_append ..

/-- A zero byte takes no nonzero register to zero. -/
theorem crcByte_zero_ne_zero {c : Half} (h : c ≠ 0) : crcByte c 0 ≠ 0 := by
  intro h0
  apply h
  have := crcShift8_eq_zero h0
  simpa using this

/-- A nonzero byte into a zero register leaves it nonzero. -/
theorem crcByte_byte_ne_zero {b : Byte} (h : b ≠ 0) : crcByte 0 b ≠ 0 := by
  intro h0
  apply h
  have h1 := crcShift8_eq_zero h0
  apply BitVec.eq_of_toNat_eq
  have h2 := congrArg BitVec.toNat h1
  simp [BitVec.toNat_setWidth] at h2
  have := b.isLt
  simp
  omega

/-- Verify depends on the frame bytes 8 .. L - 1 alone (R123, R128). -/
theorem verify_congr {s s' : State} {len : Nat} (hl : 12 ≤ len)
    (h : ∀ k, 8 ≤ k → k < len → s'.frameByte k = s.frameByte k) : verify s' len = verify s len := by
  have h1 : s'.frameBytes 8 (len - 12) = s.frameBytes 8 (len - 12) :=
    frameBytes_congr (fun k hk hk' => h k hk (by omega))
  have h2 : s'.frameBytes (len - 4) 4 = s.frameBytes (len - 4) 4 :=
    frameBytes_congr (fun k hk hk' => h k (by omega) (by omega))
  simp only [verify, h1, h2]

end Sys2Proof.Machine
end

