-- ==== Sys2Proof/Laws/Parse.lean ====
section
/-! SUPPORT. The parse: what each field read, entry, bucket and record can do, said once. -/

namespace Sys2Proof.Machine

/-! ### Field reads (00_scope.md R14) -/

theorem take_ok_iff {s : State} {len off n : Nat} {bs : List Byte} :
    take s len off n = .ok bs ↔ off + n ≤ len ∧ bs = s.frameBytes off n := by
  unfold take
  by_cases h : len < off + n
  · simp only [h, if_true]; constructor
    · intro h'; cases h'
    · intro h'; omega
  · simp only [h, if_false, Except.ok.injEq]
    exact ⟨fun e => ⟨by omega, e.symm⟩, fun e => e.2.symm⟩

theorem take_error_iff {s : State} {len off n : Nat} {x : Raised} :
    take s len off n = .error x ↔ len < off + n ∧ x = malformed off := by
  unfold take
  by_cases h : len < off + n
  · simp only [h, if_true, Except.error.injEq, true_and]; exact eq_comm
  · simp [h]

theorem rd_ok_iff {s : State} {e e' : Engine} {n v : Nat} :
    rd s e n = .ok (v, e') ↔
      e.cur + n ≤ e.len ∧ v = beval (s.frameBytes e.cur n) ∧ e' = { e with cur := e.cur + n } := by
  unfold rd
  cases h : take s e.len e.cur n with
  | error x => rw [take_error_iff] at h; simp; omega
  | ok bs =>
    rw [take_ok_iff] at h
    obtain ⟨h1, rfl⟩ := h
    simp only [Except.ok.injEq, Prod.mk.injEq]
    exact ⟨fun ⟨a, b⟩ => ⟨h1, a.symm, b.symm⟩, fun ⟨_, a, b⟩ => ⟨a.symm, b.symm⟩⟩

theorem rd_error_iff {s : State} {e : Engine} {n : Nat} {x : Raised} :
    rd s e n = .error x ↔ e.len < e.cur + n ∧ x = malformed e.cur := by
  unfold rd
  cases h : take s e.len e.cur n with
  | error y => rw [take_error_iff] at h; simp [h, eq_comm]
  | ok bs => rw [take_ok_iff] at h; simp; omega

theorem rd_eq_ok {s : State} {e : Engine} {n : Nat} (h : e.cur + n ≤ e.len) :
    rd s e n = .ok (beval (s.frameBytes e.cur n), { e with cur := e.cur + n }) := rd_ok_iff.2 ⟨h, rfl, rfl⟩

theorem rd_eq_error {s : State} {e : Engine} {n : Nat} (h : e.len < e.cur + n) :
    rd s e n = .error (malformed e.cur) := rd_error_iff.2 ⟨h, rfl⟩

theorem skip_ok_iff {s : State} {e e' : Engine} {n : Nat} :
    skip s e n = .ok e' ↔ e.cur + n ≤ e.len ∧ e' = { e with cur := e.cur + n } := by
  unfold skip
  cases h : take s e.len e.cur n with
  | error x => rw [take_error_iff] at h; simp; omega
  | ok bs =>
    rw [take_ok_iff] at h
    simp only [Except.ok.injEq]
    exact ⟨fun a => ⟨h.1, a.symm⟩, fun a => a.2.symm⟩

theorem skip_error_iff {s : State} {e : Engine} {n : Nat} {x : Raised} :
    skip s e n = .error x ↔ e.len < e.cur + n ∧ x = malformed e.cur := by
  unfold skip
  cases h : take s e.len e.cur n with
  | error y => rw [take_error_iff] at h; simp [h, eq_comm]
  | ok bs => rw [take_ok_iff] at h; simp; omega

/-! ### What a part of the parse does to the intake

`Emits s d d' k`: from d to d' the parse consumed k bytes within the frame and emitted some events of the running
record, within the event table; nothing else changed. Every entry and bucket does this, and it composes. -/

structure Emits (s : State) (d d' : Intake) (k : Nat) (new : List EventEntry) : Prop where
  eng : d'.eng =
    { d.eng with
      cur := d.eng.cur + k, nev := d.eng.nev + new.length
      mat := d.eng.mat + (new.filter (fun e => e.matched)).length }
  recs : d'.recs = d.recs
  evts : d'.evts = d.evts ++ new
  within : d.eng.cur ≤ d.eng.len → d'.eng.cur ≤ d.eng.len
  room : d.eng.nev ≤ s.params.evtMax → d'.eng.nev ≤ s.params.evtMax
  index : ∀ e ∈ new, e.recIndex = d.eng.r
  kept : ∀ e ∈ new, e.matched = s.isMatch e.paramId ∧ s.retain e.matched = true

theorem Emits.refl (s : State) (d : Intake) : Emits s d d 0 [] := by
  constructor <;> simp

theorem Emits.trans {s : State} {d d' d'' : Intake} {k k' : Nat} {new new' : List EventEntry}
    (h : Emits s d d' k new) (h' : Emits s d' d'' k' new') : Emits s d d'' (k + k') (new ++ new') := by
  have hl : d'.eng.len = d.eng.len := by rw [h.eng]
  have hr : d'.eng.r = d.eng.r := by rw [h.eng]
  constructor
  · rw [h'.eng, h.eng]; simp [Nat.add_assoc, List.filter_append]
  · rw [h'.recs, h.recs]
  · rw [h'.evts, h.evts, List.append_assoc]
  · intro hc; have := h'.within (by rw [hl]; exact h.within hc); omega
  · intro hc; exact h'.room (h.room hc)
  · intro e he
    rcases List.mem_append.1 he with he | he
    · exact h.index e he
    · rw [h'.index e he, hr]
  · intro e he
    rcases List.mem_append.1 he with he | he
    · exact h.kept e he
    · exact h'.kept e he

/-- A field read of the intake's engine. -/
theorem emits_of_read {s : State} {d : Intake} {n : Nat} (h : d.eng.cur + n ≤ d.eng.len) :
    Emits s d { d with eng := { d.eng with cur := d.eng.cur + n } } n [] := by
  constructor <;> simp [h]

/-- emit drops the element, or appends one event. -/
theorem emit_emits {s : State} {bk : Bucket} {w : Nat} {d d' : Intake} {pid voff value : Nat} {h : Word}
    (he : emit s bk w d pid voff value h = .ok d') : ∃ new, Emits s d d' 0 new := by
  unfold emit at he
  simp only at he
  split at he
  · cases he; exact ⟨[], Emits.refl s d⟩
  · rename_i hk
    split at he
    · cases he
    · rename_i hn
      cases he
      refine ⟨[_], ?_, rfl, rfl, ?_, ?_, ?_, ?_⟩
      · cases hm : s.isMatch (BitVec.ofNat 16 pid) <;> simp
      · simp
      · intro hle; simp only; omega
      · simp
      · simp only [List.mem_singleton, forall_eq, true_and]
        simpa using hk

theorem entry_emits {s : State} {bk : Bucket} {w : Nat} {d d' : Intake} (h : entry s bk w d = .ok d') :
    ∃ new, Emits s d d' (2 + w) new := by
  unfold entry at h
  split at h
  · cases h
  · rename_i pid e1 h1
    obtain ⟨hc1, hp, rfl⟩ := rd_ok_iff.1 h1
    split at h
    · cases h
    · rename_i v e2 h2
      obtain ⟨hc2, hv, rfl⟩ := rd_ok_iff.1 h2
      have hr : Emits s d { d with eng := { d.eng with cur := d.eng.cur + 2 + w } } (2 + w) [] := by
        have := (emits_of_read (s := s) hc1).trans (emits_of_read (d := ⟨_, d.recs, d.evts⟩) hc2)
        simpa using this
      split at h
      · cases h
      · cases h; exact ⟨[], hr⟩
      · obtain ⟨new, hn⟩ := emit_emits h
        exact ⟨new, by simpa using hr.trans hn⟩

theorem entries_emits {s : State} {bk : Bucket} {w n : Nat} {d d' : Intake} (h : entries s bk w n d = .ok d') :
    ∃ new, Emits s d d' (n * (2 + w)) new := by
  induction n generalizing d with
  | zero => cases h; exact ⟨[], by simpa using Emits.refl s _⟩
  | succ n ih =>
    unfold entries at h
    split at h
    · cases h
    · rename_i d1 h1
      obtain ⟨new1, e1⟩ := entry_emits h1
      obtain ⟨new2, e2⟩ := ih h
      refine ⟨new1 ++ new2, ?_⟩
      rw [Nat.succ_mul, Nat.add_comm]
      exact e1.trans e2

theorem fixedBucket_emits {s : State} {bk : Bucket} {w : Nat} {d d' : Intake} (h : fixedBucket s bk w d = .ok d') :
    ∃ new, Emits s d d' (2 + beval (s.frameBytes d.eng.cur 2) * (2 + w)) new := by
  unfold fixedBucket at h
  split at h
  · cases h
  · rename_i n e h1
    obtain ⟨hc, rfl, rfl⟩ := rd_ok_iff.1 h1
    obtain ⟨new, hn⟩ := entries_emits h
    exact ⟨new, by simpa using (emits_of_read (s := s) hc).trans hn⟩

theorem variableBucket_emits {s : State} {d d' : Intake} (h : variableBucket s d = .ok d') :
    ∃ new, Emits s d d'
      (4 + beval (s.frameBytes d.eng.cur 2) * (2 + beval (s.frameBytes (d.eng.cur + 2) 2))) new := by
  unfold variableBucket at h
  split at h
  · cases h
  · rename_i n e h1
    obtain ⟨hc, rfl, rfl⟩ := rd_ok_iff.1 h1
    split at h
    · cases h
    · rename_i x e2 h2
      obtain ⟨hc2, rfl, rfl⟩ := rd_ok_iff.1 h2
      obtain ⟨new, hn⟩ := entries_emits h
      have hr := (emits_of_read (s := s) hc).trans
        (emits_of_read (d := { d with eng := { d.eng with cur := d.eng.cur + 2 } }) hc2)
      exact ⟨new, by simpa using hr.trans hn⟩

/-- The bytes of a fixed-width bucket at an offset, as its count gives them (30_encoding.md R97). -/
def fixedSize (s : State) (w off : Nat) : Nat := 2 + beval (s.frameBytes off 2) * (2 + w)

/-- The bytes of the variable-width bucket at an offset, as its count and declared width give them (30_encoding.md R98). -/
def variableSize (s : State) (off : Nat) : Nat :=
  4 + beval (s.frameBytes off 2) * (2 + beval (s.frameBytes (off + 2) 2))

/-- The bytes of the five buckets at an offset (30_encoding.md R96): nothing but the frame decides them. -/
def bucketsSize (s : State) (off : Nat) : Nat :=
  let k1 := fixedSize s 1 off
  let k2 := fixedSize s 2 (off + k1)
  let k3 := fixedSize s 4 (off + k1 + k2)
  let k4 := fixedSize s 8 (off + k1 + k2 + k3)
  k1 + k2 + k3 + k4 + variableSize s (off + k1 + k2 + k3 + k4)

theorem buckets_emits {s : State} {d d' : Intake} (h : buckets s d = .ok d') :
    ∃ new, Emits s d d' (bucketsSize s d.eng.cur) new := by
  unfold buckets at h
  split at h
  · cases h
  · rename_i d1 h1
    obtain ⟨n1, e1⟩ := fixedBucket_emits h1
    split at h
    · cases h
    · rename_i d2 h2
      obtain ⟨n2, e2⟩ := fixedBucket_emits h2
      split at h
      · cases h
      · rename_i d3 h3
        obtain ⟨n3, e3⟩ := fixedBucket_emits h3
        split at h
        · cases h
        · rename_i d4 h4
          obtain ⟨n4, e4⟩ := fixedBucket_emits h4
          obtain ⟨n5, e5⟩ := variableBucket_emits h
          have e := (((e1.trans e2).trans e3).trans e4).trans e5
          have c1 : d1.eng.cur = d.eng.cur + fixedSize s 1 d.eng.cur := by rw [e1.eng]; rfl
          have c2 : d2.eng.cur = d1.eng.cur + fixedSize s 2 d1.eng.cur := by rw [e2.eng]; rfl
          have c3 : d3.eng.cur = d2.eng.cur + fixedSize s 4 d2.eng.cur := by rw [e3.eng]; rfl
          have c4 : d4.eng.cur = d3.eng.cur + fixedSize s 8 d3.eng.cur := by rw [e4.eng]; rfl
          rw [c4, c3, c2, c1] at e
          exact ⟨_, e⟩

/-! ### Records -/

/-- The head of a record read at an engine (R95, R146 to R149). -/
def headAt (s : State) (e : Engine) : RecordHead :=
  { ts := beval (s.frameBytes e.cur 8)
    sevRaw := beval (s.frameBytes (e.cur + 8) 1)
    recId := beval (s.frameBytes (e.cur + 24) 2)
    totalIo := beval (s.frameBytes (e.cur + 26) 2) }

/-- The engine after a record's head: 28 bytes on, the running maximum updated, the record's counters started. -/
def Engine.afterHead (s : State) (e : Engine) : Engine :=
  { e with
    cur := e.cur + 28
    hi := sevAgg e.hi (sevMap (BitVec.ofNat 8 (beval (s.frameBytes (e.cur + 8) 1))))
    first := e.nev
    mat := 0 }

theorem recordHead_ok_iff {s : State} {e e' : Engine} {h : RecordHead} :
    recordHead s e = .ok (h, e') ↔ e.cur + 28 ≤ e.len ∧ h = headAt s e ∧ e' = e.afterHead s := by
  unfold recordHead
  by_cases hl : e.cur + 28 ≤ e.len
  · rw [rd_eq_ok (by omega : e.cur + 8 ≤ e.len)]
    simp only
    rw [rd_eq_ok (by simp only; omega)]
    simp only
    rw [(skip_ok_iff (e' := _)).2 ⟨by simp only; omega, rfl⟩]
    simp only
    rw [rd_eq_ok (by simp only; omega)]
    simp only
    rw [rd_eq_ok (by simp only; omega)]
    simp only [Except.ok.injEq, Prod.mk.injEq, headAt, Engine.afterHead, Nat.add_assoc, Nat.reduceAdd]
    exact ⟨fun ⟨a, b⟩ => ⟨hl, a.symm, b.symm⟩, fun ⟨_, a, b⟩ => ⟨a.symm, b.symm⟩⟩
  · constructor
    · intro h0
      exfalso
      revert h0
      split
      · intro h0; cases h0
      · rename_i h1; obtain ⟨c1, -, rfl⟩ := rd_ok_iff.1 h1
        split
        · intro h0; cases h0
        · rename_i h2; obtain ⟨c2, -, rfl⟩ := rd_ok_iff.1 h2
          split
          · intro h0; cases h0
          · rename_i h3; obtain ⟨c3, rfl⟩ := skip_ok_iff.1 h3
            split
            · intro h0; cases h0
            · rename_i h4; obtain ⟨c4, -, rfl⟩ := rd_ok_iff.1 h4
              split
              · intro h0; cases h0
              · rename_i h5; obtain ⟨c5, -, rfl⟩ := rd_ok_iff.1 h5
                simp only at c5
                omega
    · rintro ⟨h0, -⟩; exact absurd h0 hl

/-- One record: its head, then events of its own, then its entry (R140). -/
theorem record_ok {s : State} {d d' : Intake} (h : record s d = .ok d') :
    d.eng.cur + 28 ≤ d.eng.len ∧
    ∃ new b, Emits s { d with eng := d.eng.afterHead s } b (bucketsSize s (d.eng.cur + 28)) new ∧
      d' = { b with eng := { b.eng with r := b.eng.r + 1 }, recs := d.recs ++ [recordEntry (headAt s d.eng) b.eng] } := by
  unfold record at h
  split at h
  · cases h
  · rename_i hd e h1
    obtain ⟨hc, rfl, rfl⟩ := recordHead_ok_iff.1 h1
    split at h
    · cases h
    · rename_i b h2
      obtain ⟨new, hb⟩ := buckets_emits h2
      cases h
      exact ⟨hc, new, b, hb, by rw [hb.recs]⟩

/-! ### Invariants of the record loop -/

/-- What holds of the intake between two records of a decode that emits into a table of evtMax entries. -/
structure IntakeOk (s : State) (d : Intake) : Prop where
  cur : d.eng.cur ≤ d.eng.len
  nev : d.eng.nev = d.evts.length
  room : d.eng.nev ≤ s.params.evtMax
  recs : d.recs.length = d.eng.r

theorem record_intakeOk {s : State} {d d' : Intake} (hd : IntakeOk s d) (h : record s d = .ok d') :
    IntakeOk s d' ∧ d'.eng.r = d.eng.r + 1 ∧ d'.eng.len = d.eng.len := by
  obtain ⟨hc, new, b, hb, rfl⟩ := record_ok h
  have hr : b.eng.r = d.eng.r := by rw [hb.eng]; rfl
  have hlen : b.eng.len = d.eng.len := by rw [hb.eng]; rfl
  refine ⟨⟨?_, ?_, ?_, ?_⟩, by simp [hr], hlen⟩
  · have := hb.within (by simpa [Engine.afterHead] using hc)
    simp only [hlen]
    exact this
  · have h1 : b.eng.nev = d.eng.nev + new.length := by rw [hb.eng]; rfl
    simp only [h1, hb.evts, List.length_append, hd.nev]
  · exact hb.room hd.room
  · simp [hr, hd.recs]

theorem records_intakeOk {s : State} {n : Nat} {d d' : Intake} (hd : IntakeOk s d) (h : records s n d = .ok d') :
    IntakeOk s d' ∧ d'.eng.r = d.eng.r + n ∧ d'.eng.len = d.eng.len := by
  induction n generalizing d with
  | zero => cases h; exact ⟨hd, rfl, rfl⟩
  | succ n ih =>
    unfold records at h
    split at h
    · cases h
    · rename_i d1 h1
      obtain ⟨ok1, r1, l1⟩ := record_intakeOk hd h1
      obtain ⟨ok2, r2, l2⟩ := ih ok1 h
      exact ⟨ok2, by omega, by omega⟩

/-- The intake before the first record (R140). -/
def intakeStart (e : Engine) : Intake :=
  { eng := { e with cur := 10, hi := .notDetermined, nev := 0, r := 0 }, recs := [], evts := [] }

theorem parseFrame_ok_iff {s : State} {e : Engine} {p : Parsed} :
    parseFrame s e = .ok p ↔
      10 ≤ e.len ∧ p.payloadLen = beval (s.frameBytes 4 4) ∧ p.nrec = beval (s.frameBytes 9 1) ∧
      records s p.nrec (intakeStart e) = .ok p.intake := by
  unfold parseFrame
  by_cases h : 10 ≤ e.len
  · rw [rd_eq_ok (by simp only; omega)]
    simp only
    rw [rd_eq_ok (by simp only; omega)]
    simp only [Nat.reduceAdd]
    constructor
    · intro h1
      split at h1
      · cases h1
      · rename_i d hd
        cases h1
        exact ⟨h, rfl, rfl, hd⟩
    · rintro ⟨-, h1, h2, h3⟩
      rw [h2] at h3
      rw [show ({ eng := { e with cur := 10, hi := .notDetermined, nev := 0, r := 0 }, recs := [], evts := [] } : Intake) =
        intakeStart e from rfl, h3]
      rcases p with ⟨a, b, c⟩
      simp only at h1 h2
      rw [h1, h2]
  · constructor
    · intro h0
      exfalso
      revert h0
      split
      · intro h0; cases h0
      · rename_i h1; obtain ⟨c1, -, rfl⟩ := rd_ok_iff.1 h1
        split
        · intro h0; cases h0
        · rename_i h2; obtain ⟨c2, -, rfl⟩ := rd_ok_iff.1 h2
          simp only at c2
          omega
    · rintro ⟨h0, -⟩; exact absurd h0 h

/-- What a complete parse gives: counts within the tables, as many records as declared (R145, R165, R173 (e)). -/
theorem parseFrame_intakeOk {s : State} {e : Engine} {p : Parsed} (h : parseFrame s e = .ok p) :
    IntakeOk s p.intake ∧ p.intake.recs.length = p.nrec ∧ p.nrec < 256 ∧ p.intake.eng.len = e.len := by
  obtain ⟨h1, h2, h3, h4⟩ := parseFrame_ok_iff.1 h
  have h0 : IntakeOk s (intakeStart e) := ⟨h1, rfl, Nat.zero_le _, rfl⟩
  obtain ⟨ok, r, l⟩ := records_intakeOk h0 h4
  refine ⟨ok, ?_, ?_, ?_⟩
  · rw [ok.recs, r]; simp [intakeStart]
  · rw [h3]; simpa using beval_lt (s.frameBytes 9 1)
  · rw [l]; rfl

/-! ### The bytes of the tables -/

theorem length_flatMap_lanes (ws : List Word) : (ws.flatMap lanes).length = 4 * ws.length := by
  induction ws with
  | nil => rfl
  | cons w ws ih => simp [List.flatMap_cons, ih]; omega

theorem length_tableBytes (ess : List (List Word)) (h : ∀ ws ∈ ess, ws.length = 8) :
    (tableBytes ess).length = 32 * ess.length := by
  unfold tableBytes
  rw [length_flatMap_lanes]
  induction ess with
  | nil => rfl
  | cons ws ess ih =>
    simp only [List.flatten_cons, List.length_append, List.length_cons]
    have h1 := h ws (by simp)
    have h2 := ih (fun x hx => h x (by simp [hx]))
    omega

@[simp] theorem length_recordTable (rs : List RecordEntry) :
    (tableBytes (rs.map RecordEntry.words)).length = 32 * rs.length := by
  rw [length_tableBytes]
  · simp
  · intro ws hw; obtain ⟨r, -, rfl⟩ := List.mem_map.1 hw; rfl

@[simp] theorem length_eventTable (es : List EventEntry) :
    (tableBytes (es.map EventEntry.words)).length = 32 * es.length := by
  rw [length_tableBytes]
  · simp
  · intro ws hw; obtain ⟨r, -, rfl⟩ := List.mem_map.1 hw; rfl

theorem getElem?_flatMap_lanes (ws : List Word) (k j : Nat) (hj : j < 4) :
    (ws.flatMap lanes)[4 * k + j]? = (ws[k]?).bind (fun w => (lanes w)[j]?) := by
  induction ws generalizing k with
  | nil => simp
  | cons w ws ih =>
    rw [List.flatMap_cons]
    rcases k with _ | k
    · rw [List.getElem?_append_left (by simp; omega)]; simp
    · rw [List.getElem?_append_right (by simp; omega)]
      simp only [length_lanes, List.getElem?_cons_succ]
      rw [show 4 * (k + 1) + j - 4 = 4 * k + j by omega]
      exact ih k

theorem getElem?_flatten_eight (ess : List (List Word)) (h : ∀ ws ∈ ess, ws.length = 8) (n k : Nat) (hk : k < 8) :
    ess.flatten[8 * n + k]? = (ess[n]?).bind (fun ws => ws[k]?) := by
  induction ess generalizing n with
  | nil => simp
  | cons ws ess ih =>
    have h8 := h ws (by simp)
    rw [List.flatten_cons]
    rcases n with _ | n
    · rw [List.getElem?_append_left (by omega)]; simp
    · rw [List.getElem?_append_right (by omega), h8]
      simp only [List.getElem?_cons_succ]
      rw [show 8 * (n + 1) + k - 8 = 8 * n + k by omega]
      exact ih (fun x hx => h x (by simp [hx])) n

/-- Byte j of word k of entry n of a table (R43, R44). -/
theorem getElem?_tableBytes (ess : List (List Word)) (h : ∀ ws ∈ ess, ws.length = 8) {n k j : Nat} (hk : k < 8)
    (hj : j < 4) {ws : List Word} {w : Word} (hn : ess[n]? = some ws) (hw : ws[k]? = some w) :
    (tableBytes ess)[32 * n + 4 * k + j]? = (lanes w)[j]? := by
  unfold tableBytes
  rw [show 32 * n + 4 * k + j = 4 * (8 * n + k) + j by omega, getElem?_flatMap_lanes _ _ _ hj,
    getElem?_flatten_eight _ h _ _ hk, hn]
  simp [hw]

end Sys2Proof.Machine
end

