-- ==== Sys2Proof/Laws/Exec.lean ====
section
/-! SUPPORT. What each operation can answer, said once: the ways a parse stops, the equation of every commit, and the
cases of each meaning. -/

namespace Sys2Proof.Machine

/-! ### Why a parse stops -/

/-- A parse stops on a fatal result (41_codec8e.md R150, R165) or on a lookup that a silent resolver leaves open. -/
def Stop.Legal (s : State) : Stop → Prop
  | .raised x => x.code = .malformedFrame ∨ x.code = .capacityExceeded
  | .silent => s.resolver.answering = false

theorem legal_of_rd {s : State} {e : Engine} {n : Nat} {x : Raised} (h : rd s e n = .error x) :
    Stop.Legal s (.raised x) := by
  obtain ⟨-, rfl⟩ := rd_error_iff.1 h; exact .inl rfl

theorem legal_of_skip {s : State} {e : Engine} {n : Nat} {x : Raised} (h : skip s e n = .error x) :
    Stop.Legal s (.raised x) := by
  obtain ⟨-, rfl⟩ := skip_error_iff.1 h; exact .inl rfl

theorem lookup_silent {r : Resolver} {id : Half} (h : r.lookup id = .silent) : r.answering = false := by
  unfold Resolver.lookup at h
  by_cases ha : r.answering = true
  · simp only [ha, if_true] at h; split at h <;> cases h
  · simpa using ha

theorem entry_error {s : State} {bk : Bucket} {w : Nat} {d : Intake} {x : Stop} (h : entry s bk w d = .error x) :
    x.Legal s := by
  unfold entry at h
  split at h
  · rename_i h1; cases h; exact legal_of_rd h1
  · split at h
    · rename_i h2; cases h; exact legal_of_rd h2
    · split at h
      · rename_i h3; cases h; exact lookup_silent h3
      · cases h
      · unfold emit at h
        simp only at h
        split at h
        · cases h
        · split at h
          · cases h; exact .inr rfl
          · cases h

theorem entries_error {s : State} {bk : Bucket} {w n : Nat} {d : Intake} {x : Stop}
    (h : entries s bk w n d = .error x) : x.Legal s := by
  induction n generalizing d with
  | zero => cases h
  | succ n ih =>
    unfold entries at h
    split at h
    · rename_i h1; cases h; exact entry_error h1
    · exact ih h

theorem fixedBucket_error {s : State} {bk : Bucket} {w : Nat} {d : Intake} {x : Stop}
    (h : fixedBucket s bk w d = .error x) : x.Legal s := by
  unfold fixedBucket at h
  split at h
  · rename_i h1; cases h; exact legal_of_rd h1
  · exact entries_error h

theorem variableBucket_error {s : State} {d : Intake} {x : Stop} (h : variableBucket s d = .error x) : x.Legal s := by
  unfold variableBucket at h
  split at h
  · rename_i h1; cases h; exact legal_of_rd h1
  · split at h
    · rename_i h2; cases h; exact legal_of_rd h2
    · exact entries_error h

theorem buckets_error {s : State} {d : Intake} {x : Stop} (h : buckets s d = .error x) : x.Legal s := by
  unfold buckets at h
  split at h
  · rename_i h1; cases h; exact fixedBucket_error h1
  · split at h
    · rename_i h1; cases h; exact fixedBucket_error h1
    · split at h
      · rename_i h1; cases h; exact fixedBucket_error h1
      · split at h
        · rename_i h1; cases h; exact fixedBucket_error h1
        · exact variableBucket_error h

theorem recordHead_error {s : State} {e : Engine} {x : Raised} (h : recordHead s e = .error x) :
    Stop.Legal s (.raised x) := by
  unfold recordHead at h
  split at h
  · rename_i h1; cases h; exact legal_of_rd h1
  · split at h
    · rename_i h1; cases h; exact legal_of_rd h1
    · split at h
      · rename_i h1; cases h; exact legal_of_skip h1
      · split at h
        · rename_i h1; cases h; exact legal_of_rd h1
        · split at h
          · rename_i h1; cases h; exact legal_of_rd h1
          · cases h

theorem record_error {s : State} {d : Intake} {x : Stop} (h : record s d = .error x) : x.Legal s := by
  unfold record at h
  split at h
  · rename_i h1; cases h; exact recordHead_error h1
  · split at h
    · rename_i h1; cases h; exact buckets_error h1
    · cases h

theorem records_error {s : State} {n : Nat} {d : Intake} {x : Stop} (h : records s n d = .error x) : x.Legal s := by
  induction n generalizing d with
  | zero => cases h
  | succ n ih =>
    unfold records at h
    split at h
    · rename_i h1; cases h; exact record_error h1
    · exact ih h

theorem parseFrame_error {s : State} {e : Engine} {x : Stop} (h : parseFrame s e = .error x) : x.Legal s := by
  unfold parseFrame at h
  split at h
  · rename_i h1; cases h; exact legal_of_rd h1
  · split at h
    · rename_i h1; cases h; exact legal_of_rd h1
    · split at h
      · rename_i h1; cases h; exact records_error h1
      · cases h

/-! ### The response parse -/

/-- A response parse completes exactly when its fields and payload fit (42_codec12.md R184, R187). -/
theorem parseResponse_eq (s : State) (e : Engine) (h : 11 ≤ e.len) :
    parseResponse s e =
      if e.len < 15 then .error (malformed 11)
      else if e.len < 15 + beval (s.frameBytes 11 4) then .error (malformed 15)
      else if s.params.outSize < beval (s.frameBytes 11 4) then .error (capacityExceeded 15)
      else .ok
        { dataSize := beval (s.frameBytes 4 4), qty := beval (s.frameBytes 9 1), type := beval (s.frameBytes 10 1)
          len := beval (s.frameBytes 11 4), text := s.frameBytes 15 (beval (s.frameBytes 11 4)) } := by
  unfold parseResponse
  rw [rd_eq_ok (by simp only; omega)]
  simp only
  rw [rd_eq_ok (by simp only; omega)]
  simp only
  rw [rd_eq_ok (by simp only; omega)]
  simp only
  by_cases h15 : e.len < 15
  · rw [rd_eq_error (by simp only; omega), if_pos h15]
  · rw [rd_eq_ok (by simp only; omega), if_neg h15]
    simp only [Nat.reduceAdd]
    by_cases hp : e.len < 15 + beval (s.frameBytes 11 4)
    · rw [take_error_iff.2 ⟨hp, rfl⟩, if_pos hp]
    · rw [take_ok_iff.2 ⟨by omega, rfl⟩, if_neg hp]

/-! ### Verify -/

theorem verify_ok_iff {s : State} {len : Nat} :
    (verify s len).ok = true ↔
      (crc16 (s.frameBytes 8 (len - 12))).toNat = beval (s.frameBytes (len - 4) 4) := by
  have hb : beval (s.frameBytes (len - 4) 4) < 2 ^ 32 := by simpa using beval_lt (s.frameBytes (len - 4) 4)
  have hc : (crc16 (s.frameBytes 8 (len - 12))).toNat < 2 ^ 16 := BitVec.isLt _
  unfold verify
  simp only [beq_iff_eq, ← BitVec.toNat_inj, BitVec.toNat_setWidth, BitVec.toNat_ofNat]
  omega

/-! ### The cases of each meaning -/

/-- A C8E_DECODE commits a failure with everything of its own zeroed, or a complete parse, or waits for ever on a silent
resolver (41_codec8e.md R175; 93_implementation_defined.md U9). -/
theorem execC8eDecode_cases (s : State) :
    (∃ r crc decl pos, r ≠ .noError ∧
      execC8eDecode s = .next (((s.zeroResults .c8eDecode).setCheck crc decl pos).commit r false)) ∨
    (∃ p, s.inLen.toNat ≤ s.params.inSize ∧ 12 ≤ s.inLen.toNat ∧ s.frameByte 8 = 0x8E#8 ∧
      (verify s s.inLen.toNat).ok = true ∧
      parseFrame s { s.start with crc := (verify s s.inLen.toNat).crc } = .ok p ∧
      execC8eDecode s = .next (s.commitFrame (verify s s.inLen.toNat) p)) ∨
    (s.resolver.answering = false ∧ execC8eDecode s = .refused .resolverSilent) := by
  unfold execC8eDecode
  simp only
  split
  · exact .inl ⟨.capacityExceeded, 0, 0, 0, by decide, rfl⟩
  · rename_i h1
    split
    · exact .inl ⟨.malformedFrame, 0, 0, 8, by decide, rfl⟩
    · split
      · exact .inl ⟨.codecIncompatible, 0, 0, 0, by decide, rfl⟩
      · rename_i h3
        split
        · exact .inl ⟨.malformedFrame, 0, 0, 8, by decide, rfl⟩
        · rename_i h4
          split
          · rename_i h5
            split
            · rename_i p h6
              refine .inr (.inl ⟨p, ?_, ?_, ?_, h5, h6, rfl⟩)
              · simpa using h1
              · simpa using h4
              · simpa using h3
            · rename_i x h6
              refine .inl ⟨x.code, 0, 0, x.pos, ?_, rfl⟩
              rcases parseFrame_error h6 with h | h <;> rw [h] <;> decide
            · rename_i h6
              exact .inr (.inr ⟨parseFrame_error h6, rfl⟩)
          · exact .inl ⟨.crcFailed, _, _, 0, by decide, rfl⟩

/-- Past both gates a C8E_DECODE is its parse (41_codec8e.md R140, R141). -/
theorem execC8eDecode_of_gates {s : State} (h1 : s.inLen.toNat ≤ s.params.inSize) (h2 : 12 ≤ s.inLen.toNat)
    (h3 : s.frameByte 8 = 0x8E#8) (h4 : (verify s s.inLen.toNat).ok = true) :
    execC8eDecode s =
      match parseFrame s { s.start with crc := (verify s s.inLen.toNat).crc } with
      | .ok p => .next (s.commitFrame (verify s s.inLen.toNat) p)
      | .error (.raised x) => .next (s.raise .c8eDecode x.code x.pos)
      | .error .silent => .refused .resolverSilent := by
  have hl : s.start.len = s.inLen.toNat := rfl
  unfold execC8eDecode
  simp only
  rw [if_neg (by omega), if_neg (by omega), if_neg (by simp [h3]), if_neg (by omega), if_pos (by rw [hl]; exact h4)]
  rfl

/-- A C12_DECODE commits a failure with its own results zeroed, or a complete response (42_codec12.md R186). -/
theorem execC12Decode_cases (s : State) :
    (∃ r crc decl pos, r ≠ .noError ∧
      execC12Decode s = .next (((s.zeroResults .c12Decode).setCheck crc decl pos).commit r false)) ∨
    (∃ p, s.inLen.toNat ≤ s.params.inSize ∧ s.frameByte 8 = 0x0C#8 ∧ (verify s s.inLen.toNat).ok = true ∧
      p = beval (s.frameBytes 11 4) ∧ 15 + p ≤ s.inLen.toNat ∧ p ≤ s.params.outSize ∧
      execC12Decode s = .next (s.commitResponse (verify s s.inLen.toNat)
        { dataSize := beval (s.frameBytes 4 4), qty := beval (s.frameBytes 9 1), type := beval (s.frameBytes 10 1)
          len := p, text := s.frameBytes 15 p })) := by
  unfold execC12Decode
  simp only
  split
  · exact .inl ⟨.capacityExceeded, 0, 0, 0, by decide, rfl⟩
  · rename_i h1
    split
    · exact .inl ⟨.malformedFrame, 0, 0, 8, by decide, rfl⟩
    · split
      · exact .inl ⟨.codecIncompatible, 0, 0, 0, by decide, rfl⟩
      · rename_i h3
        split
        · exact .inl ⟨.malformedFrame, 0, 0, 8, by decide, rfl⟩
        · rename_i h4
          split
          · rename_i h5
            have hl : s.start.len = s.inLen.toNat := rfl
            rw [hl] at h1 h4
            rw [parseResponse_eq s _ (by simp only [hl]; omega)]
            simp only [hl]
            split
            · rename_i p hp
              split at hp
              · cases hp
              · split at hp
                · cases hp
                · split at hp
                  · cases hp
                  · cases hp
                    refine .inr ⟨_, by omega, by simpa using h3, h5, rfl, by omega, by omega, rfl⟩
            · rename_i x hx
              refine .inl ⟨x.code, 0, 0, x.pos, ?_, rfl⟩
              split at hx
              · cases hx; decide
              · split at hx
                · cases hx; decide
                · split at hx
                  · cases hx; decide
                  · cases hx
          · exact .inl ⟨.crcFailed, _, _, 0, by decide, rfl⟩

/-- A C12_ENCODE writes the command frame, or nothing (42_codec12.md R180). -/
theorem execC12Encode_cases (s : State) :
    ((s.params.inSize < s.inLen.toNat ∨ s.params.outSize < 20 + s.inLen.toNat) ∧
      execC12Encode s = .next (s.raise .c12Encode .capacityExceeded 0)) ∨
    (s.inLen.toNat ≤ s.params.inSize ∧ 20 + s.inLen.toNat ≤ s.params.outSize ∧
      execC12Encode s = .next (s.commitCommand (s.frameBytes 0 s.inLen.toNat))) := by
  unfold execC12Encode
  have hl : s.start.len = s.inLen.toNat := rfl
  simp only [hl]
  split
  · rename_i h; exact .inl ⟨.inl h, rfl⟩
  · split
    · rename_i h; exact .inl ⟨.inr h, rfl⟩
    · exact .inr ⟨by omega, by omega, rfl⟩

/-- A CRC_COMPUTE commits its check registers and a status (40_crc.md R125). -/
theorem execCrcCompute_cases (s : State) :
    ∃ r crc decl pos, execCrcCompute s = .next ((s.setCheck crc decl pos).commit r false) := by
  unfold execCrcCompute
  simp only
  split
  · exact ⟨_, 0, 0, 0, rfl⟩
  · exact ⟨_, _, _, _, rfl⟩

/-- CRC_VERIFY sets VERIFY_OK only beside NoError (40_crc.md R127). -/
theorem execCrcVerify_cases (s : State) :
    ∃ r ok crc decl pos, (ok = true → r = .noError) ∧
      execCrcVerify s = .next ((s.setCheck crc decl pos).commit r ok) := by
  unfold execCrcVerify
  simp only
  split
  · exact ⟨_, false, 0, 0, 0, by simp, rfl⟩
  · split
    · exact ⟨_, false, 0, 0, 8, by simp, rfl⟩
    · exact ⟨_, _, _, _, _, fun h => if_pos h, rfl⟩

/-! ### The bytes after each commit -/

@[simp] theorem length_commandFrame (cmd : List Byte) : (commandFrame cmd).length = 20 + cmd.length := by
  simp [commandFrame, commandBody]; omega

theorem readByte_commitCommand (s : State) (cmd : List Byte) (a : Nat) :
    (s.commitCommand cmd).readByte a = (s.writeBytes outBase (commandFrame cmd)).readByte a := readByte_congr rfl rfl rfl a

theorem readByte_commitResponse (s : State) (v : Verified) (p : ParsedResponse) (a : Nat) :
    (s.commitResponse v p).readByte a = (s.writeBytes outBase p.text).readByte a := readByte_congr rfl rfl rfl a

theorem readByte_commitFrame (s : State) (v : Verified) (p : Parsed) (a : Nat) :
    (s.commitFrame v p).readByte a =
      (s.setTables (tableBytes (p.intake.recs.map RecordEntry.words))
        (tableBytes (p.intake.evts.map EventEntry.words))).readByte a := readByte_congr rfl rfl rfl a

theorem readByte_c8eFailure (s : State) (r : ResultCode) (crc : Half) (decl : Word) (pos a : Nat) :
    (((s.zeroResults .c8eDecode).setCheck crc decl pos).commit r false).readByte a = s.unspecifyTables.readByte a :=
  readByte_congr rfl rfl rfl a

theorem execFilterProbe_eq (s : State) :
    execFilterProbe s = .next
      (({ s with probe := { isMatch := s.isMatch s.probeId, retain := s.retain (s.isMatch s.probeId) }, errPos := 0 } :
        State).commit .noError false) := rfl

end Sys2Proof.Machine
end

