-- ==== Sys2Proof/Laws/Bus.lean ====
section
/-! SUPPORT. The host bus: which accesses reach what, and what an access can do, said once. -/

namespace Sys2Proof.Machine

/-! ### The address map -/

/-- The bounds of a legal instance's parameters (00_scope.md R9). -/
theorem Params.bounds {p : Params} (h : p.wellFormed = true) :
    (16 ≤ p.inSize ∧ p.inSize ≤ 65536) ∧ (20 ≤ p.outSize ∧ p.outSize ≤ 65536) ∧ (1 ≤ p.evtMax ∧ p.evtMax ≤ 8192) ∧
    (1 ≤ p.interestMax ∧ p.interestMax ≤ 1024) ∧ p.blockBase % 0x100000 = 0 := by
  simpa [Params.wellFormed, and_assoc] using h

theorem inWindow_iff {p : Params} {t : Target} {off n : Nat} :
    inWindow p t off n = true ↔ t.base ≤ off ∧ off + n ≤ t.base + t.size p := by
  simp only [inWindow, Bool.and_eq_true, decide_eq_true_eq]

/-- A register is no memory window. -/
def Target.isMemory : Target → Prop
  | .reg _ => False
  | .iset | .inBuf | .outBuf | .recTable | .evtTable => True

/-- The windows of a legal instance do not meet (10_state.md R40). -/
theorem windowAt_iff {p : Params} (h : p.wellFormed = true) {off n : Nat} (hn : 0 < n) {t : Target} :
    windowAt p off n = some t ↔ t.isMemory ∧ t.base ≤ off ∧ off + n ≤ t.base + t.size p := by
  obtain ⟨h1, h2, h3, h4, -⟩ := Params.bounds h
  have b1 : isetBase = 0x01000 := rfl
  have b2 : inBase = 0x10000 := rfl
  have b3 : outBase = 0x20000 := rfl
  have b4 : recBase = 0x30000 := rfl
  have b5 : evtBase = 0x40000 := rfl
  have b6 : recMax = 255 := rfl
  have no : ∀ t' : Target, ¬ inWindow p t' off n = true ↔ ¬ (t'.base ≤ off ∧ off + n ≤ t'.base + t'.size p) :=
    fun t' => not_congr inWindow_iff
  have pick : ∀ t' : Target, t'.isMemory → (t'.base ≤ off ∧ off + n ≤ t'.base + t'.size p) →
      (some t' = some t ↔ t.isMemory ∧ t.base ≤ off ∧ off + n ≤ t.base + t.size p) := by
    intro t' hm' c
    refine ⟨fun e => (by cases e; exact ⟨hm', c⟩), fun ⟨hm, ha⟩ => ?_⟩
    cases t' <;> cases t <;>
      first
      | rfl
      | exact hm.elim
      | exact hm'.elim
      | (exfalso; simp only [Target.base, Target.size] at c ha; omega)
  unfold windowAt
  simp only [List.find?]
  split
  · rename_i c
    rw [inWindow_iff] at c
    exact pick _ trivial c
  · rename_i c1
    rw [← Bool.not_eq_true, no] at c1
    split
    · rename_i c
      rw [inWindow_iff] at c
      exact pick _ trivial c
    · rename_i c2
      rw [← Bool.not_eq_true, no] at c2
      split
      · rename_i c
        rw [inWindow_iff] at c
        exact pick _ trivial c
      · rename_i c3
        rw [← Bool.not_eq_true, no] at c3
        split
        · rename_i c
          rw [inWindow_iff] at c
          exact pick _ trivial c
        · rename_i c4
          rw [← Bool.not_eq_true, no] at c4
          split
          · rename_i c
            rw [inWindow_iff] at c
            exact pick _ trivial c
          · rename_i c5
            rw [← Bool.not_eq_true, no] at c5
            refine ⟨fun e => (by cases e), fun ⟨hm, ha⟩ => ?_⟩
            cases t
            · exact hm.elim
            · exact absurd ha c1
            · exact absurd ha c2
            · exact absurd ha c3
            · exact absurd ha c4
            · exact absurd ha c5

/-- A 32-bit access below 0x01000 reaches the register at its offset, if one is listed there (10_state.md R21). -/
theorem targetAt_register (p : Params) {off : Nat} (h : off < 0x1000) (h4 : off % 4 = 0) :
    targetAt p 32 off = (RegName.atOffset off).map Target.reg := by
  unfold targetAt
  rw [if_neg (by decide), if_pos rfl, if_neg (by omega), if_pos h]

/-- An aligned 32-bit access inside a memory window reaches it (20_memory.md R74, R75). -/
theorem targetAt_word {p : Params} (hp : p.wellFormed = true) {t : Target} (ht : t.isMemory) {off : Nat}
    (h4 : off % 4 = 0) (h1 : t.base ≤ off) (h2 : off + 4 ≤ t.base + t.size p) : targetAt p 32 off = some t := by
  unfold targetAt
  have hb : 0x1000 ≤ t.base := by cases t <;> simp_all [Target.isMemory, Target.base, isetBase, inBase, outBase, recBase, evtBase]
  rw [if_neg (by decide), if_pos rfl, if_neg (by omega), if_neg (by omega)]
  exact (windowAt_iff hp (by decide)).2 ⟨ht, h1, h2⟩

/-- An 8-bit access inside IN reaches it. -/
theorem targetAt_inByte {p : Params} (hp : p.wellFormed = true) {off : Nat} (h1 : 0x10000 ≤ off)
    (h2 : off < 0x10000 + p.inSize) : targetAt p 8 off = some .inBuf := by
  unfold targetAt
  have hw : windowAt p off 1 = some .inBuf := (windowAt_iff hp (by decide)).2 ⟨trivial, h1, h2⟩
  rw [if_pos rfl, hw]

/-- An 8-bit access inside OUT reaches it. -/
theorem targetAt_outByte {p : Params} (hp : p.wellFormed = true) {off : Nat} (h1 : 0x20000 ≤ off)
    (h2 : off < 0x20000 + p.outSize) : targetAt p 8 off = some .outBuf := by
  unfold targetAt
  have hw : windowAt p off 1 = some .outBuf := (windowAt_iff hp (by decide)).2 ⟨trivial, h1, h2⟩
  rw [if_pos rfl, hw]

/-! ### What a write can do -/

/-- A read changes the bus answer and at most the number of the next draw. -/
theorem State.busRead_cases (s : State) (width off : Nat) :
    ∃ a n, s.nextDraw ≤ n ∧ s.busRead width off = { s with resp := a, nextDraw := n } := by
  unfold State.busRead
  split
  · exact ⟨_, s.nextDraw, Nat.le_refl _, rfl⟩
  · exact ⟨_, s.nextDraw, Nat.le_refl _, rfl⟩
  · split
    · exact ⟨_, s.nextDraw + 1, by omega, rfl⟩
    · exact ⟨_, s.nextDraw, Nat.le_refl _, rfl⟩

/-- A write while BUSY: nothing but STATUS.DONE, STATUS.WERR and the bus answer can change (10_state.md R24; 20_memory.md
R82; 60_exceptions.md R226 (2), R231). -/
theorem State.busWrite_busy {s : State} (hb : s.status.busy = true) (width off : Nat) (v : Word) :
    ∃ a d w, s.busWrite width off v = { s with resp := a, status := { s.status with done := d, werr := w } } := by
  have hg : ∀ s', s.guardWrite s' = { s with status := s.status.setWerr } := fun s' => s.guardWrite_busy s' hb
  unfold State.busWrite
  split
  · exact ⟨_, s.status.done, s.status.werr, rfl⟩
  · rename_i r _
    cases r <;> simp only [State.writeReg, hg] <;> exact ⟨_, _, _, rfl⟩
  · rw [hg]; exact ⟨_, s.status.done, true, rfl⟩
  · rw [hg]; exact ⟨_, s.status.done, true, rfl⟩
  · exact ⟨_, s.status.done, s.status.werr, rfl⟩
  · exact ⟨_, s.status.done, s.status.werr, rfl⟩
  · exact ⟨_, s.status.done, s.status.werr, rfl⟩

/-- What a write while idle can do: answer only, clear status bits, write an input register, start or refuse an
operation, or write bytes inside the interest table or IN. -/
theorem State.busWrite_idle {s : State} (hb : s.status.busy = false) (width off : Nat) (v : Word) :
    (∃ a, s.busWrite width off v = { s with resp := a }) ∨
    s.busWrite width off v = { s with status := s.status.writeOneToClear v, resp := .writeOk } ∨
    (∃ c l n p, (n = s.isetCount ∨ n = BitVec.ofNat 32 (min v.toNat s.params.interestMax)) ∧
      s.busWrite width off v = { s with cfg := c, inLen := l, isetCount := n, probeId := p, resp := .writeOk }) ∨
    (width = 32 ∧ off = 0x004 ∧ s.busWrite width off v = { s.issue v with resp := .writeOk }) ∨
    (∃ t, (t = .iset ∨ t = .inBuf) ∧ targetAt s.params width off = some t ∧
      s.busWrite width off v = { s.writeBytes off (busBytes width v) with resp := .writeOk }) := by
  have hg : ∀ s', s.guardWrite s' = s' := fun s' => s.guardWrite_idle s' hb
  unfold State.busWrite
  split
  · exact .inl ⟨_, rfl⟩
  · rename_i r hr
    cases r
    case cmd =>
      refine .inr (.inr (.inr (.inl ⟨?_, ?_, ?_⟩)))
      · unfold targetAt at hr
        split at hr
        · split at hr <;> cases hr
        · split at hr
          · assumption
          · cases hr
      · unfold targetAt at hr
        split at hr
        · split at hr <;> cases hr
        · split at hr
          · split at hr
            · cases hr
            · split at hr
              · unfold RegName.atOffset at hr
                split at hr <;> first | rfl | cases hr
              · unfold windowAt at hr
                have := List.mem_of_find?_eq_some hr
                simp at this
          · cases hr
      · simp only [State.writeReg, hg]
    case status => exact .inr (.inl rfl)
    case cfg => simp only [State.writeReg, hg]; exact .inr (.inr (.inl ⟨_, _, _, _, .inl rfl, rfl⟩))
    case inLen => simp only [State.writeReg, hg]; exact .inr (.inr (.inl ⟨_, _, _, _, .inl rfl, rfl⟩))
    case isetCount => simp only [State.writeReg, hg]; exact .inr (.inr (.inl ⟨_, _, _, _, .inr rfl, rfl⟩))
    case probeId => simp only [State.writeReg, hg]; exact .inr (.inr (.inl ⟨_, _, _, _, .inl rfl, rfl⟩))
    all_goals exact .inl ⟨_, rfl⟩
  · rename_i ht; rw [hg]; exact .inr (.inr (.inr (.inr ⟨.iset, .inl rfl, ht, rfl⟩)))
  · rename_i ht; rw [hg]; exact .inr (.inr (.inr (.inr ⟨.inBuf, .inr rfl, ht, rfl⟩)))
  · exact .inl ⟨_, rfl⟩
  · exact .inl ⟨_, rfl⟩
  · exact .inl ⟨_, rfl⟩

/-- A CMD write while idle accepts the operation, or commits IllegalOp (10_state.md R23; 60_exceptions.md R221). -/
theorem State.issue_cases (s : State) (w : Word) :
    (∃ i, decode w = .ok i ∧ s.issue w = s.accept w) ∨
    ((∃ e, decode w = .error e) ∧ s.issue w = (s.accept w).commitIllegalOp) := by
  unfold State.issue
  cases h : decode w with
  | ok i => exact .inl ⟨i, rfl, rfl⟩
  | error e => exact .inr ⟨⟨e, rfl⟩, rfl⟩

/-- Bytes a bus write stores lie in the window it reaches. -/
theorem targetAt_bytes {p : Params} (hp : p.wellFormed = true) {width off : Nat} {t : Target}
    (h : targetAt p width off = some t) (ht : t = .iset ∨ t = .inBuf) (v : Word) :
    t.base ≤ off ∧ off + (busBytes width v).length ≤ t.base + t.size p := by
  have hm : t.isMemory := by rcases ht with rfl | rfl <;> trivial
  unfold targetAt at h
  split at h
  · rename_i hw
    split at h
    · rename_i h1; cases h
      have := ((windowAt_iff hp (by decide)).1 h1).2
      simpa [busBytes, hw] using this
    · cases h; rcases ht with h | h <;> cases h
    · cases h
  · rename_i hw
    split at h
    · split at h
      · cases h
      · split at h
        · exfalso
          cases ha : RegName.atOffset off <;> rw [ha] at h <;> cases h
          exact hm
        · have := ((windowAt_iff hp (by decide)).1 h).2
          simpa [busBytes, hw] using this
    · cases h

/-! ### The resolver's answers -/

theorem Resolver.sameAnswers_iff {r r' : Resolver} :
    r.sameAnswers r' = true ↔ ∀ id : Half, r.lookup id = r'.lookup id := by
  unfold Resolver.sameAnswers
  simp only [List.all_eq_true, List.mem_range, decide_eq_true_eq]
  constructor
  · intro h id
    have := h id.toNat id.isLt
    simpa using this
  · intro h n _; exact h _

end Sys2Proof.Machine
end

