-- ==== Sys2Proof/Laws/Congr.lean ====
section
/-! SUPPORT. What a parse reads: the frame's bytes below L, the matches, the policy, the resolver and EVT_MAX. Two states
that agree on these parse alike (70_reset_and_hazards.md R255). -/

namespace Sys2Proof.Machine

/-- s' agrees with s on everything a parse of a frame of len bytes reads. -/
structure SameInputs (s s' : State) (len : Nat) : Prop where
  bytes : ∀ k, k < len → s'.frameByte k = s.frameByte k
  isMatch : ∀ id, s'.isMatch id = s.isMatch id
  retain : ∀ m, s'.retain m = s.retain m
  resolver : s'.resolver = s.resolver
  params : s'.params = s.params

variable {s s' : State}

theorem take_congr {len off n : Nat} (h : ∀ k, k < len → s'.frameByte k = s.frameByte k) :
    take s' len off n = take s len off n := by
  unfold take
  by_cases hl : len < off + n
  · rw [if_pos hl, if_pos hl]
  · rw [if_neg hl, if_neg hl, frameBytes_congr (fun k _ h2 => h k (by omega))]

theorem rd_congr {e : Engine} {n : Nat} (h : ∀ k, k < e.len → s'.frameByte k = s.frameByte k) : rd s' e n = rd s e n := by
  unfold rd; rw [take_congr h]

theorem skip_congr {e : Engine} {n : Nat} (h : ∀ k, k < e.len → s'.frameByte k = s.frameByte k) :
    skip s' e n = skip s e n := by
  unfold skip; rw [take_congr h]

theorem rd_len {e e' : Engine} {n v : Nat} (h : rd s e n = .ok (v, e')) : e'.len = e.len := by
  obtain ⟨-, -, rfl⟩ := rd_ok_iff.1 h; rfl

theorem emit_congr {len : Nat} (h : SameInputs s s' len) (bk : Bucket) (w : Nat) (d : Intake) (pid voff value : Nat)
    (x : Word) : emit s' bk w d pid voff value x = emit s bk w d pid voff value x := by
  unfold emit
  simp only [h.isMatch, h.retain, h.params]

theorem entry_congr {d : Intake} (h : SameInputs s s' d.eng.len) (bk : Bucket) (w : Nat) :
    entry s' bk w d = entry s bk w d := by
  unfold entry
  rw [rd_congr h.bytes]
  split
  · rfl
  · rename_i pid e1 h1
    rw [rd_congr (by rw [rd_len h1]; exact h.bytes), h.resolver]
    simp only [emit_congr h]

theorem entries_congr {n : Nat} {d : Intake} (h : SameInputs s s' d.eng.len) (bk : Bucket) (w : Nat) :
    entries s' bk w n d = entries s bk w n d := by
  induction n generalizing d with
  | zero => rfl
  | succ n ih =>
    unfold entries
    rw [entry_congr h]
    split
    · rfl
    · rename_i d1 h1
      obtain ⟨new, hn⟩ := entry_emits h1
      exact ih (by rw [hn.eng]; exact h)

theorem fixedBucket_congr {d : Intake} (h : SameInputs s s' d.eng.len) (bk : Bucket) (w : Nat) :
    fixedBucket s' bk w d = fixedBucket s bk w d := by
  unfold fixedBucket
  rw [rd_congr h.bytes]
  split
  · rfl
  · rename_i n e h1
    exact entries_congr (by simp only [rd_len h1]; exact h) bk w

theorem variableBucket_congr {d : Intake} (h : SameInputs s s' d.eng.len) : variableBucket s' d = variableBucket s d := by
  unfold variableBucket
  rw [rd_congr h.bytes]
  split
  · rfl
  · rename_i n e h1
    rw [rd_congr (by rw [rd_len h1]; exact h.bytes)]
    split
    · rfl
    · rename_i x e2 h2
      exact entries_congr (by simp only [rd_len h2, rd_len h1]; exact h) _ _

theorem buckets_congr {d : Intake} (h : SameInputs s s' d.eng.len) : buckets s' d = buckets s d := by
  unfold buckets
  rw [fixedBucket_congr h]
  split
  · rfl
  · rename_i d1 h1
    obtain ⟨_, e1⟩ := fixedBucket_emits h1
    have k1 : SameInputs s s' d1.eng.len := by rw [e1.eng]; exact h
    rw [fixedBucket_congr k1]
    split
    · rfl
    · rename_i d2 h2
      obtain ⟨_, e2⟩ := fixedBucket_emits h2
      have k2 : SameInputs s s' d2.eng.len := by rw [e2.eng]; exact k1
      rw [fixedBucket_congr k2]
      split
      · rfl
      · rename_i d3 h3
        obtain ⟨_, e3⟩ := fixedBucket_emits h3
        have k3 : SameInputs s s' d3.eng.len := by rw [e3.eng]; exact k2
        rw [fixedBucket_congr k3]
        split
        · rfl
        · rename_i d4 h4
          obtain ⟨_, e4⟩ := fixedBucket_emits h4
          exact variableBucket_congr (by rw [e4.eng]; exact k3)

theorem recordHead_congr {e : Engine} (h : ∀ k, k < e.len → s'.frameByte k = s.frameByte k) :
    recordHead s' e = recordHead s e := by
  unfold recordHead
  rw [rd_congr h]
  split
  · rfl
  · rename_i ts e1 h1
    have l1 := rd_len h1
    rw [rd_congr (by rw [l1]; exact h)]
    split
    · rfl
    · rename_i sraw e2 h2
      have l2 := rd_len h2
      rw [skip_congr (by simp only [l2, l1]; exact h)]
      split
      · rfl
      · rename_i e3 h3
        have l3 : e3.len = e2.len := by obtain ⟨-, rfl⟩ := skip_ok_iff.1 h3; rfl
        rw [rd_congr (by rw [l3, l2, l1]; exact h)]
        split
        · rfl
        · rename_i rid e4 h4
          rw [rd_congr (by rw [rd_len h4, l3, l2, l1]; exact h)]

theorem record_congr {d : Intake} (h : SameInputs s s' d.eng.len) : record s' d = record s d := by
  unfold record
  rw [recordHead_congr h.bytes]
  split
  · rfl
  · rename_i hd e h1
    obtain ⟨-, -, rfl⟩ := recordHead_ok_iff.1 h1
    rw [buckets_congr (s := s) (s' := s') (d := { d with eng := d.eng.afterHead s }) h]

theorem records_congr {n : Nat} {d : Intake} (h : SameInputs s s' d.eng.len) : records s' n d = records s n d := by
  induction n generalizing d with
  | zero => rfl
  | succ n ih =>
    unfold records
    rw [record_congr h]
    split
    · rfl
    · rename_i d1 h1
      obtain ⟨-, new, b, hb, rfl⟩ := record_ok h1
      exact ih (by simp only [hb.eng]; exact h)

theorem parseFrame_congr {e : Engine} (h : SameInputs s s' e.len) : parseFrame s' e = parseFrame s e := by
  unfold parseFrame
  rw [rd_congr (by exact h.bytes)]
  split
  · rfl
  · rename_i plen e1 h1
    have l1 : e1.len = e.len := by have := rd_len h1; exact this
    rw [rd_congr (by simp only [l1]; exact h.bytes)]
    split
    · rfl
    · rename_i nrec e2 h2
      have l2 : e2.len = e1.len := by have := rd_len h2; exact this
      rw [records_congr (by simp only [l2, l1]; exact h)]

/-- A response parse reads the frame's bytes below L and OUT_SIZE (42_codec12.md R184). -/
theorem parseResponse_congr {e : Engine} (h : ∀ k, k < e.len → s'.frameByte k = s.frameByte k)
    (hp : s'.params = s.params) : parseResponse s' e = parseResponse s e := by
  unfold parseResponse
  rw [rd_congr (by exact h)]
  split
  · rfl
  · rename_i _ e1 h1
    have l1 : e1.len = e.len := by have := rd_len h1; exact this
    rw [rd_congr (by simp only [l1]; exact h)]
    split
    · rfl
    · rename_i _ e2 h2
      have l2 : e2.len = e1.len := by have := rd_len h2; exact this
      rw [rd_congr (by rw [l2, l1]; exact h)]
      split
      · rfl
      · rename_i _ e3 h3
        have l3 := rd_len h3
        rw [rd_congr (by rw [l3, l2, l1]; exact h)]
        split
        · rfl
        · rename_i _ e4 h4
          have l4 := rd_len h4
          rw [take_congr (by rw [l4, l3, l2, l1]; exact h), hp]

end Sys2Proof.Machine
end

