-- ==== Sys2Proof/Laws/Decode.lean ====
section
/-! SUPPORT. The decoder, said once: it reads the field OP and nothing else. -/

namespace Sys2Proof

theorem and_opMask (w : Word) : w &&& 0x0000000F#32 = (opField w).setWidth 32 := by
  apply BitVec.eq_of_toNat_eq
  simp only [opField, BitVec.toNat_and, BitVec.toNat_setWidth, BitVec.extractLsb'_toNat, Nat.shiftRight_zero]
  have := Nat.and_two_pow_sub_one_eq_mod w.toNat 4
  simp at this ⊢
  omega

/-- A word decodes to an operation exactly when its bits [3:0] are the operation's OP. -/
theorem decode_ok_iff (w : Word) (i : Instr) : decode w = .ok i ↔ w.extractLsb' 0 4 = i.opcode := by
  unfold decode opTable
  simp only [OpRow.selects, List.find?, and_opMask, opField]
  generalize w.extractLsb' 0 4 = f
  revert f; cases i <;> decide

theorem opField_setWidth (f : BitVec 4) : opField (f.setWidth 32) = f := by
  apply BitVec.eq_of_toNat_eq
  simpa [opField] using f.isLt

/-- The word of the OP field of a word decodes as the word does. -/
theorem decode_opField (w : Word) : decode ((opField w).setWidth 32) = decode w := by
  unfold decode opTable
  simp only [OpRow.selects, List.find?, and_opMask, opField_setWidth]

end Sys2Proof
end

