-- ==== Sys2Proof/Laws/Step.lean ====
section
/-! SUPPORT. What one step can do, said once: invariants are derived from step_cases. -/

namespace Sys2Proof.Machine

/-- What is left of the events after the next one. -/
def State.past (s : State) : State := { s with env := s.env.tail }

theorem step_eq (s : State) : step s = takeEvent s.nextEvent s.past := by
  unfold step State.nextEvent State.past
  cases h : s.env with
  | nil =>
    have : ({ s with env := [].tail } : State) = s := by cases s; simp_all
    simp only [this, takeEvent]
  | cons e rest => rfl

/-- A step that goes on takes one event. -/
theorem step_cases {s t : State} (h : step s = .next t) :
    (s.nextEvent = .engine ∧ s.eng = none ∧ t = s.past) ∨
    (∃ e i, s.nextEvent = .engine ∧ s.eng = some e ∧ decode e.word = .ok i ∧ exec i s.past = .next t) ∨
    (∃ e x, s.nextEvent = .engine ∧ s.eng = some e ∧ decode e.word = .error x ∧ t = s.past.commitIllegalOp) ∨
    (∃ a, s.nextEvent = .access a ∧ s.rst = false ∧ decodesAddr s.params a.addr = true ∧ t = s.past.busAccess a) ∨
    (s.nextEvent = .rstAssert ∧ t = s.past.assertRst) ∨
    (s.nextEvent = .rstRelease ∧ t = s.past.releaseRst) ∨
    (∃ r, s.nextEvent = .setResolver r ∧ (s.decoding = true → s.resolver.sameAnswers r = true) ∧
      t = { s.past with resolver := r }) := by
  rw [step_eq] at h
  generalize hn : s.nextEvent = ev at h
  cases ev with
  | access a =>
    refine .inr (.inr (.inr (.inl ⟨a, rfl, ?_⟩)))
    simp only [takeEvent, takeAccess] at h
    split at h
    · cases h
    · rename_i hr
      split at h
      · rename_i hd; cases h; exact ⟨Bool.not_eq_true _ ▸ hr, hd, rfl⟩
      · cases h
  | engine =>
    simp only [takeEvent, engineMove] at h
    split at h
    · rename_i e he
      split at h
      · rename_i i hi; exact .inr (.inl ⟨e, i, rfl, he, hi, h⟩)
      · rename_i x hx; cases h; exact .inr (.inr (.inl ⟨e, x, rfl, he, hx, rfl⟩))
    · rename_i he; cases h; exact .inl ⟨rfl, he, rfl⟩
  | rstAssert => cases h; exact .inr (.inr (.inr (.inr (.inl ⟨rfl, rfl⟩))))
  | rstRelease => cases h; exact .inr (.inr (.inr (.inr (.inr (.inl ⟨rfl, rfl⟩)))))
  | setResolver r =>
    simp only [takeEvent, takeResolver] at h
    split at h
    · cases h
    · rename_i hd
      cases h
      refine .inr (.inr (.inr (.inr (.inr (.inr ⟨r, rfl, ?_, rfl⟩)))))
      intro hdec
      have : s.past.decoding = true := hdec
      simp only [this, Bool.true_and, Bool.not_eq_true', Bool.not_eq_false] at hd
      exact hd

@[simp] theorem State.past_params (s : State) : s.past.params = s.params := rfl
@[simp] theorem State.past_status (s : State) : s.past.status = s.status := rfl
@[simp] theorem State.past_eng (s : State) : s.past.eng = s.eng := rfl
@[simp] theorem State.past_mem (s : State) : s.past.mem = s.mem := rfl

/-- Every bus access keeps memory in canonical form. -/
theorem wf_busAccess {s : State} (h : Memory.wf s.mem) (a : Access) : Memory.wf (s.busAccess a).mem := by
  cases a with
  | read w addr => obtain ⟨x, n, -, hx⟩ := s.busRead_cases w (addr - s.params.blockBase); simp only [State.busAccess, hx]; exact h
  | write w addr v =>
    simp only [State.busAccess]
    generalize addr - s.params.blockBase = off
    cases hb : s.status.busy with
    | true => obtain ⟨x, d, e, hx⟩ := State.busWrite_busy hb w off v; rw [hx]; exact h
    | false =>
      rcases State.busWrite_idle hb w off v with ⟨x, hx⟩ | hx | ⟨c, l, n, p, -, hx⟩ | ⟨-, -, hx⟩ | ⟨t, -, -, hx⟩
      · rw [hx]; exact h
      · rw [hx]; exact h
      · rw [hx]; exact h
      · rw [hx]
        rcases s.issue_cases v with ⟨i, -, hi⟩ | ⟨-, hi⟩ <;> rw [hi] <;> exact h
      · rw [hx]; exact wf_write h off _

/-- Every operation keeps memory in canonical form, while the tables fit their windows. -/
theorem wf_exec {s t : State} (hp : s.params.wellFormed = true) (h : Memory.wf s.mem) {i : Instr}
    (he : exec i s = .next t) : Memory.wf t.mem := by
  cases i with
  | crcCompute =>
    obtain ⟨r, c, d, p, hx⟩ := execCrcCompute_cases s
    simp only [exec, hx, Host.Outcome.next.injEq] at he; subst he; exact h
  | crcVerify =>
    obtain ⟨r, o, c, d, p, -, hx⟩ := execCrcVerify_cases s
    simp only [exec, hx, Host.Outcome.next.injEq] at he; subst he; exact h
  | c8eDecode =>
    rcases execC8eDecode_cases s with ⟨r, c, d, p, -, hx⟩ | ⟨p, -, -, -, -, hp2, hx⟩ | ⟨-, hx⟩
    · simp only [exec, hx, Host.Outcome.next.injEq] at he; subst he; exact wf_unlist h (by decide)
    · simp only [exec, hx, Host.Outcome.next.injEq] at he; subst he
      obtain ⟨ok, hl, hn, -⟩ := parseFrame_intakeOk hp2
      have h1 : (tableBytes (p.intake.recs.map RecordEntry.words)).length ≤ evtBase - recBase := by
        rw [length_recordTable, hl, show evtBase - recBase = 65536 by decide]; omega
      have h2 : (tableBytes (p.intake.evts.map EventEntry.words)).length ≤ memEnd - evtBase := by
        have := (Params.bounds hp).2.2.1.2
        have := ok.room
        have := ok.nev
        rw [length_eventTable, show memEnd - evtBase = 262144 by decide]; omega
      exact wf_setTables h h1 h2
    · simp only [exec, hx, reduceCtorEq] at he
  | c12Encode =>
    rcases execC12Encode_cases s with ⟨-, hx⟩ | ⟨-, -, hx⟩
    · simp only [exec, hx, Host.Outcome.next.injEq] at he; subst he; exact h
    · simp only [exec, hx, Host.Outcome.next.injEq] at he; subst he; exact wf_write h _ _
  | c12Decode =>
    rcases execC12Decode_cases s with ⟨r, c, d, p, -, hx⟩ | ⟨p, -, -, -, -, -, -, hx⟩
    · simp only [exec, hx, Host.Outcome.next.injEq] at he; subst he; exact h
    · simp only [exec, hx, Host.Outcome.next.injEq] at he; subst he; exact wf_write h _ _
  | filterProbe => simp only [exec, execFilterProbe_eq, Host.Outcome.next.injEq] at he; subst he; exact h

/-- Whatever an operation answers next is a commit, of a state with the inputs and the status it found. -/
theorem exec_commit {i : Instr} {s t : State} (h : exec i s = .next t) :
    ∃ u r ok, t = State.commit u r ok ∧ u.cfg = s.cfg ∧ u.status = s.status ∧ u.inLen = s.inLen ∧
      u.params = s.params := by
  cases i with
  | crcCompute =>
    obtain ⟨r, c, d, p, hx⟩ := execCrcCompute_cases s
    simp only [exec, hx, Host.Outcome.next.injEq] at h; exact ⟨_, _, _, h.symm, rfl, rfl, rfl, rfl⟩
  | crcVerify =>
    obtain ⟨r, o, c, d, p, -, hx⟩ := execCrcVerify_cases s
    simp only [exec, hx, Host.Outcome.next.injEq] at h; exact ⟨_, _, _, h.symm, rfl, rfl, rfl, rfl⟩
  | c8eDecode =>
    rcases execC8eDecode_cases s with ⟨r, c, d, p, -, hx⟩ | ⟨p, -, -, -, -, hp2, hx⟩ | ⟨-, hx⟩
    · simp only [exec, hx, Host.Outcome.next.injEq] at h; exact ⟨_, _, _, h.symm, rfl, rfl, rfl, rfl⟩
    · simp only [exec, hx, Host.Outcome.next.injEq] at h; exact ⟨_, _, _, h.symm, rfl, rfl, rfl, rfl⟩
    · simp only [exec, hx, reduceCtorEq] at h
  | c12Encode =>
    rcases execC12Encode_cases s with ⟨-, hx⟩ | ⟨-, -, hx⟩ <;>
      simp only [exec, hx, Host.Outcome.next.injEq] at h <;> exact ⟨_, _, _, h.symm, rfl, rfl, rfl, rfl⟩
  | c12Decode =>
    rcases execC12Decode_cases s with ⟨r, c, d, p, -, hx⟩ | ⟨p, -, -, -, -, -, -, hx⟩ <;>
      simp only [exec, hx, Host.Outcome.next.injEq] at h <;> exact ⟨_, _, _, h.symm, rfl, rfl, rfl, rfl⟩
  | filterProbe =>
    simp only [exec, execFilterProbe_eq, Host.Outcome.next.injEq] at h; exact ⟨_, _, _, h.symm, rfl, rfl, rfl, rfl⟩

/-- What no operation writes, and which operation writes which result group. -/
theorem exec_frame {i : Instr} {s t : State} (h : exec i s = .next t) :
    t.params = s.params ∧ t.cmdOp = s.cmdOp ∧ t.env = s.env ∧ t.eng = none ∧ t.rst = s.rst ∧
    (i ≠ .c8eDecode → t.fr = s.fr) ∧ (i ≠ .c12Decode → t.rsp = s.rsp) ∧ (i ≠ .filterProbe → t.probe = s.probe) ∧
    (i ≠ .c12Encode → i ≠ .c12Decode → t.outLen = s.outLen) := by
  cases i with
  | crcCompute =>
    obtain ⟨r, c, d, p, hx⟩ := execCrcCompute_cases s
    simp only [exec, hx, Host.Outcome.next.injEq] at h; subst h; simp
  | crcVerify =>
    obtain ⟨r, o, c, d, p, -, hx⟩ := execCrcVerify_cases s
    simp only [exec, hx, Host.Outcome.next.injEq] at h; subst h; simp
  | c8eDecode =>
    rcases execC8eDecode_cases s with ⟨r, c, d, p, -, hx⟩ | ⟨p, -, -, -, -, hp2, hx⟩ | ⟨-, hx⟩
    · simp only [exec, hx, Host.Outcome.next.injEq] at h; subst h; simp [State.zeroResults]
    · simp only [exec, hx, Host.Outcome.next.injEq] at h; subst h; simp [State.commitFrame]
    · simp only [exec, hx, reduceCtorEq] at h
  | c12Encode =>
    rcases execC12Encode_cases s with ⟨-, hx⟩ | ⟨-, -, hx⟩ <;>
      simp only [exec, hx, Host.Outcome.next.injEq] at h <;> subst h <;>
      simp [State.raise, State.zeroResults, State.commitCommand]
  | c12Decode =>
    rcases execC12Decode_cases s with ⟨r, c, d, p, -, hx⟩ | ⟨p, -, -, -, -, -, -, hx⟩ <;>
      simp only [exec, hx, Host.Outcome.next.injEq] at h <;> subst h <;> simp [State.zeroResults, State.commitResponse]
  | filterProbe => simp only [exec, execFilterProbe_eq, Host.Outcome.next.injEq] at h; subst h; simp

/-- What no host access writes. -/
theorem busAccess_frame (s : State) (a : Access) :
    (s.busAccess a).params = s.params ∧ (s.busAccess a).fr = s.fr ∧ (s.busAccess a).rsp = s.rsp ∧
    (s.busAccess a).probe = s.probe ∧ (s.busAccess a).outLen = s.outLen ∧ (s.busAccess a).env = s.env ∧
    (s.busAccess a).rst = s.rst ∧ (s.busAccess a).resolver = s.resolver := by
  cases a with
  | read w addr =>
    obtain ⟨x, n, -, hx⟩ := s.busRead_cases w (addr - s.params.blockBase)
    simp only [State.busAccess, hx, and_self]
  | write w addr v =>
    simp only [State.busAccess]
    generalize addr - s.params.blockBase = off
    cases hb : s.status.busy with
    | true => obtain ⟨x, d, e, hx⟩ := State.busWrite_busy hb w off v; rw [hx]; simp
    | false =>
      rcases State.busWrite_idle hb w off v with ⟨x, hx⟩ | hx | ⟨c, l, n, p, -, hx⟩ | ⟨-, -, hx⟩ | ⟨t, -, -, hx⟩
      · rw [hx]; simp
      · rw [hx]; simp
      · rw [hx]; simp
      · rw [hx]
        rcases s.issue_cases v with ⟨i, -, hi⟩ | ⟨-, hi⟩ <;> rw [hi] <;>
          exact ⟨rfl, rfl, rfl, rfl, rfl, rfl, rfl, rfl⟩
      · rw [hx]; simp

/-- The OP an engine holds decodes to the operation whose OP it is. -/
theorem decode_engineWord (e : Engine) (i : Instr) : decode e.word = .ok i ↔ e.op = i.opcode := by
  rw [Engine.word, decode_ok_iff]
  exact iff_of_eq (congrArg (· = i.opcode) (opField_setWidth e.op))

/-- Every operation answers a next state, but a C8E_DECODE whose resolver does not answer. -/
theorem exec_next {i : Instr} {s : State} (h : i = .c8eDecode → s.resolver.answering = true) :
    ∃ t, exec i s = .next t := by
  cases i with
  | c8eDecode =>
    rcases execC8eDecode_cases s with ⟨r, c, d, p, -, hx⟩ | ⟨p, -, -, -, -, hp2, hx⟩ | ⟨hx, -⟩
    · exact ⟨_, hx⟩
    · exact ⟨_, hx⟩
    · rw [h rfl] at hx; cases hx
  | crcCompute | crcVerify | c12Encode | c12Decode | filterProbe => exact ⟨_, rfl⟩

/-- Memory is in canonical form after reset. -/
theorem wf_reset : Memory.wf State.reset.mem := List.Pairwise.nil

/-- Memory is in canonical form after rst is asserted. -/
theorem wf_assertRst (s : State) : Memory.wf s.assertRst.mem := List.Pairwise.nil

end Sys2Proof.Machine
end

