-- ==== Sys2Proof/Laws/Tables.lean ====
section
/-! SUPPORT. What the record and event tables read as after the NoError commit of a C8E_DECODE (10_state.md R43, R44). -/

namespace Sys2Proof.Machine

theorem length_recordWords (l : List RecordEntry) : ∀ ws ∈ l.map RecordEntry.words, ws.length = 8 := by
  intro ws h; obtain ⟨r, -, rfl⟩ := List.mem_map.1 h; rfl

theorem length_eventWords (l : List EventEntry) : ∀ ws ∈ l.map EventEntry.words, ws.length = 8 := by
  intro ws h; obtain ⟨r, -, rfl⟩ := List.mem_map.1 h; rfl

/-- The tables a complete parse writes fit their windows (10_state.md R40). -/
theorem tables_fit {s : State} {e : Engine} {p : Parsed} (hw : s.params.wellFormed = true)
    (hp : parseFrame s e = .ok p) :
    (tableBytes (p.intake.recs.map RecordEntry.words)).length ≤ evtBase - recBase ∧
    (tableBytes (p.intake.evts.map EventEntry.words)).length ≤ memEnd - evtBase := by
  obtain ⟨ok, hl, hn, -⟩ := parseFrame_intakeOk hp
  have := (Params.bounds hw).2.2.1.2
  have := ok.room
  have := ok.nev
  rw [length_recordTable, length_eventTable, show evtBase - recBase = 65536 by decide, show memEnd - evtBase = 262144 by decide]
  omega

/-- Every byte of the valid entries, after the commit. -/
theorem readByte_commitFrame_tables {s : State} {v : Verified} {p : Parsed} {e : Engine} (hw : s.params.wellFormed = true)
    (hp : parseFrame s e = .ok p) :
    (∀ k, k < 32 * (p.intake.recs.map RecordEntry.words).length →
      (s.commitFrame v p).readByte (0x30000 + k) = ((tableBytes (p.intake.recs.map RecordEntry.words))[k]?).getD 0) ∧
    (∀ k, k < 32 * (p.intake.evts.map EventEntry.words).length →
      (s.commitFrame v p).readByte (0x40000 + k) = ((tableBytes (p.intake.evts.map EventEntry.words))[k]?).getD 0) := by
  obtain ⟨ok, hl, hn, -⟩ := parseFrame_intakeOk hp
  have hb := (Params.bounds hw).2.2.1.2
  have room := ok.room
  have nev := ok.nev
  obtain ⟨q1, q2⟩ := tables_fit hw hp
  constructor
  · intro k hk
    rw [List.length_map] at hk
    rw [readByte_commitFrame, readByte_setTables _ _ _ q1 q2]
    have ht : isTableOffset (0x30000 + k) = true := isTableOffset_iff.2 (by omega)
    rw [if_pos ht, if_pos (by simp only [evtBase]; omega), show 0x30000 + k - recBase = k by simp only [recBase]; omega,
      List.getElem?_eq_getElem (by rw [length_recordTable]; exact hk)]
    rfl
  · intro k hk
    rw [List.length_map] at hk
    rw [readByte_commitFrame, readByte_setTables _ _ _ q1 q2]
    have ht : isTableOffset (0x40000 + k) = true := isTableOffset_iff.2 (by omega)
    rw [if_pos ht, if_neg (by simp only [evtBase]; omega), show 0x40000 + k - evtBase = k by simp only [evtBase]; omega,
      List.getElem?_eq_getElem (by rw [length_eventTable]; exact hk)]
    rfl

/-- Word k of entry n of a table whose bytes are known. -/
theorem readWord_table {t : State} (base : Nat) (ess : List (List Word)) (h8 : ∀ ws ∈ ess, ws.length = 8)
    (hb : ∀ k, k < 32 * ess.length → t.readByte (base + k) = ((tableBytes ess)[k]?).getD 0)
    {n k : Nat} {ws : List Word} {w : Word} (hn : ess[n]? = some ws) (hk : ws[k]? = some w) :
    t.readWord (base + 32 * n + 4 * k) = w := by
  have hn' : n < ess.length := by
    by_contra hc; rw [List.getElem?_eq_none (by omega)] at hn; cases hn
  have hk' : k < 8 := by
    have := h8 ws (List.mem_of_getElem? hn)
    by_contra hc; rw [List.getElem?_eq_none (by omega)] at hk; cases hk
  have bj : ∀ j, j < 4 → t.readByte (base + 32 * n + 4 * k + j) = ((lanes w)[j]?).getD 0 := by
    intro j hj
    rw [show base + 32 * n + 4 * k + j = base + (32 * n + 4 * k + j) by omega, hb _ (by omega),
      getElem?_tableBytes ess h8 hk' hj hn hk]
  unfold State.readWord
  have h0 := bj 0 (by decide)
  rw [Nat.add_zero] at h0
  rw [h0, bj 1 (by decide), bj 2 (by decide), bj 3 (by decide)]
  exact ofLanes_lanes w

/-- A word of a record entry after the commit. -/
theorem readWord_recordEntry {s : State} {v : Verified} {p : Parsed} {e : Engine} (hw : s.params.wellFormed = true)
    (hp : parseFrame s e = .ok p) {n k : Nat} {r : RecordEntry} {w : Word} (hn : p.intake.recs[n]? = some r)
    (hk : r.words[k]? = some w) : (s.commitFrame v p).readWord (0x30000 + 32 * n + 4 * k) = w :=
  readWord_table 0x30000 _ (length_recordWords _) (readByte_commitFrame_tables hw hp).1 (ws := r.words)
    (by rw [List.getElem?_map, hn]; rfl) hk

/-- A word of an event entry after the commit. -/
theorem readWord_eventEntry {s : State} {v : Verified} {p : Parsed} {e : Engine} (hw : s.params.wellFormed = true)
    (hp : parseFrame s e = .ok p) {n k : Nat} {r : EventEntry} {w : Word} (hn : p.intake.evts[n]? = some r)
    (hk : r.words[k]? = some w) : (s.commitFrame v p).readWord (0x40000 + 32 * n + 4 * k) = w :=
  readWord_table 0x40000 _ (length_eventWords _) (readByte_commitFrame_tables hw hp).2 (ws := r.words)
    (by rw [List.getElem?_map, hn]; rfl) hk

end Sys2Proof.Machine
end

