-- ==== Sys2Proof/Laws/Wire.lean ====
section
/-! SUPPORT. What the parse does with bytes that the Codec 8E wire grammar wrote: each part either appends its events,
or stops at the first event that finds the event table full (41_codec8e.md R160 to R165). -/

namespace Sys2Proof.Machine

/-- d after k bytes that emitted the events evs. -/
def Intake.adv (d : Intake) (k : Nat) (evs : List EventEntry) : Intake :=
  { eng :=
      { d.eng with
        cur := d.eng.cur + k, nev := d.eng.nev + evs.length
        mat := d.eng.mat + (evs.filter (fun e => e.matched)).length }
    recs := d.recs
    evts := d.evts ++ evs }

theorem adv_adv (d : Intake) (k k' : Nat) (a b : List EventEntry) :
    (d.adv k a).adv k' b = d.adv (k + k') (a ++ b) := by
  simp [Intake.adv, Nat.add_assoc, List.filter_append]

/-- What a part of the parse answers at d: k bytes and the events evs on, if they fit the event table; else it stops at
the first of them that does not (R165). -/
structure Runs (s : State) (d : Intake) (k : Nat) (evs : List EventEntry) (res : Except Stop Intake) : Prop where
  ok : d.eng.nev + evs.length ≤ s.params.evtMax → res = .ok (d.adv k evs)
  full : ∀ ev, d.eng.nev ≤ s.params.evtMax → evs[s.params.evtMax - d.eng.nev]? = some ev →
    res = .error (.raised (capacityExceeded (ev.voff - 2)))

/-- One part after another. -/
def andThen (r : Except Stop Intake) (f : Intake → Except Stop Intake) : Except Stop Intake :=
  match r with
  | .error x => .error x
  | .ok d' => f d'

theorem Runs.seq {s : State} {d : Intake} {k k' : Nat} {a b : List EventEntry} {r1 : Except Stop Intake}
    {f : Intake → Except Stop Intake} (h1 : Runs s d k a r1) (h2 : Runs s (d.adv k a) k' b (f (d.adv k a))) :
    Runs s d (k + k') (a ++ b) (andThen r1 f) := by
  unfold andThen
  constructor
  · intro h
    rw [List.length_append] at h
    rw [h1.ok (by omega)]
    simp only
    rw [h2.ok (by simp only [Intake.adv]; omega), adv_adv]
  · intro ev hn hev
    by_cases hl : s.params.evtMax - d.eng.nev < a.length
    · rw [List.getElem?_append_left hl] at hev
      rw [h1.full ev hn hev]
    · rw [List.getElem?_append_right (by omega)] at hev
      rw [h1.ok (by omega)]
      simp only
      refine h2.full ev (by simp only [Intake.adv]; omega) ?_
      simp only [Intake.adv]
      rw [show s.params.evtMax - (d.eng.nev + a.length) = s.params.evtMax - d.eng.nev - a.length by omega]
      exact hev

theorem runs_entry {s : State} {bk : Bucket} {w : Nat} {d : Intake} {e : Wire.Element} (ha : s.resolver.answering = true)
    (hw : e.value.length = w) (hin : d.eng.cur + (2 + w) ≤ d.eng.len)
    (hb : s.frameBytes d.eng.cur e.bytes.length = e.bytes) :
    Runs s d (2 + w) ((Wire.eventOf s bk w d.eng.r (d.eng.cur + 2) e).toList) (entry s bk w d) := by
  have hl : (beBytes 2 e.id.toNat).length = 2 := by simp
  obtain ⟨b1, b2⟩ := frameBytes_split (n := 2) hb hl
  have hid : beval (beBytes 2 e.id.toNat) = e.id.toNat := beval_beBytes_of_lt e.id.isLt
  have hpid : BitVec.ofNat 16 e.id.toNat = e.id := by simp
  unfold entry
  rw [rd_eq_ok (by omega)]
  simp only
  rw [rd_eq_ok (by simp only; omega)]
  simp only [b1, hid, hpid]
  rw [← hw, b2]
  unfold Wire.eventOf
  have hns : s.resolver.lookup e.id ≠ .silent := fun h => by have := lookup_silent h; rw [ha] at this; cases this
  cases hlk : s.resolver.lookup e.id with
  | silent => exact absurd hlk hns
  | unknown =>
    simp only
    constructor
    · intro _; simp [Intake.adv, Nat.add_assoc]
    · intro ev _ h; simp at h
  | handle x =>
    simp only [emit, hpid]
    cases hr : s.retain (s.isMatch e.id) with
    | false =>
      simp only [Bool.not_false, if_true]
      constructor
      · intro _; simp [Intake.adv, Nat.add_assoc]
      · intro ev _ h; simp at h
    | true =>
      simp only [Bool.not_true, Bool.false_eq_true, if_false, if_true]
      constructor
      · intro h
        have h : d.eng.nev + 1 ≤ s.params.evtMax := by simpa using h
        rw [if_neg (by omega)]
        cases hm : s.isMatch e.id <;> simp [Intake.adv, Nat.add_assoc]
      · intro ev hn h
        have : s.params.evtMax - d.eng.nev = 0 := by
          by_contra hc
          obtain ⟨j, hj⟩ := Nat.exists_eq_succ_of_ne_zero hc
          rw [hj] at h; simp at h
        rw [this] at h
        simp only [Option.toList, List.getElem?_cons_zero, Option.some.injEq] at h
        rw [if_pos (by omega), ← h]

theorem length_elementsBytes (es : List Wire.Element) (w : Nat) (h : ∀ e ∈ es, e.value.length = w) :
    (Wire.elementsBytes es).length = es.length * (2 + w) := by
  induction es with
  | nil => simp [Wire.elementsBytes]
  | cons e es ih =>
    have := ih (fun x hx => h x (by simp [hx]))
    have h0 := h e (by simp)
    simp only [Wire.elementsBytes, List.flatMap_cons, List.length_append, Wire.Element.bytes, length_beBytes, h0,
      List.length_cons] at this ⊢
    rw [Nat.add_mul, this]; omega

theorem runs_entries {s : State} {bk : Bucket} {w : Nat} (ha : s.resolver.answering = true) (es : List Wire.Element) :
    ∀ (d : Intake), (∀ e ∈ es, e.value.length = w) → d.eng.cur + es.length * (2 + w) ≤ d.eng.len →
    s.frameBytes d.eng.cur (Wire.elementsBytes es).length = Wire.elementsBytes es →
    Runs s d (es.length * (2 + w)) (Wire.eventsOf s bk w d.eng.r d.eng.cur es) (entries s bk w es.length d) := by
  induction es with
  | nil =>
    intro d _ _ _
    constructor
    · intro _; simp [entries, Wire.eventsOf, Intake.adv]
    · intro ev _ h; simp [Wire.eventsOf] at h
  | cons e es ih =>
    intro d hw hin hb
    have h0 := hw e (by simp)
    have hb : s.frameBytes d.eng.cur (e.bytes ++ Wire.elementsBytes es).length = e.bytes ++ Wire.elementsBytes es := hb
    have hel : e.bytes.length = 2 + w := by simp [Wire.Element.bytes, h0]
    rw [List.length_cons, Nat.add_mul] at hin
    obtain ⟨b1, b2⟩ := frameBytes_split (n := 2 + w) hb hel
    have r1 := runs_entry (bk := bk) ha h0 (d := d) (by omega) (by rw [hel]; exact b1)
    have r2 := ih (d.adv (2 + w) ((Wire.eventOf s bk w d.eng.r (d.eng.cur + 2) e).toList))
      (fun x hx => hw x (by simp [hx])) (by simp only [Intake.adv]; omega) b2
    have := r1.seq (f := fun d' => entries s bk w es.length d') r2
    rw [show (e :: es).length * (2 + w) = (2 + w) + es.length * (2 + w) by
      rw [List.length_cons, Nat.add_mul]; omega]
    exact this

theorem runs_fixedBucket {s : State} {bk : Bucket} {w : Nat} (ha : s.resolver.answering = true)
    (es : List Wire.Element) (d : Intake) (hf : Wire.fits w es) (hin : d.eng.cur + Wire.bucketSize w es ≤ d.eng.len)
    (hb : s.frameBytes d.eng.cur (Wire.bucketBytes es).length = Wire.bucketBytes es) :
    Runs s d (Wire.bucketSize w es) (Wire.eventsOf s bk w d.eng.r (d.eng.cur + 2) es) (fixedBucket s bk w d) := by
  obtain ⟨b1, b2⟩ := frameBytes_split (n := 2) hb (by simp)
  have hn : beval (beBytes 2 es.length) = es.length := beval_beBytes_of_lt hf.1
  unfold Wire.bucketSize at *
  unfold fixedBucket
  rw [rd_eq_ok (by omega)]
  simp only [b1, hn]
  have r0 : Runs s d 2 [] (.ok (d.adv 2 [])) := ⟨fun _ => rfl, fun ev _ h => by simp at h⟩
  have e0 : d.adv 2 [] = { d with eng := { d.eng with cur := d.eng.cur + 2 } } := by simp [Intake.adv]
  have r := runs_entries (bk := bk) ha es (d.adv 2 []) hf.2 (by simp only [Intake.adv]; omega) b2
  have := r0.seq (f := fun d' => entries s bk w es.length d') r
  simp only [e0, List.nil_append] at this
  exact this

theorem runs_variableBucket {s : State} (ha : s.resolver.answering = true) (r : Wire.Record) (d : Intake)
    (hf : Wire.fits r.x.toNat r.bx) (hin : d.eng.cur + r.variableSize ≤ d.eng.len)
    (hb : s.frameBytes d.eng.cur (Wire.variableBytes r.x r.bx).length = Wire.variableBytes r.x r.bx) :
    Runs s d r.variableSize (Wire.eventsOf s .variable r.x.toNat d.eng.r (d.eng.cur + 4) r.bx)
      (variableBucket s d) := by
  obtain ⟨b1, b2⟩ := frameBytes_split (n := 2) hb (by simp)
  obtain ⟨b3, b4⟩ := frameBytes_split (n := 2) b2 (by simp)
  have hn : beval (beBytes 2 r.bx.length) = r.bx.length := beval_beBytes_of_lt hf.1
  have hx : beval (beBytes 2 r.x.toNat) = r.x.toNat := beval_beBytes_of_lt r.x.isLt
  unfold Wire.Record.variableSize at *
  unfold variableBucket
  rw [rd_eq_ok (by omega)]
  simp only [b1, hn]
  rw [rd_eq_ok (by simp only; omega)]
  simp only [b3, hx]
  have r0 : Runs s d 4 [] (.ok (d.adv 4 [])) := ⟨fun _ => rfl, fun ev _ h => by simp at h⟩
  have e0 : d.adv 4 [] = { d with eng := { d.eng with cur := d.eng.cur + 2 + 2 } } := by simp [Intake.adv]
  have rr := runs_entries (bk := .variable) ha r.bx (d.adv 4 []) hf.2 (by simp only [Intake.adv]; omega)
    (by simpa [Intake.adv, Nat.add_assoc] using b4)
  have := r0.seq (f := fun d' => entries s .variable r.x.toNat r.bx.length d') rr
  simp only [e0, List.nil_append] at this
  simpa [Nat.add_assoc, andThen] using this

theorem length_bucketBytes (w : Nat) (es : List Wire.Element) (h : Wire.fits w es) :
    (Wire.bucketBytes es).length = Wire.bucketSize w es := by
  simp [Wire.bucketBytes, Wire.bucketSize, length_elementsBytes es w h.2]

theorem length_variableBytes (r : Wire.Record) (h : Wire.fits r.x.toNat r.bx) :
    (Wire.variableBytes r.x r.bx).length = r.variableSize := by
  simp [Wire.variableBytes, Wire.Record.variableSize, length_elementsBytes r.bx _ h.2]; omega

/-- The bytes of a record's five buckets (R96). -/
def bucketsSizeOf (r : Wire.Record) : Nat :=
  Wire.bucketSize 1 r.b1 +
    (Wire.bucketSize 2 r.b2 + (Wire.bucketSize 4 r.b4 + (Wire.bucketSize 8 r.b8 + r.variableSize)))

theorem size_eq (r : Wire.Record) : r.size = 28 + bucketsSizeOf r := rfl

theorem runs_buckets {s : State} (ha : s.resolver.answering = true) (r : Wire.Record) (d : Intake) (off : Nat)
    (hoff : d.eng.cur = off + 28) (hf : r.fits) (hin : d.eng.cur + bucketsSizeOf r ≤ d.eng.len)
    (hb : s.frameBytes d.eng.cur r.bucketsBytes.length = r.bucketsBytes) :
    Runs s d (bucketsSizeOf r) (r.events s d.eng.r off) (buckets s d) := by
  obtain ⟨hloc, f1, f2, f4, f8, fx⟩ := hf
  unfold bucketsSizeOf at *
  have l1 := length_bucketBytes 1 _ f1
  have l2 := length_bucketBytes 2 _ f2
  have l4 := length_bucketBytes 4 _ f4
  have l8 := length_bucketBytes 8 _ f8
  obtain ⟨c1, hb⟩ := frameBytes_split hb l1
  obtain ⟨c2, hb⟩ := frameBytes_split hb l2
  obtain ⟨c4, hb⟩ := frameBytes_split hb l4
  obtain ⟨c8, cx⟩ := frameBytes_split hb l8
  have r1 := runs_fixedBucket (bk := .width1) ha r.b1 d f1 (by omega) (by rw [l1]; exact c1)
  let d1 := d.adv (Wire.bucketSize 1 r.b1) (Wire.eventsOf s .width1 1 d.eng.r (d.eng.cur + 2) r.b1)
  have r2 := runs_fixedBucket (bk := .width2) ha r.b2 d1 f2 (by simp only [d1, Intake.adv]; omega)
    (by rw [l2]; exact c2)
  let d2 := d1.adv (Wire.bucketSize 2 r.b2) (Wire.eventsOf s .width2 2 d1.eng.r (d1.eng.cur + 2) r.b2)
  have r4 := runs_fixedBucket (bk := .width4) ha r.b4 d2 f4 (by simp only [d2, d1, Intake.adv]; omega)
    (by rw [l4]; exact c4)
  let d4 := d2.adv (Wire.bucketSize 4 r.b4) (Wire.eventsOf s .width4 4 d2.eng.r (d2.eng.cur + 2) r.b4)
  have r8 := runs_fixedBucket (bk := .width8) ha r.b8 d4 f8 (by simp only [d4, d2, d1, Intake.adv]; omega)
    (by rw [l8]; exact c8)
  let d8 := d4.adv (Wire.bucketSize 8 r.b8) (Wire.eventsOf s .width8 8 d4.eng.r (d4.eng.cur + 2) r.b8)
  have rx := runs_variableBucket ha r d8 fx (by simp only [d8, d4, d2, d1, Intake.adv]; omega) cx
  let g8 := fun a => andThen (fixedBucket s .width8 8 a) (variableBucket s)
  let g4 := fun a => andThen (fixedBucket s .width4 4 a) g8
  let g2 := fun a => andThen (fixedBucket s .width2 2 a) g4
  have q := r1.seq (f := g2) (r2.seq (f := g4) (r4.seq (f := g8) (r8.seq (f := variableBucket s) rx)))
  simp only [d8, d4, d2, d1, Intake.adv, hoff] at q
  simp only [Wire.Record.events]
  exact q

theorem length_headBytes (r : Wire.Record) (h : r.fits) : r.headBytes.length = 28 := by
  simp [Wire.Record.headBytes, h.1]

theorem length_bucketsBytes (r : Wire.Record) (hf : r.fits) : r.bucketsBytes.length = bucketsSizeOf r := by
  obtain ⟨hloc, f1, f2, f4, f8, fx⟩ := hf
  simp only [Wire.Record.bucketsBytes, List.length_append, length_bucketBytes 1 _ f1, length_bucketBytes 2 _ f2,
    length_bucketBytes 4 _ f4, length_bucketBytes 8 _ f8, length_variableBytes r fx, bucketsSizeOf]

theorem length_recordBytes (r : Wire.Record) (hf : r.fits) : r.bytes.length = r.size := by
  simp only [Wire.Record.bytes, List.length_append, length_headBytes r hf, length_bucketsBytes r hf, size_eq]

theorem headAt_wire {s : State} {e : Engine} {r : Wire.Record} (hf : r.fits)
    (hb : s.frameBytes e.cur r.headBytes.length = r.headBytes) :
    headAt s e =
      { ts := r.ts.toNat, sevRaw := r.severity.toNat, recId := r.recId.toNat, totalIo := r.totalIo.toNat } := by
  obtain ⟨c1, hb⟩ := frameBytes_split (n := 8) hb (by simp)
  obtain ⟨c2, hb⟩ := frameBytes_split (n := 1) hb (by simp)
  obtain ⟨c3, hb⟩ := frameBytes_split (n := 15) hb (hf.1)
  obtain ⟨c4, c5⟩ := frameBytes_split (n := 2) hb (by simp)
  simp only [length_beBytes, Nat.add_assoc, Nat.reduceAdd] at c2 c4 c5
  unfold headAt
  rw [c1, c2, c4, c5]
  simp only [beval_singleton]
  rw [beval_beBytes_of_lt r.ts.isLt, beval_beBytes_of_lt r.recId.isLt, beval_beBytes_of_lt r.totalIo.isLt]

/-- d after the record r, whose events are evs (R163, R164). -/
def Intake.advRecord (d : Intake) (r : Wire.Record) (evs : List EventEntry) : Intake :=
  { eng :=
      { d.eng with
        cur := d.eng.cur + r.size, nev := d.eng.nev + evs.length, hi := sevAgg d.eng.hi (sevMap r.severity)
        first := d.eng.nev, mat := (evs.filter (fun e => e.matched)).length, r := d.eng.r + 1 }
    recs := d.recs ++ [r.entry d.eng.nev evs]
    evts := d.evts ++ evs }

/-- A record of the grammar: parsed whole, or stopped at the first event that finds the table full. -/
theorem record_wire {s : State} (ha : s.resolver.answering = true) (r : Wire.Record) (d : Intake) (hf : r.fits)
    (hin : d.eng.cur + r.size ≤ d.eng.len) (hb : s.frameBytes d.eng.cur r.bytes.length = r.bytes) :
    (d.eng.nev + (r.events s d.eng.r d.eng.cur).length ≤ s.params.evtMax →
      record s d = .ok (d.advRecord r (r.events s d.eng.r d.eng.cur))) ∧
    (∀ ev, d.eng.nev ≤ s.params.evtMax →
      (r.events s d.eng.r d.eng.cur)[s.params.evtMax - d.eng.nev]? = some ev →
      record s d = .error (.raised (capacityExceeded (ev.voff - 2)))) := by
  obtain ⟨b1, b2⟩ := frameBytes_split (n := 28) hb (length_headBytes r hf)
  have b1 : s.frameBytes d.eng.cur r.headBytes.length = r.headBytes := by rw [length_headBytes r hf]; exact b1
  rw [size_eq] at hin
  have hh := headAt_wire hf b1
  have hhead : recordHead s d.eng = .ok (headAt s d.eng, d.eng.afterHead s) := recordHead_ok_iff.2 ⟨by omega, rfl, rfl⟩
  have hsev : beval (s.frameBytes (d.eng.cur + 8) 1) = r.severity.toNat := congrArg RecordHead.sevRaw hh
  have hb := runs_buckets ha r { d with eng := d.eng.afterHead s } d.eng.cur rfl hf
    (by simp only [Engine.afterHead]; omega) b2
  have hr : (d.eng.afterHead s).r = d.eng.r := rfl
  have hn : (d.eng.afterHead s).nev = d.eng.nev := rfl
  simp only [hr] at hb
  unfold record
  rw [hhead]
  simp only
  constructor
  · intro h
    rw [hb.ok h]
    simp only [Intake.adv, Intake.advRecord, Engine.afterHead, hh, recordEntry, hsev, BitVec.ofNat_toNat,
      BitVec.setWidth_eq, size_eq, Nat.add_assoc, Wire.Record.entry, Nat.zero_add, Nat.add_sub_cancel_left]
  · intro ev h1 h2
    rw [hb.full ev h1 h2]

theorem recordsBytes_cons (r : Wire.Record) (rs) : Wire.recordsBytes (r :: rs) = r.bytes ++ Wire.recordsBytes rs := rfl

/-- The records of the grammar, one after another (R145, R171). -/
theorem records_wire {s : State} (ha : s.resolver.answering = true) (rs : List Wire.Record) :
    ∀ d : Intake, (∀ r ∈ rs, r.fits) → d.eng.cur + (Wire.recordsBytes rs).length ≤ d.eng.len →
    s.frameBytes d.eng.cur (Wire.recordsBytes rs).length = Wire.recordsBytes rs →
    (d.eng.nev + (Wire.allEvents s d.eng.r d.eng.cur rs).length ≤ s.params.evtMax →
      ∃ d', records s rs.length d = .ok d' ∧
        d'.recs = d.recs ++ Wire.allEntries s d.eng.r d.eng.cur d.eng.nev rs ∧
        d'.evts = d.evts ++ Wire.allEvents s d.eng.r d.eng.cur rs ∧
        d'.eng.nev = d.eng.nev + (Wire.allEvents s d.eng.r d.eng.cur rs).length ∧
        d'.eng.hi = rs.foldl (fun hi r => sevAgg hi (sevMap r.severity)) d.eng.hi) ∧
    (∀ ev, d.eng.nev ≤ s.params.evtMax →
      (Wire.allEvents s d.eng.r d.eng.cur rs)[s.params.evtMax - d.eng.nev]? = some ev →
      records s rs.length d = .error (.raised (capacityExceeded (ev.voff - 2)))) := by
  induction rs with
  | nil =>
    intro d _ _ _
    exact ⟨fun _ => ⟨d, rfl, by simp [Wire.allEntries], by simp [Wire.allEvents], by simp [Wire.allEvents], rfl⟩,
      fun ev _ h => by simp [Wire.allEvents] at h⟩
  | cons r rs ih =>
    intro d hf hin hb
    have fr := hf r (by simp)
    rw [recordsBytes_cons] at hin hb
    obtain ⟨b1, b2⟩ := frameBytes_split (n := r.size) hb (length_recordBytes r fr)
    have b1 : s.frameBytes d.eng.cur r.bytes.length = r.bytes := by rw [length_recordBytes r fr]; exact b1
    rw [List.length_append, length_recordBytes r fr] at hin
    obtain ⟨r1, r2⟩ := record_wire ha r d fr (by omega) b1
    let d1 := d.advRecord r (r.events s d.eng.r d.eng.cur)
    obtain ⟨i1, i2⟩ := ih d1 (fun x hx => hf x (by simp [hx])) (by simp only [d1, Intake.advRecord]; omega) b2
    have e0 : Wire.allEvents s d.eng.r d.eng.cur (r :: rs) =
      r.events s d.eng.r d.eng.cur ++ Wire.allEvents s d1.eng.r d1.eng.cur rs := rfl
    rw [e0]
    simp only [List.length_cons, records, List.length_append]
    constructor
    · intro h
      rw [r1 (by omega)]
      obtain ⟨d', q1, q2, q3, q4, q5⟩ := i1 (by simp only [d1, Intake.advRecord] at h ⊢; omega)
      refine ⟨d', q1, ?_, ?_, ?_, ?_⟩
      · rw [q2]
        simp only [d1, Intake.advRecord, Wire.allEntries, List.append_assoc, List.cons_append, List.nil_append]
      · rw [q3]; simp only [d1, Intake.advRecord, List.append_assoc]
      · rw [q4]; simp only [d1, Intake.advRecord]; omega
      · rw [q5]; rfl
    · intro ev h1 h2
      by_cases hl : s.params.evtMax - d.eng.nev < (r.events s d.eng.r d.eng.cur).length
      · rw [List.getElem?_append_left hl] at h2
        rw [r2 ev h1 h2]
      · rw [List.getElem?_append_right (by omega)] at h2
        rw [r1 (by omega)]
        simp only
        refine i2 ev (by simp only [d1, Intake.advRecord]; omega) ?_
        simp only [d1, Intake.advRecord]
        rw [← Nat.sub_sub]
        exact h2

/-! ## The entries of the tables, word by word -/

theorem length_allEntries (s : State) (i off first : Nat) (rs : List Wire.Record) :
    (Wire.allEntries s i off first rs).length = rs.length := by
  induction rs generalizing i off first with
  | nil => rfl
  | cons r rs ih => simp only [Wire.allEntries, List.length_cons, ih]

/-- Every entry is that of the record with its index. -/
theorem entry_of_allEntries {s : State} {rs : List Wire.Record} {i off first n : Nat} {w : Wire.Record} {e : RecordEntry}
    (hw : rs[n]? = some w) (he : (Wire.allEntries s i off first rs)[n]? = some e) : ∃ f evs, e = w.entry f evs := by
  induction rs generalizing i off first n with
  | nil => cases hw
  | cons r rs ih =>
    cases n with
    | zero => cases hw; cases he; exact ⟨_, _, rfl⟩
    | succ n => exact ih hw he

theorem sevWord_parts (h : Severity) (b : Byte) :
    ((0#16 ++ h.pattern ++ b : Word).extractLsb' 0 8 = b) ∧ ((0#16 ++ h.pattern ++ b : Word).extractLsb' 8 8 = h.pattern) ∧
    ((0#16 ++ h.pattern ++ b : Word).extractLsb' 16 16 = 0#16) := by
  refine ⟨?_, ?_, ?_⟩ <;> apply BitVec.eq_of_getLsbD_eq <;> intro k hk <;>
    simp <;> grind

theorem pattern_toInt (h : Severity) : h.pattern.toInt = h.toInt := by cases h <;> rfl

/-- A table that holds the words of a record's entry holds the record. -/
theorem record_stands_of_words {t : State} {r f : Nat} {w : Wire.Record} {evs : List EventEntry}
    (h : ∀ k v, (w.entry f evs).words[k]? = some v → t.readWord (0x30000 + 32 * r + 4 * k) = v) :
    w.stands t r (w.entry f evs) := by
  obtain ⟨h1, h2, h3⟩ := sevWord_parts (sevMap w.severity) w.severity
  have h7 : t.readWord (0x30000 + 32 * r + 0x1C) = _ := h 7 _ rfl
  exact ⟨(congrArg BitVec.toNat (h 0 _ rfl)).trans (BitVec.toNat_setWidth_of_le (by decide)),
    (congrArg BitVec.toNat (h 1 _ rfl)).trans (BitVec.toNat_setWidth_of_le (by decide)),
    h 2 _ rfl, h 3 _ rfl, h 4 _ rfl, h 5 _ rfl, h 6 _ rfl, (congrArg _ h7).trans h1,
    (congrArg (fun v : Word => (v.extractLsb' 8 8).toInt) h7).trans ((congrArg BitVec.toInt h2).trans (pattern_toInt _)),
    (congrArg _ h7).trans h3⟩

theorem toNat_append_half (a b : Half) : (a ++ b : Word).toNat = b.toNat + 2 ^ 16 * a.toNat := by
  rw [BitVec.toNat_append, ← Nat.shiftLeft_add_eq_or_of_lt b.isLt, Nat.shiftLeft_eq]
  omega

theorem toNat_desc (e : EventEntry) :
    e.desc.toNat = e.paramId.toNat + 2 ^ 16 * Wire.bucketCode e.bucket + 2 ^ 24 * e.matched.toNat := by
  have hi : (0#7 ++ BitVec.ofBool e.matched ++ 0#5 ++ e.bucket.code : Half).toNat =
      Wire.bucketCode e.bucket + 2 ^ 8 * e.matched.toNat := by cases e.bucket <;> cases e.matched <;> rfl
  have := toNat_append_half (0#7 ++ BitVec.ofBool e.matched ++ 0#5 ++ e.bucket.code) e.paramId
  rw [hi] at this
  exact this.trans (by omega)

/-- A table that holds the words of an event's entry holds the event. -/
theorem event_stands_of_words {t : State} {n : Nat} {e : EventEntry}
    (h : ∀ k v, e.words[k]? = some v → t.readWord (0x40000 + 32 * n + 4 * k) = v) : Wire.eventStands t n e :=
  ⟨(congrArg BitVec.toNat (h 0 _ rfl)).trans (toNat_desc e), h 1 _ rfl, h 2 _ rfl, h 3 _ rfl, h 4 _ rfl, h 5 _ rfl,
    h 6 _ rfl, h 7 _ rfl⟩

end Sys2Proof.Machine
end

