-- ==== Sys2Proof/Machine/HostProgram.lean ====
section
/-! DEFINITION. The host program notation (30_encoding.md R107, R108): a line is one bus transaction at an aperture offset,
and the pseudo-instructions are lists of them. The block does not know the notation: a program is the events it stands for. -/

namespace Sys2Proof.Machine

/-- `W32 off, v` (R107). -/
def hostW32 (p : Params) (off : Nat) (v : Word) : Event := .access (.write 32 (p.blockBase + off) v)

/-- `W8 off, v` (R107). -/
def hostW8 (p : Params) (off : Nat) (b : Byte) : Event := .access (.write 8 (p.blockBase + off) (b.setWidth 32))

/-- `R32 off` (R107). -/
def hostR32 (p : Params) (off : Nat) : Event := .access (.read 32 (p.blockBase + off))

/-- `R8 off` (R107). -/
def hostR8 (p : Params) (off : Nat) : Event := .access (.read 8 (p.blockBase + off))

/-- `POLL` (R108): busyReads reads of STATUS that still see BUSY = 1, the engine's move, and the read that sees BUSY = 0.
How many reads come before the commit is LATENCY's (log 7). -/
def hostPoll (p : Params) (busyReads : Nat) : List Event :=
  List.replicate busyReads (hostR32 p 0x008) ++ [.engine, hostR32 p 0x008]

/-- `RUN op` (R108). -/
def hostRun (p : Params) (busyReads : Nat) (op : Word) : List Event := hostW32 p 0x004 op :: hostPoll p busyReads

/-- Byte writes from an offset upwards. -/
def hostBytes (p : Params) : Nat → List Byte → List Event
  | _, [] => []
  | off, b :: bs => hostW8 p off b :: hostBytes p (off + 1) bs

/-- Word writes from an offset upwards. -/
def hostWords (p : Params) : Nat → List Word → List Event
  | _, [] => []
  | off, w :: ws => hostW32 p off w :: hostWords p (off + 4) ws

/-- `LOADIN b0 b1 …` (R108). -/
def hostLoadIn (p : Params) (bs : List Byte) : List Event :=
  hostBytes p 0x10000 bs ++ [hostW32 p 0x010 (BitVec.ofNat 32 bs.length)]

/-- `SETISET id0 …` (R108). -/
def hostSetIset (p : Params) (ids : List Word) : List Event :=
  hostWords p 0x01000 ids ++ [hostW32 p 0x014 (BitVec.ofNat 32 ids.length)]

/-- `CLRDONE` (R108). -/
def hostClrDone (p : Params) : Event := hostW32 p 0x008 0x2#32

/-- A host program to come: its events are put before those of s from outside (log 17). -/
def State.withProgram (s : State) (events : List Event) : State := { s with env := events ++ s.env }

end Sys2Proof.Machine
end

