-- ==== Sys2Proof/Tests/Slice0.lean ====
section
/-! SUPPORT. The model's own tests: ill-formed terms refused, words written out from the encoding, single steps with the
values of 95_test_vectors.md, and for every statement with hypotheses a witness that meets them. -/

namespace Sys2Proof.Tests

open Sys2Proof.Machine Host.Outcome

-- One theorem after another: elaborated at once, the tests ask for more threads than the memory limit lets start.
set_option Elab.async false

/-! ## Helpers -/

/-- RES_ALL of 95_test_vectors.md: every ID is its own handle. -/
def resAll : Resolver := { answering := true, rows := [{ lo := 0x0000#16, hi := 0xFFFF#16, base := 0#32 }] }

/-- Right after reset with the bytes bs in IN, IN_LEN their number, and RES_ALL. -/
def loaded (bs : List Byte) : State :=
  { State.reset with mem := bytesAt inBase bs, inLen := BitVec.ofNat 32 bs.length, resolver := resAll }

/-- Right after reset with IN_LEN = n. -/
def sized (n : Nat) : State := { State.reset with inLen := BitVec.ofNat 32 n }

/-- The bytes of the numbers. -/
def raw (ns : List Nat) : List Byte := ns.map (BitVec.ofNat 8)

/-- Eight zero bytes, a region, and its checksum. -/
def checked (region : List Byte) : List Byte := beBytes 8 0 ++ region ++ beBytes 4 (crc16 region).toNat

/-- A region of n bytes: tag, count and zero bytes. -/
def regionOf (tag : Byte) (count : Byte) (n : Nat) : List Byte := (tag :: count :: List.replicate (n - 2) 0#8).take n

/-- The literal of V-L1-1. -/
def getinfoFrame : List Byte :=
  raw [0, 0, 0, 0, 0, 0, 0, 0x0F, 0x0C, 1, 5, 0, 0, 0, 7, 0x67, 0x65, 0x74, 0x69, 0x6E, 0x66, 0x6F, 1, 0, 0, 0x43, 0x12]

/-- V-C8E-16's frame: one variable entry of width 10. -/
def variableFrame : List Byte :=
  raw [0, 0, 0, 0, 0, 0, 0, 0x36, 0x8E, 1, 0, 0, 0, 0, 0, 0, 0, 0, 0, 0, 0, 0, 0, 0, 0, 0, 0, 0, 0, 0, 0, 0, 0, 0] ++
  raw [0, 0x30, 0, 1, 0, 0, 0, 0, 0, 0, 0, 0, 0, 1, 0, 0x0A, 3, 1, 1, 2, 3, 4, 5, 6, 7, 8, 9, 0x0A, 0, 0, 0xE2, 0xEA]

/-- V-C8E-8's frame: it ends in the location block of its one record. -/
def truncatedFrame : List Byte :=
  raw [0, 0, 0, 0, 0, 0, 0, 0x0B, 0x8E, 1, 0x11, 0x22, 0x33, 0x44, 0x55, 0x66, 0x77, 0x88, 2, 0, 0, 0x66, 0xC6]

/-- The state an operation answers, or s when it stops. -/
def ran (i : Instr) (s : State) : State :=
  match exec i s with
  | .next t => t
  | _ => s

/-- An operation goes on. -/
def goes (i : Instr) (s : State) : Bool :=
  match exec i s with
  | .next _ => true
  | _ => false

theorem exec_ran {i : Instr} {s : State} (h : goes i s = true) : exec i s = next (ran i s) := by
  unfold goes at h
  unfold ran
  split at h
  · rename_i heq; simp only [heq]
  · cases h

/-- The state of the step of an accepted word, the word first among the events. -/
def stepped (s : State) (w : Nat) : State :=
  match step (s.withFetchWord 32 w) with
  | .next t => t
  | _ => s

/-- After a host write of 32 bits at an aperture offset. -/
def wrote (s : State) (off : Nat) (v : Word) : State := s.busWrite 32 off v

/-- The running C8E_DECODE of V-C8E-16's frame. -/
def decoding : State := wrote (loaded variableFrame) 0x004 0x3#32

/-- The running FILTER_PROBE after reset. -/
def probing : State := wrote State.reset 0x004 0x6#32

/-! ## Well-formedness: each check refuses an ill-formed term -/

theorem test_wf_ref : Params.ref.wellFormed = true := by decide +kernel
theorem test_wf_inSize :
    ({ Params.ref with inSize := 15 }).wellFormed = false ∧ ({ Params.ref with inSize := 65537 }).wellFormed = false := by decide +kernel
theorem test_wf_outSize :
    ({ Params.ref with outSize := 19 }).wellFormed = false ∧ ({ Params.ref with outSize := 65537 }).wellFormed = false := by decide +kernel
theorem test_wf_evtMax :
    ({ Params.ref with evtMax := 0 }).wellFormed = false ∧ ({ Params.ref with evtMax := 8193 }).wellFormed = false := by decide +kernel
theorem test_wf_interestMax :
    ({ Params.ref with interestMax := 0 }).wellFormed = false ∧
    ({ Params.ref with interestMax := 1025 }).wellFormed = false := by decide +kernel
theorem test_wf_blockBase : ({ Params.ref with blockBase := 0x80000 }).wellFormed = false := by decide +kernel
theorem test_wf_reservedOp : reservedOp 0x0#4 = true ∧ reservedOp 0x6#4 = false ∧ reservedOp 0x7#4 = true ∧
    reservedOp 0xF#4 = true := by decide +kernel
theorem test_wf_everyOperation : ∀ i : Instr, i.wellFormed = true := by intro i; cases i <;> decide

/-! ## Decoding: words written out from R91 -/

theorem test_decode_crcCompute : decode 0b00000000000000000000000000000001#32 = .ok .crcCompute := by decide +kernel
theorem test_decode_crcVerify : decode 0b11111111111111111111111111110010#32 = .ok .crcVerify := by decide +kernel
theorem test_decode_c8eDecode : decode 0b00000000000000000000000000010011#32 = .ok .c8eDecode := by decide +kernel
theorem test_decode_c12Encode : decode 0b10000000000000000000000000000100#32 = .ok .c12Encode := by decide +kernel
theorem test_decode_c12Decode : decode 0b00000000000000000000000000000101#32 = .ok .c12Decode := by decide +kernel
theorem test_decode_filterProbe : decode 0b00000000000000000000000000010110#32 = .ok .filterProbe := by decide +kernel
theorem test_decode_reserved : decode 0b00000000000000000000000000010111#32 = .error (.reservedOp 7#4) := by decide +kernel
theorem test_decodeTableWord :
    decodeTableWord 32 3 = some .c8eDecode ∧ decodeTableWord 8 0x1005 = some .c12Decode ∧ decodeTableWord 32 8 = none := by decide +kernel

/-! ## One step of each operation, with the values of 95_test_vectors.md -/

/-- V-CRC-2. -/
theorem test_crcCompute_check :
    (stepped (loaded (raw [0x31, 0x32, 0x33, 0x34, 0x35, 0x36, 0x37, 0x38, 0x39])) 1).crcValue = 0xBB3D#16 := by
  decide +kernel

/-- V-VER-7: the comparison is of 32 bits. -/
theorem test_crcVerify_upperBytes :
    let t := stepped (loaded (getinfoFrame.set 24 1#8)) 2
    t.readReg .status = 0x22#32 ∧ t.crcDecl = 0x00014312#32 ∧ t.crcValue = 0x4312#16 := by decide +kernel

/-- V-C8E-16: a value wider than 64 bits. -/
theorem test_c8eDecode_variable :
    let t := stepped (loaded variableFrame) 3
    t.readReg .status = 0x0A#32 ∧ t.fr.nevt = 1#32 ∧ t.readWord 0x40000 = 0x00040301#32 ∧
      t.readWord 0x40008 = 0x0708090A#32 ∧ t.readWord 0x4000C = 0x03040506#32 ∧ t.readWord 0x40010 = 52#32 ∧
      t.readWord 0x40014 = 10#32 ∧ t.readWord 0x30000 = 0x30#32 := by decide +kernel

/-- V-C8E-8: the location block passes L. -/
theorem test_c8eDecode_truncated :
    let t := stepped (loaded truncatedFrame) 3
    t.readReg .status = 0x32#32 ∧ t.errPos = 19#32 ∧ t.readReg .frHipri = 0xFF#32 := by decide +kernel

/-- V-L1-1: the source's literal. -/
theorem test_c12Encode_getinfo :
    let t := stepped (loaded (raw [0x67, 0x65, 0x74, 0x69, 0x6E, 0x66, 0x6F])) 4
    (List.range 27).map (fun k => t.readByte (0x20000 + k)) = getinfoFrame ∧ t.outLen = 27#32 ∧ t.crcValue = 0x4312#16 := by
  decide +kernel

/-- V-DEC-1: the rules' result for the command frame. -/
theorem test_c12Decode_getinfo :
    let t := stepped (loaded getinfoFrame) 5
    t.readReg .status = 0x0A#32 ∧ t.rsp = { dataSize := 15#32, qty := 1#8, type := 5#8, len := 7#32 } ∧
      t.readByte 0x20000 = 0x67#8 ∧ t.readByte 0x20006 = 0x6F#8 := by decide +kernel

/-- FILTER_PROBE of a member of {0x18, 0x45} (V-FLT). -/
theorem test_filterProbe_member :
    (stepped (wrote (wrote (wrote (wrote State.reset 0x01000 0x18#32) 0x01004 0x45#32) 0x014 2#32) 0x018 0x45#32) 6).readReg
      .probeResult = 3#32 := by decide +kernel

/-- V-OP-7: IllegalOp keeps ERR_POS. -/
theorem test_illegalOp_keepsErrPos :
    let t := wrote (stepped (loaded truncatedFrame) 3) 0x004 0x9#32
    t.errPos = 19#32 ∧ t.readReg .status = 0x52#32 ∧ t.cmdOp = 9#4 := by decide +kernel

/-- V-WERR-1, V-WERR-6, V-WERR-7 and V-WERR-8, but for the frame. -/
theorem test_werr :
    let t := ran .c8eDecode (wrote decoding 0x010 5#32)
    (wrote decoding 0x010 5#32).inLen = 66#32 ∧ t.readReg .status = 0x0E#32 ∧
      (wrote t 0x008 4#32).readReg .status = 0x0A#32 ∧ (wrote t 0x008 6#32).readReg .status = 0x08#32 := by decide +kernel

/-- V-REG-1 to V-REG-3 and V-REG-5. -/
theorem test_registers :
    (wrote State.reset 0x014 0x3E8#32).readReg .isetCount = 0x40#32 ∧
    (wrote State.reset 0x00C 0xFFFFFFFF#32).readReg .cfg = 3#32 ∧
    (wrote State.reset 0x018 0xFFFFFFFF#32).readReg .probeId = 0xFFFF#32 ∧
    (State.reset.busRead 32 0x068).resp = .readOk 0x400#32 := by decide +kernel

/-- V-BUS-1 to V-BUS-7. -/
theorem test_busErrors :
    (State.reset.busRead 8 0x008).resp = .readError 0#32 ∧ (State.reset.busRead 32 0x10001).resp = .readError 0#32 ∧
    (State.reset.busWrite 32 0x20000 0#32).resp = .writeError ∧ (State.reset.busRead 32 0x01C).resp = .readError 0#32 ∧
    (State.reset.busWrite 32 0x01100 1#32).resp = .writeError ∧ (State.reset.busWrite 8 0x11000 0#32).resp = .writeError ∧
    (State.reset.busWrite 8 0x30000 0#32).resp = .writeError := by decide +kernel

/-- R108's expansions, on P4's lines. -/
theorem test_hostProgram :
    hostLoadIn Params.ref (raw [0x31, 0x32]) =
      [.access (.write 8 0x10000 0x31#32), .access (.write 8 0x10001 0x32#32), .access (.write 32 0x010 2#32)] ∧
    hostSetIset Params.ref [0x18#32, 0x44#32] =
      [.access (.write 32 0x01000 0x18#32), .access (.write 32 0x01004 0x44#32), .access (.write 32 0x014 2#32)] ∧
    hostRun Params.ref 0 0x16#32 = [.access (.write 32 0x004 0x16#32), .engine, .access (.read 32 0x008)] := by decide +kernel

/-! ## Witnesses: concrete states that meet the hypotheses of the statements -/

theorem witness_DecodeReadsOpFieldAndInvertsEncode : Instr.filterProbe.wellFormed = true := by decide +kernel

theorem witness_OpTableRowsAreDisjoint :
    ∃ w r, r ∈ opTable ∧ OpRow.selects r w = true :=
  ⟨0xFFFFFFF6#32, { mask := 0x0000000F#32, pattern := 0x00000006#32, instr := .filterProbe }, by decide +kernel, by decide +kernel⟩

theorem witness_EngineStepRunsTheDecodedOperation :
    (∃ e, decoding.nextEvent = .engine ∧ decoding.eng = some e ∧ decode (e.op.setWidth 32) = .ok .c8eDecode) ∧
    decode (BitVec.ofNat 32 (0xF3 % 2 ^ 32)) = .ok .c8eDecode :=
  ⟨⟨Engine.accepted 3#4 66, by decide +kernel, by decide +kernel, by decide +kernel⟩, by decide +kernel⟩

/-- BLOCK_BASE at 1 MiB, one access to come. -/
def based (r : Bool) (a : Access) : State :=
  { State.reset with params := { Params.ref with blockBase := 0x100000 }, rst := r, env := [.access a] }

theorem witness_StepTakesTheNextHostAccess :
    (∀ addr, addr ∈ [0x100000, 0x1FFFFF] → (based false (.read 32 addr)).rst = false ∧
      (based false (.read 32 addr)).params.blockBase ≤ addr ∧
      addr < (based false (.read 32 addr)).params.blockBase + 0x100000 ∧
      (based false (.read 32 addr)).env = .access (.read 32 addr) :: [] ∧
      (based false (.write 8 addr 1#32)).env = .access (.write 8 addr 1#32) :: []) ∧
    (∀ addr, addr ∈ [0xFFFFF, 0x200000] → (based false (.read 32 addr)).rst = false ∧
      (addr < (based false (.read 32 addr)).params.blockBase ∨
        (based false (.read 32 addr)).params.blockBase + 0x100000 ≤ addr)) ∧
    (based true (.read 32 0)).rst = true := by decide +kernel

theorem witness_CrcIsLinearOverXor : [0x12#8, 0x34#8].length = [0x56#8, 0x78#8].length := by decide +kernel

theorem witness_CrcDetectsEveryOneByteChange :
    (0x80#8 : Byte) ≠ 0#8 ∧ ∃ (h : 1 < [0x12#8, 0x34#8].length), (0x35#8 : Byte) ≠ [0x12#8, 0x34#8][1] :=
  ⟨by decide +kernel, by decide +kernel, by decide +kernel⟩

theorem witness_VerifyFailsAfterAnyOneByteChange :
    let s := loaded getinfoFrame
    s.inLen.toNat ≤ s.params.inSize ∧ 12 ≤ s.inLen.toNat ∧ (verify s s.inLen.toNat).ok = true ∧
    (8 ≤ 8 ∧ 8 + 4 < s.inLen.toNat ∧ (0#8 : Byte) ≠ s.frameByte 8) ∧
    (8 ≤ 22 ∧ 22 + 4 < s.inLen.toNat ∧ (0#8 : Byte) ≠ s.frameByte 22) := by decide +kernel

theorem witness_CrcComputeCommitsTheCrcOfIn :
    State.reset.inLen = 0#32 ∧
    (sized 4096).inLen.toNat ≤ (sized 4096).params.inSize ∧ (sized 4097).params.inSize < (sized 4097).inLen.toNat := by decide +kernel

theorem witness_CrcVerifyCommitsTheChecksumOutcome :
    (sized 4097).params.inSize < (sized 4097).inLen.toNat ∧
    ((sized 11).inLen.toNat ≤ (sized 11).params.inSize ∧ (sized 11).inLen.toNat < 12) ∧
    ((loaded (checked [])).inLen.toNat ≤ (loaded (checked [])).params.inSize ∧ 12 ≤ (loaded (checked [])).inLen.toNat ∧
      0#16 = crc16 ((loaded (checked [])).frameBytes 8 ((loaded (checked [])).inLen.toNat - 4 - 8)) ∧
      0 = beval ((loaded (checked [])).frameBytes ((loaded (checked [])).inLen.toNat - 4) 4)) := by decide +kernel

/-- An interest set of one ID, 5, with DISCARD as given. -/
def interested (discard : Bool) (pid : Half) : State :=
  { State.reset with
    mem := bytesAt isetBase (lanes 5#32), isetCount := 1#32, cfg := { discard := discard, ie := true }, probeId := pid }

theorem witness_FilterProbeCommitsMatchAndRetain :
    State.reset.isetCount = 0#32 ∧
    ((interested true 5#16).isetCount ≠ 0#32 ∧ (interested true 5#16).isMatch (interested true 5#16).probeId = true) ∧
    ((interested true 6#16).isetCount ≠ 0#32 ∧ (interested true 6#16).isMatch (interested true 6#16).probeId = false) := by
  decide +kernel

theorem witness_SeverityMapFollowsTheTable : 0x03#8 ≤ (0xFF#8 : Byte) := by decide +kernel

theorem witness_AggregateIsTheSignedMaximum :
    [Severity.notDetermined, .panic].Perm [Severity.panic, .notDetermined] := by decide +kernel

/-- Eight zero bytes, a tag and n zero bytes in IN. -/
def tagged (tag : Byte) (n : Nat) : State := loaded (List.replicate 8 0#8 ++ tag :: List.replicate n 0#8)

/-- The conditions of the gates of a decode of frames tagged tag, each met at its boundary. -/
abbrev GateWitness (tag : Byte) : Prop :=
  (sized 4097).params.inSize < (sized 4097).inLen.toNat ∧
  ((sized 8).inLen.toNat ≤ (sized 8).params.inSize ∧ (sized 8).inLen.toNat < 9) ∧
  (∀ n, n ∈ [0, 3] → 9 ≤ (tagged 0#8 n).inLen.toNat ∧ (tagged 0#8 n).inLen.toNat ≤ (tagged 0#8 n).params.inSize ∧
    (tagged 0#8 n).frameByte 8 ≠ tag) ∧
  (∀ n, n ∈ [0, 2] → (tagged tag n).inLen.toNat ≤ (tagged tag n).params.inSize ∧ 9 ≤ (tagged tag n).inLen.toNat ∧
    (tagged tag n).inLen.toNat < 12 ∧ (tagged tag n).frameByte 8 = tag) ∧
  ((tagged tag 3).inLen.toNat ≤ (tagged tag 3).params.inSize ∧ 12 ≤ (tagged tag 3).inLen.toNat ∧
    (tagged tag 3).frameByte 8 = tag ∧
    (crc16 ((tagged tag 3).frameBytes 8 ((tagged tag 3).inLen.toNat - 12))).toNat ≠
      beval ((tagged tag 3).frameBytes ((tagged tag 3).inLen.toNat - 4) 4))

theorem witness_C8eGatesShortCircuitInOrder : GateWitness 0x8E#8 := by decide +kernel
theorem witness_C12GatesShortCircuitInOrder : GateWitness 0x0C#8 := by decide +kernel

theorem witness_FieldReadIsBoundedByTheFrame :
    (Engine.accepted 3#4 12).cur + 12 ≤ (Engine.accepted 3#4 12).len ∧
    (Engine.accepted 3#4 12).len < (Engine.accepted 3#4 12).cur + 13 := by decide +kernel

/-- A frame of n bytes that verifies and declares one record. -/
def shortFrame (n : Nat) : State := loaded (checked (regionOf 0x8E#8 1#8 (n - 12)))

theorem witness_TruncatedRecordHeaderIsMalformedAtItsField :
    ∀ c, c ∈ [(10, 8, 14), (10, 8, 17), (18, 1, 18), (19, 15, 19), (19, 15, 33), (34, 2, 34), (34, 2, 35), (36, 2, 36),
        (36, 2, 37), (38, 2, 38), (38, 2, 39)] →
      (c.1, c.2.1) ∈ [(10, 8), (18, 1), (19, 15), (34, 2), (36, 2), (38, 2)] ∧
      (shortFrame c.2.2).inLen.toNat ≤ (shortFrame c.2.2).params.inSize ∧ 12 ≤ (shortFrame c.2.2).inLen.toNat ∧
      (shortFrame c.2.2).frameByte 8 = 0x8E#8 ∧ (verify (shortFrame c.2.2) (shortFrame c.2.2).inLen.toNat).ok = true ∧
      (shortFrame c.2.2).frameByte 9 ≠ 0#8 ∧ c.1 ≤ (shortFrame c.2.2).inLen.toNat ∧
      (shortFrame c.2.2).inLen.toNat < c.1 + c.2.1 := by decide +kernel

/-- A parse at the start of IN. -/
def intake (n : Nat) : Intake := { eng := Engine.accepted 3#4 n, recs := [], evts := [] }

/-- A result's value, or d. -/
def valueOf {ε α : Type} (d : α) : Except ε α → α
  | .ok a => a
  | .error _ => d

/-- A result is a value. -/
def isValue {ε α : Type} : Except ε α → Bool
  | .ok _ => true
  | .error _ => false

theorem eq_valueOf {ε α : Type} {d : α} {x : Except ε α} (h : isValue x = true) : x = .ok (valueOf d x) := by
  cases x with
  | ok a => rfl
  | error e => cases h

theorem witness_BucketsConsumeTheirDeclaredBytes :
    (∃ d', fixedBucket (loaded (raw [0, 1, 0, 7, 0xAA])) .width1 1 (intake 5) = .ok d') ∧
    (∃ d', variableBucket (loaded (raw [0, 2, 0, 1, 0, 7, 0xAA, 0, 8, 0xBB])) (intake 10) = .ok d') :=
  ⟨⟨_, eq_valueOf (d := intake 0) (by decide +kernel)⟩, ⟨_, eq_valueOf (d := intake 0) (by decide +kernel)⟩⟩

/-- The engine's parse of V-C8E-16's frame. -/
def variableEngine : Engine := Engine.accepted 3#4 66

/-- The same frame under an interest set and a resolver that knows nothing. -/
def unknowing : State :=
  { interested true 0#16 with
    mem := bytesAt isetBase (lanes 5#32) ++ bytesAt inBase variableFrame, resolver := { answering := true, rows := [] } }

theorem witness_FilterNeverChangesTheParse :
    (∀ k, k < variableEngine.len → unknowing.frameByte k = (loaded variableFrame).frameByte k) ∧
    (∃ p, parseFrame (loaded variableFrame) variableEngine = .ok p) ∧ ∃ p', parseFrame unknowing variableEngine = .ok p' :=
  ⟨by decide +kernel, ⟨_, eq_valueOf (d := { payloadLen := 0, nrec := 0, intake := intake 0 }) (by decide +kernel)⟩,
    ⟨_, eq_valueOf (d := { payloadLen := 0, nrec := 0, intake := intake 0 }) (by decide +kernel)⟩⟩

/-- A record with one entry of width 1 and one of width 2. -/
def sampleRecord : Wire.Record :=
  { ts := 5#64, severity := 1#8, location := List.replicate 15 0#8, recId := 7#16, totalIo := 2#16
    b1 := [{ id := 9#16, value := [0xAA#8] }], b2 := [{ id := 10#16, value := [1#8, 2#8] }], b4 := [], b8 := [], x := 0#16
    bx := [] }

/-- Its frame in IN, with EVT_MAX = n and no trailing byte. -/
def sampleState (n : Nat) : State :=
  { loaded (Wire.frame (beBytes 4 0) 49#32 [sampleRecord] []) with params := { Params.ref with evtMax := n } }

/-- The hypotheses the two statements on frames of the grammar share. -/
theorem sampleState_frame (n : Nat) (h : n ∈ [1, 2]) :
    (sampleState n).params.wellFormed = true ∧ (sampleState n).resolver.answering = true ∧ (beBytes 4 0).length = 4 ∧
    [sampleRecord].length < 256 ∧ (∀ r ∈ [sampleRecord], r.fits) ∧
    (sampleState n).inLen.toNat = (Wire.frame (beBytes 4 0) 49#32 [sampleRecord] []).length ∧
    (sampleState n).inLen.toNat ≤ (sampleState n).params.inSize ∧
    (sampleState n).frameBytes 0 (sampleState n).inLen.toNat = Wire.frame (beBytes 4 0) 49#32 [sampleRecord] [] := by
  simp only [List.mem_cons, List.not_mem_nil, or_false] at h
  rcases h with rfl | rfl <;> refine ⟨by decide +kernel, by decide +kernel, by decide +kernel, by decide +kernel, ?_, by decide +kernel, by decide +kernel,
    by decide +kernel⟩ <;> intro r hr <;> rw [List.mem_singleton.1 hr] <;> unfold Wire.Record.fits Wire.fits <;> decide

/-- The event of the sample record's entry of width 2 (R162): its value stands at offset 47. -/
def secondEvent : EventEntry :=
  { paramId := 10#16, bucket := .width2, matched := false, handle := 10#32, val := 0x0102#64, voff := 47, vlen := 2
    recIndex := 0 }

theorem witness_C8eDecodesEveryFrameOfTheWireGrammar :
    (Wire.allEvents (sampleState 2) 0 10 [sampleRecord]).length ≤ (sampleState 2).params.evtMax ∧
    (∃ e, (Wire.allEntries (sampleState 2) 0 10 0 [sampleRecord])[0]? = some e ∧ e.nEvents = 2) ∧
    ∃ e, (Wire.allEvents (sampleState 2) 0 10 [sampleRecord])[1]? = some e ∧ e.bucket = .width2 :=
  ⟨by decide +kernel, ⟨sampleRecord.entry 0 (Wire.allEvents (sampleState 2) 0 10 [sampleRecord]), by decide +kernel,
    by decide +kernel⟩, secondEvent, by decide +kernel, rfl⟩

theorem witness_C8eFullEventTableIsCapacityExceeded :
    ∃ ev, (Wire.allEvents (sampleState 1) 0 10 [sampleRecord])[(sampleState 1).params.evtMax]? = some ev :=
  ⟨secondEvent, by decide +kernel⟩

theorem witness_C8eTablesAgreeWithTheFrameRegisters :
    ∃ s t : State, s.params.wellFormed = true ∧ exec .c8eDecode s = next t ∧ t.status.result = .noError ∧ t.fr.nrec ≠ 0#8 :=
  ⟨sampleState 2, _, by decide +kernel, exec_ran (by decide +kernel), by decide +kernel, by decide +kernel⟩

theorem witness_C8eChangesOnlyItsResults :
    ∃ s t : State, s.params.wellFormed = true ∧ exec .c8eDecode s = next t :=
  ⟨loaded truncatedFrame, _, by decide +kernel, exec_ran (by decide +kernel)⟩

theorem witness_C12EncodeWritesTheCommandFrame :
    ((sized 4076).inLen.toNat ≤ (sized 4076).params.inSize ∧
      20 + (sized 4076).inLen.toNat ≤ (sized 4076).params.outSize) ∧
    ((sized 4077).inLen.toNat ≤ (sized 4077).params.inSize ∧
      (sized 4077).params.outSize < 20 + (sized 4077).inLen.toNat) ∧
    (sized 4097).params.inSize < (sized 4097).inLen.toNat := by decide +kernel

/-- A response of payload length p of which n payload bytes are there, OUT_SIZE = 20. -/
def response (p n : Nat) : State :=
  { loaded (checked (raw [0x0C, 1, 6] ++ beBytes 4 p ++ List.replicate n 0x41#8 ++ [1#8])) with
    params := { Params.ref with outSize := 20 } }

/-- A response that ends inside its length field. -/
def headless (n : Nat) : State := loaded (checked (regionOf 0x0C#8 0#8 (n - 12)))

theorem witness_C12DecodeReportsTheResponse :
    (∀ s, s ∈ [headless 13, headless 14, headless 15, response 25 19, response 21 21, response 20 20, response 0 0] →
      s.inLen.toNat ≤ s.params.inSize ∧ 12 ≤ s.inLen.toNat ∧ s.frameByte 8 = 0x0C#8 ∧
      (crc16 (s.frameBytes 8 (s.inLen.toNat - 12))).toNat = beval (s.frameBytes (s.inLen.toNat - 4) 4)) ∧
    (headless 14).inLen.toNat < 15 ∧
    (15 ≤ (headless 15).inLen.toNat ∧ (headless 15).inLen.toNat < 15 + beval ((headless 15).frameBytes 11 4)) ∧
    (15 ≤ (response 25 19).inLen.toNat ∧ (response 25 19).inLen.toNat = 14 + beval ((response 25 19).frameBytes 11 4)) ∧
    (15 + beval ((response 21 21).frameBytes 11 4) ≤ (response 21 21).inLen.toNat ∧
      (response 21 21).params.outSize < beval ((response 21 21).frameBytes 11 4)) ∧
    (15 + beval ((response 20 20).frameBytes 11 4) ≤ (response 20 20).inLen.toNat ∧
      beval ((response 20 20).frameBytes 11 4) ≤ (response 20 20).params.outSize) := by decide +kernel

theorem witness_MutatedResponseFailsByPosition :
    ∃ s t : State, exec .c12Decode s = next t ∧ t.status.result = .noError ∧ s.inLen.toNat = 27 ∧
      ∀ k, k ∈ [0, 4, 7, 8, 9, 22, 23, 26] → k < s.inLen.toNat ∧ (0xEE#8 : Byte) ≠ s.frameByte k :=
  ⟨loaded getinfoFrame, _, exec_ran (by decide +kernel), by decide +kernel, by decide +kernel, by decide +kernel⟩

/-- The encoding of "get" and its output in IN. -/
def encoded : State := ran .c12Encode (loaded (raw [0x67, 0x65, 0x74]))

/-- The output of that encoding, loaded into IN. -/
def looped : State := loaded ((List.range 23).map (fun k => encoded.readByte (0x20000 + k)))

theorem witness_EncodedCommandDecodesToItself :
    ∃ (s s' t : State) (cmd : List Byte), s.params.wellFormed = true ∧ cmd = s.frameBytes 0 s.inLen.toNat ∧ exec .c12Encode s = next t ∧
      t.status.result = .noError ∧ s'.inLen = t.outLen ∧ s'.params = s.params ∧ s'.inLen.toNat ≤ s'.params.inSize ∧
      (∀ k, k < t.outLen.toNat → s'.frameByte k = t.readByte (0x20000 + k)) :=
  ⟨loaded (raw [0x67, 0x65, 0x74]), looped, encoded, _, by decide +kernel, rfl, exec_ran (by decide +kernel), by decide +kernel,
    by decide +kernel, by decide +kernel, by decide +kernel, by decide +kernel⟩

/-- Each operation goes on from a frame of its own. -/
theorem goes_each : ∀ i : Instr, goes i (loaded getinfoFrame) = true := by intro i; cases i <;> decide +kernel

theorem witness_RegisterOperationsLeaveMemoryAlone :
    ∀ i : Instr, i ∈ [Instr.crcCompute, .crcVerify, .filterProbe] → ∃ s t : State, exec i s = next t :=
  fun i _ => ⟨loaded getinfoFrame, _, exec_ran (goes_each i)⟩

theorem witness_Codec12OperationsWriteOnlyBelowOutLen :
    ∀ i : Instr, i ∈ [Instr.c12Encode, .c12Decode] → ∃ s t : State, s.params.wellFormed = true ∧ exec i s = next t :=
  fun i _ => ⟨loaded getinfoFrame, _, by decide +kernel, exec_ran (goes_each i)⟩

theorem witness_EveryOperationCommits :
    (Instr.c8eDecode = .c8eDecode → (loaded getinfoFrame).resolver.answering = true) ∧
    (Instr.crcCompute = .c8eDecode → State.reset.resolver.answering = true) := by decide +kernel

/-- The frame of one entry, with no resolver that answers. -/
def silent : State := { sampleState 2 with resolver := { answering := false, rows := [] } }

/-- A refusal is this one. -/
def refuses (o : Host.Outcome State Fault Refusal) (r : Refusal) : Bool :=
  match o with
  | .refused r' => decide (r' = r)
  | _ => false

theorem eq_of_refuses {o : Host.Outcome State Fault Refusal} {r : Refusal} (h : refuses o r = true) : o = refused r := by
  cases o with
  | refused r' => exact congrArg _ (of_decide_eq_true h)
  | next _ => cases h
  | fault _ => cases h

theorem witness_OnlyASilentResolverStopsAnOperation : exec .c8eDecode silent = refused .resolverSilent :=
  eq_of_refuses (by decide +kernel)

/-- V-C8E-16's frame with other bytes beyond L, another draw and an interest word that is not counted. -/
def beyond (bs : List Byte) : State :=
  { loaded bs with mem := bytesAt isetBase (lanes 5#32) ++ bytesAt inBase (bs ++ [0xAA#8]), ramDraw := 7, nextDraw := 9 }

theorem witness_UnreadInputsNeverMatter :
    ∀ i : Instr, ∃ s s' t : State, s.params.wellFormed = true ∧
      s' = { s with mem := s'.mem, ramDraw := s'.ramDraw, tblDraw := s'.tblDraw, nextDraw := s'.nextDraw } ∧
      (∀ k, k < s.inLen.toNat → s'.frameByte k = s.frameByte k) ∧
      (∀ k, k < s.isetCount.toNat → s'.isetEntry k = s.isetEntry k) ∧ exec i s = next t ∧ s'.mem ≠ s.mem :=
  fun i => ⟨loaded getinfoFrame, beyond getinfoFrame, _, by decide +kernel, rfl, by decide +kernel, by decide +kernel,
    exec_ran (goes_each i), by decide +kernel⟩

theorem witness_CmdWriteWhileIdleAcceptsTheOperation :
    State.reset.status.busy = false ∧ ∀ i : Instr, (encodeWith 0xFFFFFFF#28 i).extractLsb' 0 4 = i.opcode := by
  refine ⟨by decide +kernel, fun i => ?_⟩
  cases i <;> decide

theorem witness_ReservedOpCommitsIllegalOpAtOnce :
    State.reset.status.busy = false ∧ (0x10#32 : Word).extractLsb' 0 4 = 0x0#4 ∧
    0x7#4 ≤ (0x17#32 : Word).extractLsb' 0 4 ∧ 0x7#4 ≤ (0x0F#32 : Word).extractLsb' 0 4 := by decide +kernel

theorem witness_InputWritesWhileBusyAreIgnoredAndSetWerr :
    probing.status.busy = true ∧ probing.params.wellFormed = true ∧ 63 < probing.params.interestMax ∧
    4095 < probing.params.inSize ∧ 4 * 1023 + 4 ≤ probing.params.inSize := by decide +kernel

theorem witness_HostAccessWhileBusyNeverChangesTheResult :
    ∀ i : Instr, ∃ s t : State, s.status.busy = true ∧ s.params.wellFormed = true ∧ exec i s = next t := by
  intro i
  refine ⟨(loaded getinfoFrame).accept (encode i), _, rfl, rfl, exec_ran ?_⟩
  cases i <;> decide +kernel

theorem witness_RegistersKeepTheirPreCommitValues :
    decoding.status.busy = true ∧ decoding.params.wellFormed = true := by decide +kernel

theorem witness_InterruptFollowsDoneAndEnable :
    (∃ s t : State, exec .filterProbe s = next t ∧ s.cfg.ie = true) ∧ State.reset.status.busy = false ∧
    (0x10#32 : Word).extractLsb' 0 4 = 0x0#4 ∧ (0x13#32 : Word).extractLsb' 0 4 = Instr.c8eDecode.opcode ∧
    (2#32 : Word).getLsbD 1 = true ∧ (1#32 : Word).getLsbD 1 = false :=
  ⟨⟨interested true 5#16, _, exec_ran (by decide +kernel), rfl⟩, by decide +kernel, by decide +kernel, by decide +kernel, by decide +kernel, by decide +kernel⟩

/-- The step of a state whose next step is not a stop. -/
def next1 (s : State) : State :=
  match step s with
  | .next t => t
  | _ => s

/-- A step goes on. -/
def steps (s : State) : Bool :=
  match step s with
  | .next _ => true
  | _ => false

theorem step_next1 {s : State} (h : steps s = true) : step s = next (next1 s) := by
  unfold steps at h
  unfold next1
  split at h
  · rename_i heq; simp only [heq]
  · cases h

/-- A CMD write to come. -/
def commanded (bs : List Byte) (v : Word) : State := { loaded bs with env := [.access (.write 32 0x004 v)] }

theorem witness_OnlyAcceptanceSetsBusyOnlyCommitOrResetClearsIt :
    (∃ s t : State, step s = next t ∧ s.status.busy = false ∧ t.status.busy = true) ∧
    (∃ s t : State, step s = next t ∧ s.status.busy = true ∧ t.status.busy = false ∧ s.nextEvent = .engine) ∧
    (∃ s t : State, step s = next t ∧ s.status.busy = true ∧ t.status.busy = false ∧ s.nextEvent = .rstAssert) :=
  ⟨⟨commanded [] 6#32, _, step_next1 (by decide +kernel), by decide +kernel, by decide +kernel⟩,
    ⟨probing, _, step_next1 (by decide +kernel), by decide +kernel, by decide +kernel, by decide +kernel⟩,
    ⟨{ probing with env := [.rstAssert] }, _, step_next1 (by decide +kernel), by decide +kernel, by decide +kernel, rfl⟩⟩

theorem witness_ResultRegistersHaveOneWriter :
    (∃ s t : State, step s = next t ∧ s.nextEvent ≠ .rstAssert ∧ t.fr ≠ s.fr) ∧
    (∃ s t : State, step s = next t ∧ s.nextEvent ≠ .rstAssert ∧ t.rsp ≠ s.rsp ∧ t.outLen ≠ s.outLen) ∧
    (∃ s t : State, step s = next t ∧ s.nextEvent ≠ .rstAssert ∧ t.probe ≠ s.probe) :=
  ⟨⟨decoding, _, step_next1 (by decide +kernel), by decide +kernel, by decide +kernel⟩,
    ⟨wrote (loaded getinfoFrame) 0x004 5#32, _, step_next1 (by decide +kernel), by decide +kernel, by decide +kernel,
      by decide +kernel⟩,
    ⟨probing, _, step_next1 (by decide +kernel), by decide +kernel, by decide +kernel⟩⟩

theorem witness_AcceptedOperationReachesItsCommit :
    let s : State := { decoding with env := [.access (.read 32 0x008), .access (.write 32 0x010 5#32)] }
    s.status.busy = true ∧ s.eng.isSome = true ∧ s.rst = false ∧ s.resolver.answering = true ∧
    (∀ e ∈ s.env, ∃ a, e = .access a ∧ s.params.blockBase ≤ a.addr ∧ a.addr < s.params.blockBase + 0x100000) := by
  refine ⟨by decide +kernel, by decide +kernel, by decide +kernel, by decide +kernel, ?_⟩
  intro e he
  simp only [List.mem_cons, List.not_mem_nil, or_false] at he
  rcases he with rfl | rfl
  · exact ⟨_, rfl, by decide +kernel, by decide +kernel⟩
  · exact ⟨_, rfl, by decide +kernel, by decide +kernel⟩

theorem witness_AfterAnyCommitTheNextOperationIsAccepted :
    ∃ s t : State, exec .c8eDecode s = next t ∧ (0x26#32 : Word).extractLsb' 0 4 = Instr.filterProbe.opcode :=
  ⟨loaded truncatedFrame, _, exec_ran (by decide +kernel), by decide +kernel⟩

theorem witness_RegisterReadsGiveTheMap :
    (loaded getinfoFrame).params.wellFormed = true ∧ (loaded getinfoFrame).inLen.toNat = 27 := by decide +kernel

theorem witness_InputRegisterWritesWhileIdle :
    State.reset.params.wellFormed = true ∧ State.reset.status.busy = false := by decide +kernel

theorem witness_ReadOnlyRegisterWritesAreIgnored :
    RegName.atOffset 0x06C = some .capInterestMax ∧ (wrote State.reset 0x06C 1#32).params = State.reset.params := by
  decide +kernel

theorem witness_BusErrorsAreExactlyTheListedAccesses :
    (State.reset.busRead 32 0x10FFC).resp ≠ .readError 0#32 ∧ (State.reset.busRead 32 0x10FFD).resp = .readError 0#32 ∧
    (State.reset.busRead 32 0x31FE0).resp = .readError 0#32 ∧ (State.reset.busWrite 32 0x010FC 1#32).resp = .writeOk ∧
    (State.reset.busWrite 32 0x01100 1#32).resp = .writeError ∧ (State.reset.busWrite 16 0x10000 1#32).resp = .writeError := by
  decide +kernel

theorem witness_InAccessesUseLittleEndianLanes :
    State.reset.status.busy = false ∧ State.reset.params.wellFormed = true ∧
    (∀ off, off ∈ [0x10000, 0x10FFC] → 0x10000 ≤ off ∧ off % 4 = 0 ∧ off + 4 ≤ 0x10000 + State.reset.params.inSize) ∧
    0x10FFF < 0x10000 + State.reset.params.inSize := by decide +kernel

theorem witness_InterestWordsKeepAllTheirBits :
    State.reset.status.busy = false ∧ State.reset.params.wellFormed = true ∧ 63 < State.reset.params.interestMax := by decide +kernel

theorem witness_MemoryReadsGiveTheBytesOrAFreeValue :
    State.reset.status.busy = false ∧ decoding.status.busy = true ∧ decoding.params = State.reset.params ∧
    State.reset.params.wellFormed = true ∧
    (∀ c, c ∈ [(0x010FC, 0x01000, 4 * State.reset.params.interestMax), (0x10FFC, 0x10000, State.reset.params.inSize),
        (0x20FFC, 0x20000, State.reset.params.outSize), (0x31FDC, 0x30000, 32 * 255),
        (0x47FFC, 0x40000, 32 * State.reset.params.evtMax)] →
      c.1 % 4 = 0 ∧ c.2.1 ≤ c.1 ∧ c.1 + 4 ≤ c.2.1 + c.2.2) ∧
    (∀ c, c ∈ [(0x10000, 0x10000, State.reset.params.inSize), (0x10FFF, 0x10000, State.reset.params.inSize),
        (0x20000, 0x20000, State.reset.params.outSize), (0x20FFF, 0x20000, State.reset.params.outSize)] →
      c.2.1 ≤ c.1 ∧ c.1 < c.2.1 + c.2.2) := by decide +kernel

/-- R74 and R100: an 8-bit read of OUT gives the codec tag of an encoded command. -/
theorem test_read8_out :
    ((ran .c12Encode (loaded (raw [0x67]))).busRead 8 0x20008).resp = .readOk 0x0C#32 := by decide +kernel

theorem witness_AssertingRstAbandonsAndResets :
    ({ decoding with env := [.rstAssert] } : State).env = .rstAssert :: [] := rfl

/-- A resolver with other answers, and one with the same in other rows. -/
def otherResolver : Resolver := { answering := true, rows := [] }

theorem witness_ResolverChangeDuringDecodeIsRefused :
    (decoding.eng.map Engine.op = some 0x3#4 ∧ ∃ id : Half, otherResolver.lookup id ≠ decoding.resolver.lookup id) ∧
    probing.eng.map Engine.op ≠ some 0x3#4 :=
  ⟨⟨by decide +kernel, 5#16, by decide +kernel⟩, by decide +kernel⟩

/-- The invariant holds in states that run, not only at reset. -/
theorem witness_EveryStepKeepsTheInvariant :
    (∃ s t : State, Inv s ∧ step s = next t ∧ s.status.busy = true) ∧ ∃ s t : State, Inv s ∧ step s = next t ∧ t.status.busy = true :=
  ⟨⟨decoding, _, by decide +kernel, step_next1 (by decide +kernel), by decide +kernel⟩,
    ⟨commanded variableFrame 3#32, _, by decide +kernel, step_next1 (by decide +kernel), by decide +kernel⟩⟩

theorem witness_ParametersAndIdNeverChange : ∃ s t : State, step s = next t ∧ s.status.busy = true :=
  ⟨decoding, _, step_next1 (by decide +kernel), by decide +kernel⟩

theorem witness_KeptDutiesNeverStopTheMachine :
    Inv decoding ∧ decoding.dutyKept decoding.nextEvent = true ∧
    Inv (commanded [] 6#32) ∧ (commanded [] 6#32).dutyKept (commanded [] 6#32).nextEvent = true ∧
    ({ decoding with env := [.setResolver resAll] } : State).dutyKept (.setResolver otherResolver) = false := by decide +kernel

end Sys2Proof.Tests
end

section
/-! The field read of the parse (00_scope.md R14). -/

namespace Sys2Proof.Machine

/-- Settles O17: the two outcomes of a field read are the laws `rd_eq_ok` and `rd_eq_error`, and `malformed` is the
MalformedFrame of R150 at the offset it is given. -/
theorem fieldReadIsBoundedByTheFrame : Obligations.FieldReadIsBoundedByTheFrame := by
  intro s e n
  constructor
  · exact rd_eq_ok
  · exact rd_eq_error

end Sys2Proof.Machine
end

section
/-! What each operation commits, said once for every operation: the later proofs split on these cases. -/

namespace Sys2Proof.Machine

/-- What an operation can commit (60_exceptions.md R226 (3)): its check registers, the probe's answer, a failure with its
own results zeroed, or the results of a complete run. -/
inductive Commits (s : State) : Instr → State → Prop
  | check {i : Instr} (hi : i = .crcCompute ∨ i = .crcVerify) (crc : Half) (decl : Word) (pos : Nat) {r : ResultCode}
      {ok : Bool} (hok : ok = true → r = .noError) : Commits s i ((s.setCheck crc decl pos).commit r ok)
  | probe (p : ProbeResult) : Commits s .filterProbe (({ s with probe := p, errPos := 0 } : State).commit .noError false)
  | failure (i : Instr) (crc : Half) (decl : Word) (pos : Nat) (r : ResultCode) :
      Commits s i (((s.zeroResults i).setCheck crc decl pos).commit r false)
  | command {cmd : List Byte} (hfit : 20 + cmd.length ≤ s.params.outSize) : Commits s .c12Encode (s.commitCommand cmd)
  | response (v : Verified) {p : ParsedResponse} (hlen : p.text.length = p.len) (hfit : p.len ≤ s.params.outSize) :
      Commits s .c12Decode (s.commitResponse v p)
  | frame (v : Verified) {e : Engine} {p : Parsed} (hp : parseFrame s e = .ok p) :
      Commits s .c8eDecode (s.commitFrame v p)

/-- Whatever an operation answers next is one of these commits. -/
theorem exec_commits {i : Instr} {s t : State} (h : exec i s = .next t) : Commits s i t := by
  cases i with
  | crcCompute =>
    obtain ⟨r, c, d, p, hx⟩ := execCrcCompute_cases s
    cases hx.symm.trans h; exact .check (.inl rfl) c d p nofun
  | crcVerify =>
    obtain ⟨r, ok, c, d, p, hok, hx⟩ := execCrcVerify_cases s
    cases hx.symm.trans h; exact .check (.inr rfl) c d p hok
  | c8eDecode =>
    rcases execC8eDecode_cases s with ⟨r, c, d, p, -, hx⟩ | ⟨p, -, -, -, -, hp, hx⟩ | ⟨-, hx⟩
    · cases hx.symm.trans h; exact .failure _ c d p r
    · cases hx.symm.trans h; exact .frame _ hp
    · cases hx.symm.trans h
  | c12Encode =>
    rcases execC12Encode_cases s with ⟨-, hx⟩ | ⟨-, hfit, hx⟩
    · cases hx.symm.trans h; exact .failure _ 0 0 0 _
    · cases hx.symm.trans h; exact .command (by simpa using hfit)
  | c12Decode =>
    rcases execC12Decode_cases s with ⟨r, c, d, p, -, hx⟩ | ⟨p, -, -, -, -, -, hfit, hx⟩
    · cases hx.symm.trans h; exact .failure _ c d p r
    · cases hx.symm.trans h; exact .response _ (length_frameBytes ..) hfit
  | filterProbe => cases (execFilterProbe_eq s).symm.trans h; exact .probe _

/-- The status an operation leaves (60_exceptions.md R226 (3)): the commit of some result, with VERIFY_OK only beside NoError. -/
theorem Commits.status_eq {s t : State} {i : Instr} (h : Commits s i t) :
    ∃ r ok, t.status = s.status.committed r ok ∧ (ok = true → r = .noError) := by
  cases h with
  | check _ _ _ _ hok => exact ⟨_, _, rfl, hok⟩
  | probe => exact ⟨_, _, rfl, nofun⟩
  | failure _ _ _ _ r => exact ⟨r, false, by simp, nofun⟩
  | command => exact ⟨_, _, rfl, nofun⟩
  | response => exact ⟨_, _, rfl, fun _ => rfl⟩
  | frame => exact ⟨_, _, rfl, fun _ => rfl⟩

end Sys2Proof.Machine
end

section
/-! The invariant of the block: what reset, each operation and each host access make of it. -/

namespace Sys2Proof.Machine

/-! ### Memory stays inside its windows -/

theorem windowAt_isSome {p : Params} (hp : p.wellFormed = true) {t : Target} (ht : t.isMemory) {a : Nat}
    (h1 : t.base ≤ a) (h2 : a < t.base + t.size p) : (windowAt p a 1).isSome = true :=
  Option.isSome_iff_exists.2 ⟨t, (windowAt_iff hp Nat.one_pos).2 ⟨ht, h1, h2⟩⟩

/-- Bytes written inside a memory window leave memory inside its windows. -/
theorem memOk_writeBytes {s : State} (hp : s.params.wellFormed = true) (hm : s.memOk) {t : Target} (ht : t.isMemory)
    {a : Nat} {bs : List Byte} (h1 : t.base ≤ a) (h2 : a + bs.length ≤ t.base + t.size s.params) :
    (s.writeBytes a bs).memOk := by
  obtain ⟨hwf, hin⟩ := hm
  refine ⟨wf_write hwf a bs, fun c hc => ?_⟩
  rcases mem_write hc with h | ⟨h3, h4⟩
  · exact hin c h
  · exact windowAt_isSome hp ht (h1.trans h3) (h4.trans_le h2)

theorem memOk_zeroResults {s : State} (hm : s.memOk) (i : Instr) : (s.zeroResults i).memOk := by
  obtain ⟨hwf, hin⟩ := hm
  cases i with
  | c8eDecode => exact ⟨wf_unlist hwf (by decide), fun c hc => hin c (mem_unlist hc)⟩
  | crcCompute | crcVerify | c12Encode | c12Decode | filterProbe => exact ⟨hwf, hin⟩

/-- The tables of a complete parse lie inside their windows (10_state.md R40). -/
theorem memOk_commitFrame {s : State} (hw : s.params.wellFormed = true) (hm : s.memOk) {e : Engine} {p : Parsed}
    (hp : parseFrame s e = .ok p) (v : Verified) : (s.commitFrame v p).memOk := by
  obtain ⟨hwf, hin⟩ := hm
  obtain ⟨ok, hl, hn, -⟩ := parseFrame_intakeOk hp
  obtain ⟨hr, he⟩ := tables_fit hw hp
  refine ⟨wf_setTables hwf hr he, fun c hc => ?_⟩
  rcases mem_setTables hc with h | ⟨h1, h2⟩ | ⟨h1, h2⟩
  · exact hin c h
  · refine windowAt_isSome hw (t := .recTable) trivial h1 (h2.trans_le ?_)
    simp only [length_recordTable, hl, Target.base, Target.size, recMax]; omega
  · refine windowAt_isSome hw (t := .evtTable) trivial h1 (h2.trans_le ?_)
    have := ok.room
    simp only [length_eventTable, ← ok.nev, Target.base, Target.size]; omega

theorem Commits.memOk {s t : State} {i : Instr} (h : Commits s i t) (hp : s.params.wellFormed = true) (hm : s.memOk) :
    t.memOk := by
  cases h with
  | check | probe => exact hm
  | failure i => exact memOk_zeroResults hm i
  | command hfit =>
    exact memOk_writeBytes hp hm (t := .outBuf) trivial le_rfl (by simpa [Target.base, Target.size] using hfit)
  | response v hlen hfit =>
    exact memOk_writeBytes hp hm (t := .outBuf) trivial le_rfl (by simpa [Target.base, Target.size, hlen] using hfit)
  | frame v hpf => exact memOk_commitFrame hp hm hpf v

/-! ### The counts stay within the parameters -/

theorem toNat_ofNat_le {n b : Nat} (h : n ≤ b) : (BitVec.ofNat 32 n).toNat ≤ b := (Nat.mod_le n _).trans h

/-- A frame of no record has no event and no severity (10_state.md R33; 41_codec8e.md R145). -/
theorem parseFrame_of_nrec_zero {s : State} {e : Engine} {p : Parsed} (hp : parseFrame s e = .ok p) (h0 : p.nrec = 0) :
    p.intake.eng.nev = 0 ∧ p.intake.eng.hi = .notDetermined := by
  obtain ⟨-, -, -, hr⟩ := parseFrame_ok_iff.1 hp
  rw [h0] at hr
  rw [← Except.ok.inj hr]
  exact ⟨rfl, rfl⟩

theorem countsOk_zeroResults {s : State} (hc : s.countsOk) (i : Instr) : (s.zeroResults i).countsOk := by
  obtain ⟨hi, ho, hn, hz⟩ := hc
  cases i with
  | c8eDecode => exact ⟨hi, ho, Nat.zero_le _, fun _ => ⟨rfl, rfl⟩⟩
  | c12Encode | c12Decode => exact ⟨hi, Nat.zero_le _, hn, hz⟩
  | crcCompute | crcVerify | filterProbe => exact ⟨hi, ho, hn, hz⟩

theorem Commits.countsOk {s t : State} {i : Instr} (h : Commits s i t) (hc : s.countsOk) : t.countsOk := by
  have ⟨hi, ho, hn, hz⟩ := hc
  cases h with
  | check | probe => exact hc
  | failure i => exact countsOk_zeroResults hc i
  | command hfit => exact ⟨hi, toNat_ofNat_le hfit, hn, hz⟩
  | response v hlen hfit => exact ⟨hi, toNat_ofNat_le hfit, hn, hz⟩
  | frame v hp =>
    obtain ⟨ok, -, hlt, -⟩ := parseFrame_intakeOk hp
    refine ⟨hi, ho, toNat_ofNat_le ok.room, fun h0 => ?_⟩
    have h0' := congrArg BitVec.toNat h0
    simp only [State.commitFrame, State.commit_fr, BitVec.toNat_ofNat, Nat.mod_eq_of_lt hlt] at h0'
    obtain ⟨hnev, hhi⟩ := parseFrame_of_nrec_zero hp h0'
    exact ⟨congrArg (BitVec.ofNat 32) hnev, hhi⟩

/-! ### The completion protocol -/

/-- An idle block out of reset keeps the protocol, whatever its DONE. -/
theorem protocolOk_of_idle {s : State} (hb : s.status.busy = false) (he : s.eng = none)
    (hv : s.status.verifyOk = true → s.status.result = .noError) (hr : s.rst = false) : s.protocolOk :=
  ⟨by simp [hb], fun _ => he, hv, by simp [hr]⟩

/-- A block as reset leaves it keeps the protocol, whether rst is still asserted or not. -/
theorem protocolOk_of_quiet {s : State} (hb : s.status.busy = false) (hd : s.status.done = false) (he : s.eng = none)
    (hv : s.status.verifyOk = false) : s.protocolOk :=
  ⟨by simp [hb], fun _ => he, by simp [hv], fun _ => ⟨hb, by simp [State.irq, hd]⟩⟩

/-- A word that decodes has no reserved OP (30_encoding.md R92). -/
theorem reservedOp_of_decode {w : Word} {i : Instr} (h : decode w = .ok i) : reservedOp (opField w) = false := by
  rw [opField, (decode_ok_iff w i).1 h]
  cases i <;> decide

theorem protocolOk_accept {s : State} (hr : s.rst = false) (hv : s.status.verifyOk = true → s.status.result = .noError)
    {w : Word} {i : Instr} (hd : decode w = .ok i) : (s.accept w).protocolOk :=
  ⟨fun _ => ⟨rfl, rfl, reservedOp_of_decode hd⟩, nofun, hv, by simp [hr]⟩

/-! ### The invariant, one kind of step at a time -/

theorem inv_resetWith {p : Params} (hp : p.wellFormed = true) : Inv (State.resetWith p) :=
  ⟨hp, ⟨.nil, nofun⟩, ⟨Nat.zero_le _, Nat.zero_le _, Nat.zero_le _, fun _ => ⟨rfl, rfl⟩⟩, protocolOk_of_quiet rfl rfl rfl rfl⟩

theorem inv_assertRst {s : State} (hp : s.params.wellFormed = true) : Inv s.assertRst := by
  obtain ⟨-, hm, hc, -⟩ := inv_resetWith hp
  exact ⟨hp, hm, hc, protocolOk_of_quiet rfl rfl rfl rfl⟩

theorem inv_releaseRst {s : State} (h : Inv s) : Inv s.releaseRst := by
  obtain ⟨hp, hm, hc, hbusy, hidle, hv, -⟩ := h
  exact ⟨hp, hm, hc, hbusy, hidle, hv, nofun⟩

/-- An engine that holds an operation is not under reset (70_reset_and_hazards.md R250). -/
theorem Inv.rst_of_eng {s : State} (h : Inv s) {e : Engine} (he : s.eng = some e) : s.rst = false := by
  obtain ⟨-, -, -, -, hidle, -, hrst⟩ := h
  by_contra hr
  have hb := (hrst (by simpa using hr)).1
  simp [hidle hb] at he

theorem inv_exec {s t : State} {i : Instr} (h : Inv s) (hr : s.rst = false) (he : exec i s = .next t) : Inv t := by
  obtain ⟨hp, hm, hc, -⟩ := h
  obtain ⟨hparams, -, -, heng, hrst, -⟩ := exec_frame he
  have hcommits := exec_commits he
  obtain ⟨r, ok, hst, hok⟩ := hcommits.status_eq
  exact ⟨hparams ▸ hp, hcommits.memOk hp hm, hcommits.countsOk hc,
    protocolOk_of_idle (by simp [hst]) heng (by simpa [hst] using hok) (hrst.trans hr)⟩

theorem inv_commitIllegalOp {s : State} (h : Inv s) (hr : s.rst = false) : Inv s.commitIllegalOp := by
  obtain ⟨hp, hm, hc, -⟩ := h
  exact ⟨hp, hm, hc, protocolOk_of_idle rfl rfl nofun hr⟩

theorem inv_busRead {s : State} (h : Inv s) (width off : Nat) : Inv (s.busRead width off) := by
  obtain ⟨a, n, -, hx⟩ := s.busRead_cases width off
  rw [hx]; exact h

/-- No write while BUSY sets DONE: it is an access to STATUS, which only clears it, or it leaves DONE alone. -/
theorem State.busWrite_busy_done {s : State} (hb : s.status.busy = true) (hd : s.status.done = false) (width off : Nat)
    (v : Word) : (s.busWrite width off v).status.done = false := by
  unfold State.busWrite
  split
  case h_2 r _ => cases r <;> simp [State.writeReg, hb, hd]
  all_goals simp [hb, hd]

theorem inv_busWrite_busy {s : State} (h : Inv s) (hr : s.rst = false) (hb : s.status.busy = true) (width off : Nat)
    (v : Word) : Inv (s.busWrite width off v) := by
  obtain ⟨hp, hm, hc, hbusy, -, hv, -⟩ := h
  obtain ⟨hd, heng, hop⟩ := hbusy hb
  have hdone := State.busWrite_busy_done hb hd width off v
  obtain ⟨a, d, w, hx⟩ := State.busWrite_busy hb width off v
  rw [hx] at hdone ⊢
  exact ⟨hp, hm, hc, fun _ => ⟨hdone, heng, hop⟩, by simp [hb], hv, by simp [hr]⟩

theorem inv_busWrite_idle {s : State} (h : Inv s) (hr : s.rst = false) (hb : s.status.busy = false) (width off : Nat)
    (v : Word) : Inv (s.busWrite width off v) := by
  obtain ⟨hp, hm, hc, -, hidle, hv, -⟩ := id h
  have heng := hidle hb
  rcases State.busWrite_idle hb width off v with ⟨a, hx⟩ | hx | ⟨c, l, n, p, hn, hx⟩ | ⟨-, -, hx⟩ | ⟨t, ht, hat, hx⟩ <;> rw [hx]
  · exact h
  · exact ⟨hp, hm, hc, protocolOk_of_idle hb heng hv hr⟩
  · obtain ⟨hi, hrest⟩ := hc
    have hi' : n.toNat ≤ s.params.interestMax := by
      rcases hn with rfl | rfl
      · exact hi
      · exact toNat_ofNat_le (min_le_right _ _)
    exact ⟨hp, hm, ⟨hi', hrest⟩, protocolOk_of_idle hb heng hv hr⟩
  · rcases s.issue_cases v with ⟨i, hd, hi⟩ | ⟨-, hi⟩ <;> rw [hi]
    · exact ⟨hp, hm, hc, protocolOk_accept hr hv hd⟩
    · exact ⟨hp, hm, hc, protocolOk_of_idle rfl rfl nofun hr⟩
  · obtain ⟨h1, h2⟩ := targetAt_bytes hp hat ht v
    have htm : t.isMemory := by rcases ht with rfl | rfl <;> trivial
    exact ⟨hp, memOk_writeBytes hp hm htm h1 h2, hc, protocolOk_of_idle hb heng hv hr⟩

theorem inv_busAccess {s : State} (h : Inv s) (hr : s.rst = false) (a : Access) : Inv (s.busAccess a) := by
  cases a with
  | read width addr => exact inv_busRead h _ _
  | write width addr v =>
    cases hb : s.status.busy with
    | true => exact inv_busWrite_busy h hr hb _ _ v
    | false => exact inv_busWrite_idle h hr hb _ _ v

/-- Settles O58: by the cases of a step, each of which keeps the invariant by its own lemma. -/
theorem everyStepKeepsTheInvariant : Obligations.EveryStepKeepsTheInvariant := by
  intro s t h hstep
  have hpast : Inv s.past := h
  rcases step_cases hstep with ⟨-, -, rfl⟩ | ⟨e, i, -, he, -, hx⟩ | ⟨e, x, -, he, -, rfl⟩ | ⟨a, -, hr, -, rfl⟩ | ⟨-, rfl⟩ |
    ⟨-, rfl⟩ | ⟨r, -, -, rfl⟩
  · exact hpast
  · exact inv_exec hpast (h.rst_of_eng he) hx
  · exact inv_commitIllegalOp hpast (h.rst_of_eng he)
  · exact inv_busAccess hpast hr a
  · exact inv_assertRst hpast.1
  · exact inv_releaseRst hpast
  · exact hpast

/-- Settles O57: the reference configuration has legal parameters, and a block with legal parameters meets the invariant at
reset. -/
theorem resetMeetsTheInvariant : Obligations.ResetMeetsTheInvariant := inv_resetWith (by decide)

end Sys2Proof.Machine
end

section
/-! What the operations leave unchanged, and who writes BUSY and the result registers. -/

namespace Sys2Proof.Machine

/-! ### The Codec 12 operations -/

/-- The registers that no Codec 12 operation writes (60_exceptions.md R263): of the registers, only the check registers,
RSP_, OUT_LEN and STATUS differ. -/
theorem Commits.codec12_frame {s t : State} {i : Instr} (h : Commits s i t) (hi : i = .c12Encode ∨ i = .c12Decode) :
    t = { s with
          crcValue := t.crcValue, crcDecl := t.crcDecl, errPos := t.errPos, rsp := t.rsp, outLen := t.outLen
          status := t.status, eng := none, mem := t.mem } := by
  cases h with
  | check hc => rcases hi with rfl | rfl <;> simp at hc
  | probe | frame => simp at hi
  | failure => rcases hi with rfl | rfl <;> rfl
  | command | response => rfl

/-- A length within OUT is a register's value (00_scope.md R9). -/
theorem toNat_ofNat_of_le {n : Nat} (h : n ≤ 65536) : (BitVec.ofNat 32 n).toNat = n := by
  rw [BitVec.toNat_ofNat]; omega

/-- Bytes stored at OUT leave every byte outside them as it was. -/
theorem readByte_writeBytes_outBase {s : State} {bs : List Byte} {n a : Nat} (hn : bs.length = n)
    (ha : a < 0x20000 ∨ 0x20000 + n ≤ a) : (s.writeBytes outBase bs).readByte a = s.readByte a :=
  readByte_writeBytes_of_outside (by rw [hn]; exact ha)

/-- A Codec 12 operation stores exactly OUT_LEN bytes at OUT (10_state.md R42). -/
theorem Commits.codec12_readByte {s t : State} {i : Instr} (h : Commits s i t) (hi : i = .c12Encode ∨ i = .c12Decode)
    (hp : s.params.wellFormed = true) {a : Nat} (ha : a < 0x20000 ∨ 0x20000 + t.outLen.toNat ≤ a) :
    t.readByte a = s.readByte a := by
  have hsize := (Params.bounds hp).2.1.2
  cases h with
  | check | probe => exact readByte_congr rfl rfl rfl a
  | failure => rcases hi with rfl | rfl <;> exact readByte_congr rfl rfl rfl a
  | @command cmd hfit =>
    have hlen := toNat_ofNat_of_le (hfit.trans hsize)
    rw [readByte_commitCommand]
    exact readByte_writeBytes_outBase ((length_commandFrame cmd).trans hlen.symm) ha
  | @response v p hlen hfit =>
    have hout := toNat_ofNat_of_le (hfit.trans hsize)
    rw [readByte_commitResponse]
    exact readByte_writeBytes_outBase (hlen.trans hout.symm) ha
  | frame => simp at hi

/-- Settles O31: by what each Codec 12 commit writes. -/
theorem codec12OperationsWriteOnlyBelowOutLen : Obligations.Codec12OperationsWriteOnlyBelowOutLen := by
  intro i s t hp hi h
  have hcommits := exec_commits h
  have hi' : i = .c12Encode ∨ i = .c12Decode := by simpa using hi
  obtain ⟨-, -, -, -, -, -, hrsp, -⟩ := exec_frame h
  obtain ⟨r, ok, hst, -⟩ := hcommits.status_eq
  refine ⟨hcommits.codec12_frame hi', fun he => hrsp (by rw [he]; decide), ?_, ?_, ?_, fun a ha =>
    hcommits.codec12_readByte hi' hp ha⟩ <;> rw [hst] <;> rfl

/-! ### Who writes BUSY -/

/-- An access raises BUSY only as a CMD write of a word that decodes: it is accepted (10_state.md R23). -/
theorem busAccess_raises_busy {s : State} {a : Access} (hd : decodesAddr s.params a.addr = true)
    (hb : s.status.busy = false) (hb' : (s.busAccess a).status.busy = true) :
    ∃ (v : Word) (i : Instr), a = .write 32 (s.params.blockBase + 0x004) v ∧ decode v = .ok i ∧
      (s.busAccess a).cmdOp = opField v ∧ (s.busAccess a).status.done = false := by
  cases a with
  | read w addr =>
    obtain ⟨x, n, -, hx⟩ := s.busRead_cases w (addr - s.params.blockBase)
    simp [State.busAccess, hx, hb] at hb'
  | write w addr v =>
    simp only [State.busAccess] at hb' ⊢
    rcases State.busWrite_idle hb w (addr - s.params.blockBase) v with
      ⟨x, hx⟩ | hx | ⟨c, l, n, p, -, hx⟩ | ⟨hw, hoff, hx⟩ | ⟨t, -, -, hx⟩
    case inr.inr.inr.inl =>
      rcases s.issue_cases v with ⟨i, hi, hissue⟩ | ⟨-, hissue⟩
      · rw [hx, hissue]
        obtain rfl : addr = s.params.blockBase + 4 := by omega
        exact ⟨v, i, by rw [hw], hi, rfl, rfl⟩
      · simp [hx, hissue, State.commitIllegalOp] at hb'
    all_goals simp [hx, hb] at hb'

/-- No access lowers BUSY (20_memory.md R82). -/
theorem busAccess_keeps_busy {s : State} (hb : s.status.busy = true) (a : Access) :
    (s.busAccess a).status.busy = true := by
  cases a with
  | read w addr =>
    obtain ⟨x, n, -, hx⟩ := s.busRead_cases w (addr - s.params.blockBase)
    rw [State.busAccess, hx]; exact hb
  | write w addr v =>
    obtain ⟨x, d, e, hx⟩ := State.busWrite_busy hb w (addr - s.params.blockBase) v
    rw [State.busAccess, hx]; exact hb

/-- The engine's move on an operation commits (60_exceptions.md R226 (3)). -/
theorem exec_completes {i : Instr} {s t : State} (h : exec i s = .next t) :
    t.status.busy = false ∧ t.status.done = true := by
  obtain ⟨r, ok, hst, -⟩ := (exec_commits h).status_eq
  rw [hst]; exact ⟨rfl, rfl⟩

/-- Settles O41: by the cases of a step; only an access can raise BUSY, and only a commit or the assertion of rst lowers it. -/
theorem onlyAcceptanceSetsBusyOnlyCommitOrResetClearsIt :
    Obligations.OnlyAcceptanceSetsBusyOnlyCommitOrResetClearsIt := by
  intro s t h
  rcases step_cases h with ⟨-, -, rfl⟩ | ⟨e, i, hev, -, -, hx⟩ | ⟨e, x, hev, -, -, rfl⟩ | ⟨a, hev, -, hd, rfl⟩ | ⟨hev, rfl⟩ |
    ⟨-, rfl⟩ | ⟨r, -, -, rfl⟩
  case inr.inl =>
    obtain ⟨hb, hdone⟩ := exec_completes hx
    exact ⟨by simp [hb], fun _ _ => .inl ⟨hev, hdone⟩⟩
  case inr.inr.inl => exact ⟨nofun, fun _ _ => .inl ⟨hev, rfl⟩⟩
  case inr.inr.inr.inl =>
    constructor
    · intro hb hb'
      obtain ⟨v, i, rfl, hi, hop, hdone⟩ := busAccess_raises_busy (s := s.past) hd hb hb'
      exact ⟨v, i, hev, hi, hop.trans ((decode_ok_iff v i).1 hi), hdone⟩
    · intro hb hb'
      simp [busAccess_keeps_busy (s := s.past) hb a] at hb'
  case inr.inr.inr.inr.inl => exact ⟨nofun, fun _ _ => .inr hev⟩
  all_goals exact ⟨fun hb hb' => (nomatch hb.symm.trans hb'), fun hb hb' => (nomatch hb.symm.trans hb')⟩

/-! ### Who writes the parameters and the result registers -/

/-- No step changes the parameters (00_scope.md R9). -/
theorem step_params {s t : State} (h : step s = .next t) : t.params = s.params := by
  rcases step_cases h with ⟨-, -, rfl⟩ | ⟨e, i, -, -, -, hx⟩ | ⟨e, x, -, -, -, rfl⟩ | ⟨a, -, -, -, rfl⟩ | ⟨-, rfl⟩ |
    ⟨-, rfl⟩ | ⟨r, -, -, rfl⟩
  case inr.inl => exact (exec_frame hx).1
  case inr.inr.inr.inl => exact (busAccess_frame s.past a).1
  all_goals rfl

/-- Settles O59: the parameters are never written, and ID and the CAP registers read nothing else. -/
theorem parametersAndIdNeverChange : Obligations.ParametersAndIdNeverChange := by
  intro s t h
  have hp := step_params h
  refine ⟨hp, fun r hr => ?_⟩
  simp only [List.mem_cons, List.not_mem_nil, or_false] at hr
  rcases hr with rfl | rfl | rfl | rfl | rfl <;> simp [State.readReg, hp]

/-- The result registers of the operations (10_state.md R32 to R35) are as before. -/
def State.SameResults (t s : State) : Prop := t.fr = s.fr ∧ t.rsp = s.rsp ∧ t.probe = s.probe ∧ t.outLen = s.outLen

/-- A step other than the assertion of rst leaves every result register alone, unless the engine runs an operation. -/
theorem step_sameResults_or_exec {s t : State} (h : step s = .next t) (hn : s.nextEvent ≠ .rstAssert) :
    t.SameResults s ∨
    ∃ i, s.nextEvent = .engine ∧ s.eng.map Engine.op = some i.opcode ∧ exec i s.past = .next t := by
  rcases step_cases h with ⟨-, -, rfl⟩ | ⟨e, i, hev, he, hi, hx⟩ | ⟨e, x, -, -, -, rfl⟩ | ⟨a, -, -, -, rfl⟩ | ⟨hev, -⟩ |
    ⟨-, rfl⟩ | ⟨r, -, -, rfl⟩
  case inr.inl => exact .inr ⟨i, hev, by rw [he, Option.map_some, (decode_engineWord e i).1 hi], hx⟩
  case inr.inr.inr.inl =>
    obtain ⟨-, hfr, hrsp, hprobe, hout, -⟩ := busAccess_frame s.past a
    exact .inl ⟨hfr, hrsp, hprobe, hout⟩
  case inr.inr.inr.inr.inl => exact absurd hev hn
  all_goals exact .inl ⟨rfl, rfl, rfl, rfl⟩

/-- Settles O42: a result register can change only while the engine runs an operation, and there each has one writer. -/
theorem resultRegistersHaveOneWriter : Obligations.ResultRegistersHaveOneWriter := by
  intro s t h hn
  rcases step_sameResults_or_exec h hn with ⟨hfr, hrsp, hprobe, hout⟩ | ⟨i, hev, hop, hx⟩
  · exact ⟨absurd hfr, absurd hrsp, absurd hprobe, absurd hout⟩
  · obtain ⟨-, -, -, -, -, hfr, hrsp, hprobe, hout⟩ := exec_frame hx
    have op_of : ∀ j : Instr, i = j → s.eng.map Engine.op = some j.opcode := fun j hj => hj ▸ hop
    refine ⟨fun hc => ⟨hev, op_of .c8eDecode ?_⟩, fun hc => ⟨hev, op_of .c12Decode ?_⟩,
      fun hc => ⟨hev, op_of .filterProbe ?_⟩, fun hc => ⟨hev, ?_⟩⟩
    · by_contra hi; exact hc (hfr hi)
    · by_contra hi; exact hc (hrsp hi)
    · by_contra hi; exact hc (hprobe hi)
    · by_cases he : i = .c12Encode
      · exact .inl (op_of _ he)
      · refine .inr (op_of .c12Decode ?_)
        by_contra hi; exact hc (hout he hi)

end Sys2Proof.Machine
end

section
/-! Register and interest-table writes through the bus, and the registers after reset. -/

namespace Sys2Proof.Machine

/-! ### Register writes -/

/-- Every listed register stands at a multiple of 4 below the memories (10_state.md R21). -/
theorem RegName.atOffset_aligned {off : Nat} {r : RegName} (h : RegName.atOffset off = some r) :
    off < 0x1000 ∧ off % 4 = 0 := by
  unfold RegName.atOffset at h
  split at h
  case h_25 => cases h
  all_goals decide

/-- A 32-bit write at a register's offset is a write to the register (20_memory.md R73). -/
theorem State.busWrite_register {off : Nat} {r : RegName} (h : RegName.atOffset off = some r) (s : State) (v : Word) :
    s.busWrite 32 off v = { s.writeReg r v with resp := .writeOk } := by
  obtain ⟨hlt, h4⟩ := RegName.atOffset_aligned h
  have ht : targetAt s.params 32 off = some (.reg r) := by rw [targetAt_register _ hlt h4, h]; rfl
  rw [State.busWrite, ht]

/-- While idle a guarded register write takes effect (10_state.md R24). -/
theorem State.busWrite_guarded {s s' : State} {off : Nat} {r : RegName} {v : Word} (hb : s.status.busy = false)
    (h : RegName.atOffset off = some r) (hw : s.writeReg r v = s.guardWrite s') :
    s.busWrite 32 off v = { s' with resp := .writeOk } := by
  rw [State.busWrite_register h, hw, State.guardWrite_idle _ _ hb]

/-- Settles O35: a word with an operation's OP decodes, so that the CMD write is its acceptance. -/
theorem cmdWriteWhileIdleAcceptsTheOperation : Obligations.CmdWriteWhileIdleAcceptsTheOperation := by
  intro s w i hb hop
  have hissue : s.issue w = s.accept w := by rw [State.issue, (decode_ok_iff w i).2 hop]
  rw [State.busWrite_guarded (r := .cmd) hb rfl rfl, hissue, ← hop]
  rfl

/-- CFG written and read back keeps bits 1:0 (10_state.md R25). -/
theorem Cfg.word_ofWord (v : Word) : (Cfg.ofWord v).word = v &&& 3#32 := by
  apply BitVec.eq_of_getLsbD_eq
  intro i hi
  simp only [Cfg.word, Cfg.ofWord, BitVec.getLsbD_append, BitVec.getLsbD_and, BitVec.getLsbD_ofBool, BitVec.getLsbD_ofNat]
  rcases i with _ | _ | i
  · simp
  · simp [Nat.testBit_succ]
  · simp [Nat.testBit_succ]

/-- A word cut to 16 bits and extended again is its bits 15:0 (10_state.md R28). -/
theorem setWidth_setWidth_half (v : Word) : (v.setWidth 16).setWidth 32 = v &&& 0xFFFF#32 := by
  apply BitVec.eq_of_toNat_eq
  have := Nat.and_two_pow_sub_one_eq_mod v.toNat 16
  simp at this ⊢
  omega

/-- Settles O47: each of these registers is guarded by BUSY alone, and what it stores is what it reads back, since the
reserved bits were never kept. -/
theorem inputRegisterWritesWhileIdle : Obligations.InputRegisterWritesWhileIdle := by
  intro s v hb hp
  have hmax := (Params.bounds hp).2.2.2.1.2
  have hcfg : s.busWrite 32 0x00C v = { s with cfg := Cfg.ofWord v, resp := .writeOk } :=
    State.busWrite_guarded (r := .cfg) hb rfl rfl
  have hlen : s.busWrite 32 0x010 v = { s with inLen := v, resp := .writeOk } :=
    State.busWrite_guarded (r := .inLen) hb rfl rfl
  have hcount : s.busWrite 32 0x014 v =
      { s with isetCount := BitVec.ofNat 32 (min v.toNat s.params.interestMax), resp := .writeOk } :=
    State.busWrite_guarded (r := .isetCount) hb rfl rfl
  have hprobe : s.busWrite 32 0x018 v = { s with probeId := v.setWidth 16, resp := .writeOk } :=
    State.busWrite_guarded (r := .probeId) hb rfl rfl
  rw [hcfg, hlen, hcount, hprobe]
  refine ⟨rfl, Cfg.word_ofWord v, rfl, rfl, ?_, ?_, ?_⟩
  · exact toNat_ofNat_of_le ((min_le_right _ _).trans (by omega))
  · rw [BitVec.setWidth_eq_extractLsb' (by decide)]
  · exact setWidth_setWidth_half v

/-- Settles O48: writing one clears, and a write to STATUS is never guarded. -/
theorem statusWriteClearsOnlyDoneAndWerr : Obligations.StatusWriteClearsOnlyDoneAndWerr := by
  intro s v
  rw [State.busWrite_register (r := .status) rfl, State.writeReg, Status.writeOneToClear]
  cases v.getLsbD 1 <;> cases v.getLsbD 2 <;> simp

/-- The RO registers (10_state.md R21). -/
def RegName.readOnly : RegName → Bool
  | .cmd | .status | .cfg | .inLen | .isetCount | .probeId => false
  | _ => true

theorem State.writeReg_readOnly {r : RegName} (h : r.readOnly = true) (s : State) (v : Word) : s.writeReg r v = s := by
  cases r <;> simp_all [RegName.readOnly, State.writeReg]

/-- Settles O49: each of the offsets holds an RO register. -/
theorem readOnlyRegisterWritesAreIgnored : Obligations.ReadOnlyRegisterWritesAreIgnored := by
  intro s v off hoff
  have hro : (RegName.atOffset off).any RegName.readOnly = true := by
    revert off
    decide
  obtain ⟨r, hr, hreg⟩ := (Option.any_eq_true _ _).1 hro
  rw [State.busWrite_register hr, State.writeReg_readOnly hreg]

/-! ### Words of the interest table -/

/-- A word written on its lanes reads back (20_memory.md R71). -/
theorem readWord_writeBytes_lanes (s : State) (a : Nat) (v : Word) : (s.writeBytes a (lanes v)).readWord a = v := by
  have hbyte : ∀ j (hj : j < 4), (s.writeBytes a (lanes v)).readByte (a + j) = (lanes v)[j] := fun j hj => by
    rw [readByte_writeBytes, dif_pos ⟨Nat.le_add_right a j, by simpa using hj⟩]
    simp only [Nat.add_sub_cancel_left]; rfl
  have h0 := hbyte 0 (by decide)
  rw [Nat.add_zero] at h0
  rw [State.readWord, h0, hbyte 1 (by decide), hbyte 2 (by decide), hbyte 3 (by decide)]
  exact ofLanes_lanes v

section
variable {s : State} {off : Nat} (hp : s.params.wellFormed = true) (h4 : off % 4 = 0) (h1 : isetBase ≤ off)
  (h2 : off + 4 ≤ isetBase + 4 * s.params.interestMax)
include hp h4 h1 h2

/-- A word write to the interest table while idle stores its four lanes (20_memory.md R75). -/
theorem State.busWrite_iset (hb : s.status.busy = false) (v : Word) :
    s.busWrite 32 off v = { s.writeBytes off (lanes v) with resp := .writeOk } := by
  rw [State.busWrite, targetAt_word hp (t := .iset) trivial h4 h1 h2]
  simp only [State.guardWrite_idle _ _ hb]
  rfl

/-- A word read of the interest table gives the word, at any time (20_memory.md R74). -/
theorem State.busRead_iset : (s.busRead 32 off).resp = .readOk (s.readWord off) := by
  rw [State.busRead, targetAt_word hp (t := .iset) trivial h4 h1 h2]
  simp only [Target.drawnWhileBusy, Bool.and_false]
  rfl

end

/-- Settles O52: word k lies in its window, where a write stores the four lanes that a read puts together again. -/
theorem interestWordsKeepAllTheirBits : Obligations.InterestWordsKeepAllTheirBits := by
  intro s v k hb hp hk
  have hbase : isetBase = 0x01000 := rfl
  have h4 : (0x01000 + 4 * k) % 4 = 0 := by omega
  have h1 : isetBase ≤ 0x01000 + 4 * k := by omega
  have h2 : 0x01000 + 4 * k + 4 ≤ isetBase + 4 * s.params.interestMax := by omega
  rw [State.busWrite_iset hp h4 h1 h2 hb v]
  have hword : ({ s.writeBytes (0x01000 + 4 * k) (lanes v) with resp := .writeOk } : State).readWord (0x01000 + 4 * k) = v :=
    readWord_writeBytes_lanes s _ v
  refine ⟨rfl, hword, ?_, fun a ha => readByte_writeBytes_of_outside ha⟩
  rw [State.busRead_iset (by exact hp) h4 h1 (by exact h2), hword]

/-! ### The registers after reset -/

/-- Settles O54: each register's reset value is the one its field has in State.resetWith, and memory lists no byte. -/
theorem resetLeavesTheStatedRegisterValues : Obligations.ResetLeavesTheStatedRegisterValues := by
  intro p
  refine ⟨fun r => ?_, rfl, rfl, rfl, fun a => ⟨_, rfl⟩⟩
  cases r
  case status => exact (show Status.word ⟨false, false, false, false, .noError⟩ = 0#32 by decide)
  case cfg => exact (show Cfg.word ⟨true, false⟩ = 1#32 by decide)
  case probeResult => exact (show ProbeResult.word ⟨false, false⟩ = 0#32 by decide)
  all_goals rfl

end Sys2Proof.Machine
end

section
/-! The host's access, and what a read of a register gives. -/

namespace Sys2Proof.Machine

/-! ### The access a step takes -/

theorem decodesAddr_iff {p : Params} {addr : Nat} :
    decodesAddr p addr = true ↔ p.blockBase ≤ addr ∧ addr < p.blockBase + 0x100000 := by
  simp only [decodesAddr, Bool.and_eq_true, decide_eq_true_eq]; exact Iff.rfl

theorem step_access {s : State} {a : Access} {rest : List Event} (h : s.env = .access a :: rest) :
    step s = takeAccess a { s with env := rest } := by
  rw [step, h]; rfl

theorem takeAccess_inside {s : State} {a : Access} (hr : s.rst = false) (hd : decodesAddr s.params a.addr = true) :
    takeAccess a s = .next (s.busAccess a) := by
  simp [takeAccess, hr, hd]

theorem takeAccess_outside {s : State} {a : Access} (hr : s.rst = false) (hd : ¬ decodesAddr s.params a.addr = true) :
    takeAccess a s = .fault .outsideAperture := by
  simp [takeAccess, hr, hd]

theorem takeAccess_reset {s : State} (a : Access) (hr : s.rst = true) : takeAccess a s = .refused .accessDuringReset := by
  simp [takeAccess, hr]

/-- Settles O5: a step that finds an access takes it, and what the block makes of it turns on rst and the aperture alone. -/
theorem stepTakesTheNextHostAccess : Obligations.StepTakesTheNextHostAccess := by
  intro s width addr v rest
  refine ⟨fun hr h1 h2 => ?_, fun hr hout => ?_, fun hr => ?_⟩
  · have hd := decodesAddr_iff.2 ⟨h1, h2⟩
    exact ⟨fun h => (step_access h).trans (takeAccess_inside hr hd), fun h => (step_access h).trans (takeAccess_inside hr hd)⟩
  · have hd : ¬ decodesAddr s.params addr = true := by rw [decodesAddr_iff]; omega
    rintro (h | h) <;> exact (step_access h).trans (takeAccess_outside hr hd)
  · rintro (h | h) <;> exact (step_access h).trans (takeAccess_reset _ hr)

/-! ### The register map -/

/-- The listed registers and their offsets (10_state.md R21). -/
def registerMap : List (Nat × RegName) :=
  [(0x000, .id), (0x004, .cmd), (0x008, .status), (0x00C, .cfg), (0x010, .inLen), (0x014, .isetCount), (0x018, .probeId),
    (0x020, .crcValue), (0x024, .crcDecl), (0x028, .errPos), (0x02C, .probeResult), (0x030, .frPayloadLen),
    (0x034, .frNrec), (0x038, .frNevt), (0x03C, .frHipri), (0x040, .rspDatasize), (0x044, .rspQty), (0x048, .rspType),
    (0x04C, .rspLen), (0x050, .outLen), (0x060, .capInSize), (0x064, .capOutSize), (0x068, .capEvtMax),
    (0x06C, .capInterestMax)]

theorem RegName.atOffset_of_mem : ∀ e ∈ registerMap, RegName.atOffset e.1 = some e.2 := by decide

theorem RegName.atOffset_iff {off : Nat} {r : RegName} : RegName.atOffset off = some r ↔ (off, r) ∈ registerMap := by
  refine ⟨fun h => ?_, RegName.atOffset_of_mem (off, r)⟩
  unfold RegName.atOffset at h
  split at h
  case h_25 => cases h
  all_goals cases h; decide

/-- A 32-bit read at a register's offset gives the register (20_memory.md R72). -/
theorem State.busRead_register {off : Nat} {r : RegName} (h : RegName.atOffset off = some r) (s : State) :
    s.busRead 32 off = { s with resp := .readOk (s.readReg r) } := by
  obtain ⟨hlt, h4⟩ := RegName.atOffset_aligned h
  have ht : targetAt s.params 32 off = some (.reg r) := by rw [targetAt_register _ hlt h4, h]; rfl
  rw [State.busRead, ht]

theorem toNat_append_ofBool {n : Nat} (x : BitVec n) (b : Bool) :
    (x ++ BitVec.ofBool b).toNat = b.toNat + 2 * x.toNat := by
  rw [BitVec.toNat_append, BitVec.toNat_ofBool, ← Nat.shiftLeft_add_eq_or_of_lt b.toNat_lt, Nat.shiftLeft_eq]
  omega

theorem Status.toNat_word (st : Status) :
    st.word.toNat = st.busy.toNat + 2 * st.done.toNat + 4 * st.werr.toNat + 8 * st.verifyOk.toNat +
      16 * st.result.code.toNat := by
  have hcode : (0#24 ++ st.result.code).toNat = st.result.code.toNat := by
    rw [BitVec.toNat_append]; exact Nat.zero_or _
  simp only [Status.word, toNat_append_ofBool, hcode]
  omega

theorem Cfg.toNat_word (c : Cfg) : c.word.toNat = c.discard.toNat + 2 * c.ie.toNat := by
  simp only [Cfg.word, toNat_append_ofBool]; simp

theorem ProbeResult.toNat_word (p : ProbeResult) : p.word.toNat = p.isMatch.toNat + 2 * p.retain.toNat := by
  simp only [ProbeResult.word, toNat_append_ofBool]; simp

/-- Settles O45: the table lists every register's own value, which the read at its offset answers. -/
theorem registerReadsGiveTheMap : Obligations.RegisterReadsGiveTheMap := by
  intro s off value hp hmem
  obtain ⟨⟨-, hin⟩, ⟨-, hout⟩, ⟨-, hevt⟩, ⟨-, hint⟩, -⟩ := Params.bounds hp
  replace hmem : (off, value) ∈ registerMap.map (fun e => (e.1, (s.readReg e.2).toNat)) := by
    simpa [registerMap, State.readReg, blockId, BitVec.toNat_setWidth_of_le, -BitVec.toNat_setWidth, Status.toNat_word,
      Cfg.toNat_word, ProbeResult.toNat_word, toNat_ofNat_of_le hin, toNat_ofNat_of_le hout,
      toNat_ofNat_of_le (hevt.trans (by decide)), toNat_ofNat_of_le (hint.trans (by decide)), -BitVec.toNat_ofNat] using hmem
  obtain ⟨⟨off', r⟩, hr, heq⟩ := List.mem_map.1 hmem
  cases heq
  rw [State.busRead_register (RegName.atOffset_iff.2 hr), BitVec.ofNat_toNat, BitVec.setWidth_eq]
  exact ⟨rfl, BitVec.isLt _⟩

end Sys2Proof.Machine
end

section
/-! The memory windows through the bus. -/

namespace Sys2Proof.Machine

/-! ### What an access reaches -/

/-- An access reaches a register by an aligned word at its offset (10_state.md R21; 20_memory.md R76). -/
theorem targetAt_eq_reg_iff {p : Params} {width off : Nat} {r : RegName} :
    targetAt p width off = some (.reg r) ↔ width = 32 ∧ off % 4 = 0 ∧ RegName.atOffset off = some r := by
  have hwin : ∀ n, windowAt p off n ≠ some (.reg r) := fun n h => by
    have := List.mem_of_find?_eq_some h
    simp at this
  constructor
  · intro h
    unfold targetAt at h
    split at h
    · split at h <;> cases h
    · split at h
      · split at h
        · cases h
        · split at h
          · exact ⟨‹_›, by omega, by simpa using h⟩
          · exact absurd h (hwin 4)
      · cases h
  · rintro ⟨rfl, h4, h⟩
    rw [targetAt_register p (RegName.atOffset_aligned h).1 h4, h]; rfl

/-- An access reaches a memory window when its bytes lie inside: by an aligned word any window, by a byte IN and OUT
(20_memory.md R74 to R76). -/
theorem targetAt_eq_memory_iff {p : Params} (hp : p.wellFormed = true) {t : Target} (ht : t.isMemory) {width off : Nat} :
    targetAt p width off = some t ↔
      ((width = 32 ∧ off % 4 = 0) ∨ (width = 8 ∧ (t = .inBuf ∨ t = .outBuf))) ∧
        t.base ≤ off ∧ off + width / 8 ≤ t.base + t.size p := by
  constructor
  · intro h
    unfold targetAt at h
    split at h
    case isTrue hw =>
      have hin : windowAt p off 1 = some t ∧ (t = .inBuf ∨ t = .outBuf) := by
        split at h <;> cases h
        · exact ⟨‹_›, .inl rfl⟩
        · exact ⟨‹_›, .inr rfl⟩
      obtain ⟨-, hbounds⟩ := (windowAt_iff hp Nat.one_pos).1 hin.1
      subst hw
      exact ⟨.inr ⟨rfl, hin.2⟩, hbounds⟩
    case isFalse =>
      split at h
      case isTrue hw =>
        subst hw
        split at h
        · cases h
        · split at h
          · obtain ⟨r, -, rfl⟩ := Option.map_eq_some_iff.1 h
            exact ht.elim
          · obtain ⟨-, hbounds⟩ := (windowAt_iff hp (by decide)).1 h
            exact ⟨.inl ⟨rfl, by omega⟩, hbounds⟩
      case isFalse => cases h
  · rintro ⟨⟨rfl, h4⟩ | ⟨rfl, rfl | rfl⟩, h1, h2⟩
    · exact targetAt_word hp ht h4 h1 h2
    · exact targetAt_inByte hp h1 h2
    · exact targetAt_outByte hp h1 h2

theorem Target.exists_iff {P : Target → Prop} :
    (∃ t, P t) ↔ (∃ r, P (.reg r)) ∨ P .iset ∨ P .inBuf ∨ P .outBuf ∨ P .recTable ∨ P .evtTable := by
  constructor
  · rintro ⟨t, h⟩
    cases t
    case reg => exact .inl ⟨_, h⟩
    all_goals simp only [h, true_or, or_true]
  · rintro (⟨r, h⟩ | h | h | h | h | h) <;> exact ⟨_, h⟩

/-- The targets a host write is taken at; at the others it is a bus error (20_memory.md R76 (f)). -/
def Target.takesWrites : Target → Bool
  | .reg _ | .iset | .inBuf => true
  | .outBuf | .recTable | .evtTable => false

/-! ### What an access answers -/

theorem State.busRead_error {s : State} {width off : Nat} (h : targetAt s.params width off = none) :
    s.busRead width off = { s with resp := .readError 0 } := by
  rw [State.busRead, h]

/-- Every read that reaches something is answered with a value. -/
theorem State.busRead_resp {s : State} {width off : Nat} {t : Target} (h : targetAt s.params width off = some t) :
    ∃ x, (s.busRead width off).resp = .readOk x := by
  rw [State.busRead, h]
  cases t
  case reg => exact ⟨_, rfl⟩
  all_goals dsimp only; split <;> exact ⟨_, rfl⟩

/-- A read of a window whose contents are specified gives the bytes (20_memory.md R74). -/
theorem State.busRead_bytes {s : State} {width off : Nat} {t : Target} (h : targetAt s.params width off = some t)
    (ht : t.isMemory) (hq : (s.status.busy && t.drawnWhileBusy) = false) :
    s.busRead width off = { s with resp := .readOk (busValue width s.readByte off) } := by
  rw [State.busRead, h]
  cases t
  case reg => exact ht.elim
  all_goals simp only [hq]; rfl

/-- A read of a window whose contents are unspecified gives a fresh draw (20_memory.md R74; log 4). -/
theorem State.busRead_drawn {s : State} {width off : Nat} {t : Target} (h : targetAt s.params width off = some t)
    (hq : (s.status.busy && t.drawnWhileBusy) = true) :
    s.busRead width off =
      { s with resp := .readOk (busValue width (Config.freeByte s.nextDraw) off), nextDraw := s.nextDraw + 1 } := by
  rw [State.busRead, h]
  cases t
  case reg => simp [Target.drawnWhileBusy] at hq
  all_goals simp only [hq]; rfl

theorem State.busWrite_taken {s : State} {width off : Nat} {t : Target} (h : targetAt s.params width off = some t)
    (ht : t.takesWrites = true) (v : Word) : (s.busWrite width off v).resp = .writeOk := by
  rw [State.busWrite, h]
  cases t
  case reg | iset | inBuf => rfl
  all_goals cases ht

theorem State.busWrite_error {s : State} {width off : Nat}
    (h : ¬ ∃ t, targetAt s.params width off = some t ∧ t.takesWrites = true) (v : Word) :
    s.busWrite width off v = { s with resp := .writeError } := by
  rw [State.busWrite]
  cases ht : targetAt s.params width off with
  | none => rfl
  | some t =>
    cases t
    case reg | iset | inBuf => exact absurd ⟨_, ht, rfl⟩ h
    all_goals rfl

/-- Settles O50: the accesses that R76 leaves are those that reach something, and the writes among them those that reach
what takes writes. -/
theorem busErrorsAreExactlyTheListedAccesses : Obligations.BusErrorsAreExactlyTheListedAccesses := by
  intro s width off v hp registers bytes inside iset inBuf outBuf recTable evtTable readable writable
  have hreg : (∃ r, targetAt s.params width off = some (.reg r)) ↔ width = 32 ∧ off % 4 = 0 ∧ off ∈ registers := by
    rw [show registers = registerMap.map Prod.fst from rfl]
    simp [targetAt_eq_reg_iff, RegName.atOffset_iff]
  have hword : ∀ t : Target, t.isMemory → t ≠ .inBuf → t ≠ .outBuf → (targetAt s.params width off = some t ↔
      (width = 32 ∧ off % 4 = 0) ∧ inside t.base (t.size s.params)) := fun t ht h1 h2 => by
    rw [targetAt_eq_memory_iff hp ht]; simp [h1, h2, inside, bytes]
  have hbyte : ∀ t : Target, t = .inBuf ∨ t = .outBuf → (targetAt s.params width off = some t ↔
      ((width = 32 ∧ off % 4 = 0) ∨ width = 8) ∧ inside t.base (t.size s.params)) := fun t ht => by
    rw [targetAt_eq_memory_iff hp (by rcases ht with rfl | rfl <;> trivial)]; simp [ht, inside, bytes]
  have hiset : targetAt s.params width off = some .iset ↔ (width = 32 ∧ off % 4 = 0) ∧ iset := hword _ trivial nofun nofun
  have hrec : targetAt s.params width off = some .recTable ↔ (width = 32 ∧ off % 4 = 0) ∧ recTable :=
    hword _ trivial nofun nofun
  have hevt : targetAt s.params width off = some .evtTable ↔ (width = 32 ∧ off % 4 = 0) ∧ evtTable :=
    hword _ trivial nofun nofun
  have hin : targetAt s.params width off = some .inBuf ↔ ((width = 32 ∧ off % 4 = 0) ∨ width = 8) ∧ inBuf :=
    hbyte _ (.inl rfl)
  have hout : targetAt s.params width off = some .outBuf ↔ ((width = 32 ∧ off % 4 = 0) ∨ width = 8) ∧ outBuf :=
    hbyte _ (.inr rfl)
  have hreadable : readable ↔ ∃ t, targetAt s.params width off = some t := by
    rw [Target.exists_iff, hreg, hiset, hin, hout, hrec, hevt]
    by_cases hw : width = 32 ∧ off % 4 = 0
    · simp [readable, hw]
    · simp [readable, hw, ← and_assoc, and_or_left]
  have hwritable : writable ↔ ∃ t, targetAt s.params width off = some t ∧ t.takesWrites = true := by
    simp only [Target.exists_iff, Target.takesWrites, and_true, Bool.false_eq_true, and_false, or_false, hreg, hiset, hin]
    by_cases hw : width = 32 ∧ off % 4 = 0
    · simp [writable, hw]
    · simp [writable, hw, ← and_assoc]
  rw [hreadable, hwritable]
  refine ⟨fun h => ?_, fun ⟨t, h⟩ => State.busRead_resp h, fun h => State.busWrite_error h v,
    fun ⟨t, h, ht⟩ => State.busWrite_taken h ht v⟩
  exact State.busRead_error (Option.eq_none_iff_forall_ne_some.2 fun t ht => h ⟨t, ht⟩)

/-! ### The bytes of a read and of a write -/

/-- Settles O53: the window that holds the bytes is the one with that base and size, and its contents are unspecified
exactly in the cases the second half names. -/
theorem memoryReadsGiveTheBytesOrAFreeValue : Obligations.MemoryReadsGiveTheBytesOrAFreeValue := by
  intro s width off base size v free hp hle h
  have hv : v = busValue width s.readByte off := by
    rcases h with ⟨rfl, -, -, rfl, -⟩ | ⟨rfl, -, -, hv, -⟩
    · rfl
    · exact BitVec.eq_of_toNat_eq (hv.trans (BitVec.toNat_setWidth_of_le (by decide)).symm)
  have hfree : free = busValue width (Config.freeByte s.nextDraw) off := by
    rcases h with ⟨rfl, -, -, -, rfl⟩ | ⟨rfl, -, -, -, hfree⟩
    · rfl
    · exact BitVec.eq_of_toNat_eq (hfree.trans (BitVec.toNat_setWidth_of_le (by decide)).symm)
  have htarget : ∀ t : Target, t.isMemory → t.base = base → t.size s.params = size → targetAt s.params width off = some t := by
    rintro t ht rfl rfl
    refine (targetAt_eq_memory_iff hp ht).2 ?_
    rcases h with ⟨rfl, h4, hend, -⟩ | ⟨rfl, hbase, hend, -⟩
    · exact ⟨.inl ⟨rfl, h4⟩, hle, hend⟩
    · refine ⟨.inr ⟨rfl, ?_⟩, hle, hend⟩
      cases t with
      | inBuf => exact .inl rfl
      | outBuf => exact .inr rfl
      | reg => exact ht.elim
      | iset | recTable | evtTable => exact absurd hbase (by decide)
  subst hv hfree
  simp only [List.mem_cons, List.not_mem_nil, or_false, Prod.mk.injEq]
  constructor
  · have hread : ∀ t : Target, t.isMemory → t.drawnWhileBusy = false → t.base = base → t.size s.params = size →
        s.busRead width off = { s with resp := .readOk (busValue width s.readByte off) } := fun t ht hq hb hs =>
      State.busRead_bytes (htarget t ht hb hs) ht (by rw [hq, Bool.and_false])
    rintro (⟨rfl, rfl⟩ | ⟨rfl, rfl⟩)
    · exact hread .iset trivial rfl rfl rfl
    · exact hread .inBuf trivial rfl rfl rfl
  · intro hwindow
    obtain ⟨t, ht, hq, hat⟩ : ∃ t : Target, t.isMemory ∧ t.drawnWhileBusy = true ∧ targetAt s.params width off = some t := by
      rcases hwindow with ⟨rfl, rfl⟩ | ⟨rfl, rfl⟩ | ⟨rfl, rfl⟩
      · exact ⟨.outBuf, trivial, rfl, htarget _ trivial rfl rfl⟩
      · exact ⟨.recTable, trivial, rfl, htarget _ trivial rfl rfl⟩
      · exact ⟨.evtTable, trivial, rfl, htarget _ trivial rfl rfl⟩
    exact ⟨fun hb => State.busRead_bytes hat ht (by rw [hb, Bool.false_and]),
      fun hb => State.busRead_drawn hat (by rw [hb, hq]; rfl)⟩

/-- A write to IN while idle stores its bytes and changes nothing else (20_memory.md R75). -/
theorem State.busWrite_inBuf {s : State} {width off : Nat} (h : targetAt s.params width off = some .inBuf)
    (hb : s.status.busy = false) (v : Word) :
    s.busWrite width off v = { s with mem := (s.busWrite width off v).mem, resp := .writeOk } ∧
    (∀ a, (s.busWrite width off v).readByte a = (s.writeBytes off (busBytes width v)).readByte a) := by
  have hx : s.busWrite width off v = { s.writeBytes off (busBytes width v) with resp := .writeOk } := by
    rw [State.busWrite, h]; simp only [State.guardWrite_idle _ _ hb]
  rw [hx]
  exact ⟨rfl, fun a => rfl⟩

/-- A read of IN gives its bytes at any time (20_memory.md R74). -/
theorem State.busRead_inBuf {s : State} {width off : Nat} (h : targetAt s.params width off = some .inBuf) :
    (s.busRead width off).resp = .readOk (busValue width s.readByte off) := by
  rw [State.busRead_bytes h trivial (Bool.and_false _)]

theorem readByte_writeBytes_of_inside {s : State} {a k : Nat} {bs : List Byte} (hk : k < bs.length) :
    (s.writeBytes a bs).readByte (a + k) = bs[k] := by
  rw [readByte_writeBytes, dif_pos ⟨Nat.le_add_right a k, by omega⟩]
  simp only [Nat.add_sub_cancel_left]

theorem getElem_lanes {v : Word} {k : Nat} (hk : k < (lanes v).length) : (lanes v)[k] = v.extractLsb' (8 * k) 8 := by
  match k, hk with
  | 0, _ | 1, _ | 2, _ | 3, _ => rfl

/-- Settles O51: what a write stores in IN is what a read of either width finds there. -/
theorem inAccessesUseLittleEndianLanes : Obligations.InAccessesUseLittleEndianLanes := by
  intro s v off hb hp h1
  constructor
  · intro h4 h2 t
    have hat : targetAt s.params 32 off = some .inBuf := targetAt_word hp (t := .inBuf) trivial h4 h1 h2
    obtain ⟨ht, hread⟩ : t = _ ∧ ∀ a, t.readByte a = (s.writeBytes off (lanes v)).readByte a :=
      State.busWrite_inBuf hat hb v
    have hparams : t.params = s.params := by rw [ht]
    have hlane : ∀ k, k < 4 → t.readByte (off + k) = v.extractLsb' (8 * k) 8 := fun k hk =>
      (hread _).trans ((readByte_writeBytes_of_inside hk).trans (getElem_lanes hk))
    have hword : t.readWord off = v := (readWord_congr hread off).trans (readWord_writeBytes_lanes s off v)
    refine ⟨ht, ?_, fun k hk => ⟨hlane k hk, ?_⟩, fun a ha => (hread a).trans (readByte_writeBytes_of_outside ha)⟩
    · exact (State.busRead_inBuf (hparams ▸ hat)).trans (congrArg BusAnswer.readOk hword)
    · have hat8 : targetAt s.params 8 (off + k) = some .inBuf := targetAt_inByte hp (by omega) (by omega)
      rw [State.busRead_inBuf (hparams ▸ hat8), ← hlane k hk]; rfl
  · intro h2 t
    have hat : targetAt s.params 8 off = some .inBuf := targetAt_inByte hp h1 h2
    obtain ⟨ht, hread⟩ : t = _ ∧ ∀ a, t.readByte a = (s.writeBytes off [v.extractLsb' 0 8]).readByte a :=
      State.busWrite_inBuf hat hb v
    have hparams : t.params = s.params := by rw [ht]
    have hbyte : t.readByte off = v.extractLsb' 0 8 :=
      (hread off).trans (readByte_writeBytes_of_inside (k := 0) (bs := [_]) Nat.one_pos)
    refine ⟨ht, ?_, fun a ha => (hread a).trans (readByte_writeBytes_of_outside (by rw [List.length_singleton]; omega))⟩
    rw [State.busRead_inBuf (hparams ▸ hat), ← hbyte]; rfl

end Sys2Proof.Machine
end

section
/-! A host access while an operation runs: what it can change, and that the operation's commit does not depend on it. -/

namespace Sys2Proof.Machine

/-- s after host accesses while BUSY: the bus answer, STATUS.DONE, STATUS.WERR and the number of the next draw may differ
(20_memory.md R82). -/
def State.accessed (s : State) (x : BusAnswer) (done werr : Bool) (draw : Nat) : State :=
  { s with resp := x, status := { s.status with done := done, werr := werr }, nextDraw := draw }

/-- An access while BUSY changes at most what State.accessed names (60_exceptions.md R226 (2), R231). -/
theorem State.busAccess_busy {s : State} (hb : s.status.busy = true) (a : Access) :
    ∃ x d w n, s.busAccess a = s.accessed x d w n := by
  cases a with
  | read width addr =>
    obtain ⟨x, n, -, h⟩ := s.busRead_cases width (addr - s.params.blockBase)
    exact ⟨x, _, _, n, h⟩
  | write width addr v =>
    obtain ⟨x, d, w, h⟩ := State.busWrite_busy hb width (addr - s.params.blockBase) v
    exact ⟨x, d, w, _, h⟩

/-- Settles O39: an access while BUSY changes what it may, and those are the fields the statement leaves open. -/
theorem registersKeepTheirPreCommitValues : Obligations.RegistersKeepTheirPreCommitValues := by
  intro s a hb _
  obtain ⟨x, d, w, n, h⟩ := State.busAccess_busy hb a
  rw [h]; rfl

/-- t' is the commit t but for WERR, the bus answer and the draws of the model. -/
def State.SameCommit (t' t : State) : Prop :=
  t' = { t with
         status := { t.status with werr := t'.status.werr }
         resp := t'.resp, nextDraw := t'.nextDraw, tblDraw := t'.tblDraw }

/-- Both outcomes go on, with the same commit, or both refuse for the same reason. -/
inductive CommitsAlike : Host.Outcome State Fault Refusal → Host.Outcome State Fault Refusal → Prop
  | next {t' t : State} (h : t'.SameCommit t) : CommitsAlike (.next t') (.next t)
  | refused (r : Refusal) : CommitsAlike (.refused r) (.refused r)

section
variable (s : State) (x : BusAnswer) (d w : Bool) (n : Nat)

/-! ### What an operation reads is as before -/

@[simp] theorem State.accessed_params : (s.accessed x d w n).params = s.params := rfl
@[simp] theorem State.accessed_start : (s.accessed x d w n).start = s.start := rfl
@[simp] theorem State.accessed_probeId : (s.accessed x d w n).probeId = s.probeId := rfl

theorem readByte_accessed (a : Nat) : (s.accessed x d w n).readByte a = s.readByte a := readByte_congr rfl rfl rfl a

@[simp] theorem frameByte_accessed (k : Nat) : (s.accessed x d w n).frameByte k = s.frameByte k := readByte_accessed ..

@[simp] theorem frameBytes_accessed (off len : Nat) : (s.accessed x d w n).frameBytes off len = s.frameBytes off len :=
  frameBytes_congr fun k _ _ => frameByte_accessed s x d w n k

@[simp] theorem verify_accessed (len : Nat) : verify (s.accessed x d w n) len = verify s len := by
  simp only [verify, frameBytes_accessed]

@[simp] theorem isMatch_accessed (id : Half) : (s.accessed x d w n).isMatch id = s.isMatch id := by
  have hentry : ∀ k, (s.accessed x d w n).isetEntry k = s.isetEntry k := fun k => readWord_congr (readByte_accessed s x d w n) _
  simp only [State.isMatch, hentry]; rfl

@[simp] theorem retain_accessed (m : Bool) : (s.accessed x d w n).retain m = s.retain m := rfl

@[simp] theorem parseFrame_accessed (e : Engine) : parseFrame (s.accessed x d w n) e = parseFrame s e :=
  parseFrame_congr
    { bytes := fun k _ => frameByte_accessed s x d w n k, isMatch := isMatch_accessed s x d w n,
      retain := retain_accessed s x d w n, resolver := rfl, params := rfl }

@[simp] theorem parseResponse_accessed (e : Engine) : parseResponse (s.accessed x d w n) e = parseResponse s e :=
  parseResponse_congr (fun k _ => frameByte_accessed s x d w n k) rfl

/-! ### Each commit is the same -/

theorem sameCommit_failure (i : Instr) (crc : Half) (decl : Word) (pos : Nat) (r : ResultCode) :
    ((((s.accessed x d w n).zeroResults i).setCheck crc decl pos).commit r false).SameCommit
      (((s.zeroResults i).setCheck crc decl pos).commit r false) := by
  cases i <;> rfl

theorem sameCommit_check (crc : Half) (decl : Word) (pos : Nat) (r : ResultCode) (ok : Bool) :
    (((s.accessed x d w n).setCheck crc decl pos).commit r ok).SameCommit ((s.setCheck crc decl pos).commit r ok) := rfl

theorem sameCommit_command (cmd : List Byte) : ((s.accessed x d w n).commitCommand cmd).SameCommit (s.commitCommand cmd) := rfl

theorem sameCommit_response (v : Verified) (p : ParsedResponse) :
    ((s.accessed x d w n).commitResponse v p).SameCommit (s.commitResponse v p) := rfl

theorem sameCommit_frame (v : Verified) (p : Parsed) :
    ((s.accessed x d w n).commitFrame v p).SameCommit (s.commitFrame v p) := rfl

/-! ### Each operation takes the same branch -/

theorem execCrcCompute_accessed : CommitsAlike (execCrcCompute (s.accessed x d w n)) (execCrcCompute s) := by
  apply CommitsAlike.next
  simp only [State.accessed_params, State.accessed_start, frameBytes_accessed]
  split
  · exact sameCommit_failure ..
  · exact sameCommit_check ..

theorem execCrcVerify_accessed : CommitsAlike (execCrcVerify (s.accessed x d w n)) (execCrcVerify s) := by
  apply CommitsAlike.next
  simp only [State.accessed_params, State.accessed_start, verify_accessed]
  split
  · exact sameCommit_failure ..
  · split
    · exact sameCommit_failure ..
    · exact sameCommit_check ..

theorem execC8eDecode_accessed : CommitsAlike (execC8eDecode (s.accessed x d w n)) (execC8eDecode s) := by
  simp only [execC8eDecode, State.accessed_params, State.accessed_start, frameByte_accessed, verify_accessed,
    parseFrame_accessed]
  have failed : ∀ crc decl pos r, CommitsAlike
      (.next ((((s.accessed x d w n).zeroResults .c8eDecode).setCheck crc decl pos).commit r false))
      (.next (((s.zeroResults .c8eDecode).setCheck crc decl pos).commit r false)) :=
    fun _ _ _ _ => .next (sameCommit_failure ..)
  split
  · exact failed ..
  · split
    · exact failed ..
    · split
      · exact failed ..
      · split
        · exact failed ..
        · split
          · split
            · exact .next (sameCommit_frame ..)
            · exact failed ..
            · exact .refused ..
          · exact failed ..

theorem execC12Encode_accessed : CommitsAlike (execC12Encode (s.accessed x d w n)) (execC12Encode s) := by
  apply CommitsAlike.next
  simp only [State.accessed_params, State.accessed_start, frameBytes_accessed]
  split
  · exact sameCommit_failure ..
  · split
    · exact sameCommit_failure ..
    · exact sameCommit_command ..

theorem execC12Decode_accessed : CommitsAlike (execC12Decode (s.accessed x d w n)) (execC12Decode s) := by
  apply CommitsAlike.next
  simp only [State.accessed_params, State.accessed_start, frameByte_accessed, verify_accessed, parseResponse_accessed]
  split
  · exact sameCommit_failure ..
  · split
    · exact sameCommit_failure ..
    · split
      · exact sameCommit_failure ..
      · split
        · exact sameCommit_failure ..
        · split
          · split
            · exact sameCommit_response ..
            · exact sameCommit_failure ..
          · exact sameCommit_failure ..

theorem execFilterProbe_accessed : CommitsAlike (execFilterProbe (s.accessed x d w n)) (execFilterProbe s) := by
  rw [execFilterProbe_eq, execFilterProbe_eq]
  simp only [State.accessed_probeId, isMatch_accessed, retain_accessed]
  exact .next rfl

theorem exec_accessed (i : Instr) : CommitsAlike (exec i (s.accessed x d w n)) (exec i s) := by
  cases i with
  | crcCompute => exact execCrcCompute_accessed ..
  | crcVerify => exact execCrcVerify_accessed ..
  | c8eDecode => exact execC8eDecode_accessed ..
  | c12Encode => exact execC12Encode_accessed ..
  | c12Decode => exact execC12Decode_accessed ..
  | filterProbe => exact execFilterProbe_accessed ..

end

/-- Settles O38: an access while BUSY changes nothing an operation reads, and the commit writes DONE itself. -/
theorem hostAccessWhileBusyNeverChangesTheResult : Obligations.HostAccessWhileBusyNeverChangesTheResult := by
  intro i s t a hb _ h
  obtain ⟨x, d, w, n, ha⟩ := State.busAccess_busy hb a
  have halike := exec_accessed s x d w n i
  rw [h] at halike
  rw [ha]
  generalize exec i (s.accessed x d w n) = o at halike ⊢
  cases halike with
  | next hsame => exact ⟨_, rfl, hsame⟩

end Sys2Proof.Machine
end

section
/-! The operation word: what the decoder rejects, and the rows of the opcode table (30_encoding.md R91, R92, R109). -/

namespace Sys2Proof

/-- A value of OP is an operation's exactly when it is not reserved (30_encoding.md R91, R92). -/
theorem exists_opcode_iff (f : BitVec 4) : (∃ i : Instr, f = i.opcode) ↔ ¬ (f = 0x0#4 ∨ 0x7#4 ≤ f) := by
  constructor
  · rintro ⟨i, rfl⟩
    cases i <;> decide
  · have rows : ∀ f : BitVec 4, ¬ (f = 0x0#4 ∨ 0x7#4 ≤ f) → ∃ r ∈ opTable, f = r.instr.opcode := by decide
    intro h
    obtain ⟨r, -, hr⟩ := rows f h
    exact ⟨r.instr, hr⟩

/-- The decoder rejects a word when no operation is its decoding. -/
theorem decode_error_iff (w : Word) : (∃ e, decode w = .error e) ↔ ¬ ∃ i, decode w = .ok i := by
  cases decode w <;> simp

theorem opField_encodeWith (upper : BitVec 28) (i : Instr) : opField (encodeWith upper i) = i.opcode := by
  rw [opField, encodeWith, BitVec.extractLsb'_append_eq_right]

/-- Settles O1: the decoder reads OP alone (`decode_ok_iff`), the encoder writes it, and no operation has a reserved OP. -/
theorem decodeReadsOpFieldAndInvertsEncode : Obligations.DecodeReadsOpFieldAndInvertsEncode := by
  refine ⟨fun i upper _ => ⟨?_, ?_⟩, decode_ok_iff, fun w => ?_⟩
  · exact (decode_ok_iff _ i).2 (opField_setWidth i.opcode)
  · exact (decode_ok_iff _ i).2 (opField_encodeWith upper i)
  · simp only [decode_error_iff, decode_ok_iff, exists_opcode_iff, not_not]

/-- Every row of the opcode table masks the same bits: those of OP. -/
theorem mask_of_mem_opTable : ∀ r ∈ opTable, r.mask = 0x0000000F#32 := by decide

theorem eq_of_pattern_eq : ∀ r ∈ opTable, ∀ r' ∈ opTable, r.pattern = r'.pattern → r = r' := by decide

/-- Settles O2: two rows that a word selects have one mask, hence one pattern, and no two rows share a pattern. -/
theorem opTableRowsAreDisjoint : Obligations.OpTableRowsAreDisjoint := by
  intro w r r' hr hr' hw hw'
  have hp : w &&& r.mask = r.pattern := eq_of_beq hw
  have hp' : w &&& r'.mask = r'.pattern := eq_of_beq hw'
  rw [mask_of_mem_opTable r hr] at hp
  rw [mask_of_mem_opTable r' hr'] at hp'
  exact eq_of_pattern_eq r hr r' hr' (hp.symm.trans hp')

/-- Settles O3: the decoder's own answer on each of the nine words. -/
theorem writtenOutWordsDecode : Obligations.WrittenOutWordsDecode := by
  unfold Obligations.WrittenOutWordsDecode
  decide

end Sys2Proof
end

section
/-! C8E_DECODE of a frame that the wire grammar wrote (30_encoding.md R94): where its parts stand, that both gates pass, and
what the parse and the commit make of it. -/

namespace Sys2Proof.Machine

/-- The parts of a written frame at their offsets in IN (30_encoding.md R94). -/
structure State.HoldsFrame (s : State) (plen : Word) (rs : List Wire.Record) (trailing : List Byte) : Prop where
  inLen : s.inLen.toNat = 12 + (Wire.region rs trailing).length
  payloadLen : s.frameBytes 4 4 = beBytes 4 plen.toNat
  region : s.frameBytes 8 (Wire.region rs trailing).length = Wire.region rs trailing
  checksum : s.frameBytes (8 + (Wire.region rs trailing).length) 4 = beBytes 4 (crc16 (Wire.region rs trailing)).toNat

theorem holdsFrame_of_frame {s : State} {preamble trailing : List Byte} {plen : Word} {rs : List Wire.Record}
    (hpre : preamble.length = 4) (hlen : s.inLen.toNat = (Wire.frame preamble plen rs trailing).length)
    (hbytes : s.frameBytes 0 s.inLen.toNat = Wire.frame preamble plen rs trailing) : s.HoldsFrame plen rs trailing := by
  rw [hlen] at hbytes
  obtain ⟨-, hrest⟩ := frameBytes_split hbytes hpre
  obtain ⟨hplen, hrest⟩ := frameBytes_split hrest (length_beBytes 4 _)
  obtain ⟨hregion, hsum⟩ := frameBytes_split hrest rfl
  rw [length_beBytes] at hsum
  refine ⟨?_, hplen, hregion, hsum⟩
  simp only [hlen, Wire.frame, List.length_append, length_beBytes, hpre]
  omega

section
variable {s : State} {plen : Word} {rs : List Wire.Record} {trailing : List Byte}

theorem length_region : (Wire.region rs trailing).length = 2 + ((Wire.recordsBytes rs).length + trailing.length) := by
  simp only [Wire.region, List.length_cons, List.length_append]
  omega

/-- The region of a written frame: codec tag, record count, records (30_encoding.md R94). -/
theorem State.HoldsFrame.region_parts (h : s.HoldsFrame plen rs trailing) :
    s.frameByte 8 = 0x8E#8 ∧ s.frameBytes 9 1 = [BitVec.ofNat 8 rs.length] ∧
    s.frameBytes 10 (Wire.recordsBytes rs).length = Wire.recordsBytes rs := by
  have hregion : s.frameBytes 8 ([0x8E#8] ++ ([BitVec.ofNat 8 rs.length] ++ (Wire.recordsBytes rs ++ trailing))).length =
      [0x8E#8] ++ ([BitVec.ofNat 8 rs.length] ++ (Wire.recordsBytes rs ++ trailing)) := h.region
  obtain ⟨htag, hrest⟩ := frameBytes_split (n := 1) hregion rfl
  obtain ⟨hcount, hrest⟩ := frameBytes_split (n := 1) hrest rfl
  exact ⟨List.head_eq_of_cons_eq htag, hcount, (frameBytes_split hrest rfl).1⟩

/-- What Verify returns for a written frame (40_crc.md R123). -/
def frameVerified (rs : List Wire.Record) (trailing : List Byte) : Verified :=
  { ok := true, crc := crc16 (Wire.region rs trailing), decl := (crc16 (Wire.region rs trailing)).setWidth 32 }

/-- The checksum of a written frame is right. -/
theorem State.HoldsFrame.verify_eq (h : s.HoldsFrame plen rs trailing) :
    verify s s.inLen.toNat = frameVerified rs trailing := by
  have hcrc := (crc16 (Wire.region rs trailing)).isLt
  have hsum : beval (beBytes 4 (crc16 (Wire.region rs trailing)).toNat) = (crc16 (Wire.region rs trailing)).toNat :=
    beval_beBytes_of_lt (by omega)
  unfold verify
  rw [h.inLen, Nat.add_sub_cancel_left, show ∀ n, 12 + n - 4 = 8 + n by omega, h.region, h.checksum, hsum]
  simp [frameVerified]

/-- A written frame passes both gates: its C8E_DECODE commits what the parse gives (41_codec8e.md R141). -/
theorem State.HoldsFrame.exec_of_parse (h : s.HoldsFrame plen rs trailing) (hin : s.inLen.toNat ≤ s.params.inSize)
    {p : Parsed} (hp : parseFrame s { s.start with crc := (frameVerified rs trailing).crc } = .ok p) :
    exec .c8eDecode s = .next (s.commitFrame (frameVerified rs trailing) p) := by
  have hgates := execC8eDecode_of_gates hin (by rw [h.inLen]; omega) h.region_parts.1 (by rw [h.verify_eq]; rfl)
  rw [h.verify_eq, hp] at hgates
  exact hgates

/-- The parse of a written frame whose events fit gives its header, its records and its events (41_codec8e.md R170, R171). -/
theorem State.HoldsFrame.parseFrame_eq (h : s.HoldsFrame plen rs trailing) (ha : s.resolver.answering = true)
    (hcount : rs.length < 256) (hfits : ∀ r ∈ rs, r.fits)
    (hroom : (Wire.allEvents s 0 10 rs).length ≤ s.params.evtMax) (crc : Half) :
    ∃ d, parseFrame s { s.start with crc := crc } = .ok { payloadLen := plen.toNat, nrec := rs.length, intake := d } ∧
      d.recs = Wire.allEntries s 0 10 0 rs ∧ d.evts = Wire.allEvents s 0 10 rs ∧
      d.eng.nev = (Wire.allEvents s 0 10 rs).length ∧ d.eng.hi = Wire.highest rs := by
  obtain ⟨-, hnrec, hrecords⟩ := h.region_parts
  have hlen : s.start.len = 12 + (Wire.region rs trailing).length := h.inLen
  have hwithin : 10 + (Wire.recordsBytes rs).length ≤ s.start.len := by rw [hlen, length_region]; omega
  obtain ⟨d, hd, hrecs, hevts, hnev, hhi⟩ :=
    (records_wire ha rs (intakeStart { s.start with crc := crc }) hfits hwithin hrecords).1
      (by simpa [intakeStart] using hroom)
  refine ⟨d, parseFrame_ok_iff.2 ⟨?_, ?_, ?_, hd⟩, hrecs, hevts, by simpa [intakeStart] using hnev, hhi⟩
  · change 10 ≤ s.start.len
    omega
  · rw [h.payloadLen, beval_beBytes_of_lt plen.isLt]
  · rw [hnrec, beval_singleton, BitVec.toNat_ofNat, Nat.mod_eq_of_lt hcount]

end

/-- A commit of a complete parse writes no byte outside the two tables (41_codec8e.md R175). -/
theorem readByte_commitFrame_of_outside {s : State} {e : Engine} {p : Parsed} (hw : s.params.wellFormed = true)
    (hp : parseFrame s e = .ok p) (v : Verified) {a : Nat} (h : a < 0x30000 ∨ 0x80000 ≤ a) :
    (s.commitFrame v p).readByte a = s.readByte a := by
  obtain ⟨hrecs, hevts⟩ := tables_fit hw hp
  rw [readByte_commitFrame, readByte_setTables_of_outside hrecs hevts h]

/-- Settles O21: the commit of a written frame's parse, whose tables hold the entries word by word. -/
theorem c8eDecodesEveryFrameOfTheWireGrammar : Obligations.C8eDecodesEveryFrameOfTheWireGrammar := by
  intro s preamble trailing plen rs hw ha hpre hcount hfits hlen hin hbytes hroom
  have hframe := holdsFrame_of_frame hpre hlen hbytes
  obtain ⟨d, hp, hrecs, hevts, hnev, hhi⟩ := hframe.parseFrame_eq ha hcount hfits hroom _
  refine ⟨_, hframe.exec_of_parse hin hp, ?_, length_allEntries .., ?_, ?_, ?_⟩
  · rw [← hnev, ← hhi]
    simp only [State.commitFrame, BitVec.ofNat_toNat, BitVec.setWidth_eq]
    rfl
  · intro r w e hrw hre
    obtain ⟨first, evts, rfl⟩ := entry_of_allEntries hrw hre
    exact record_stands_of_words fun k v hk => readWord_recordEntry hw hp (by rw [hrecs]; exact hre) hk
  · intro n e hne
    exact event_stands_of_words fun k v hk => readWord_eventEntry hw hp (by rw [hevts]; exact hne) hk
  · exact fun a hout => readByte_commitFrame_of_outside hw hp _ hout

end Sys2Proof.Machine
end

section
/-! CRC-16/ARC over whole byte sequences: it is linear over XOR, and it changes with any one byte (40_crc.md R122). -/

namespace Sys2Proof.Machine

/-! ### Linear over XOR -/

/-- The register after a sequence is linear in the register before it and the bytes together. -/
theorem foldl_crcByte_xor {s e : List Byte} (h : s.length = e.length) (c d : Half) :
    (List.zipWith (fun a b => a ^^^ b) s e).foldl crcByte (c ^^^ d) = s.foldl crcByte c ^^^ e.foldl crcByte d := by
  induction s generalizing e c d with
  | nil =>
    cases List.length_eq_zero_iff.1 h.symm
    rfl
  | cons a s ih =>
    obtain ⟨b, e, rfl⟩ := List.exists_cons_of_length_eq_add_one h.symm
    simp only [List.zipWith_cons_cons, List.foldl_cons, crcByte_xor]
    exact ih (Nat.succ.inj h) _ _

theorem crc16_zipWith_xor {s e : List Byte} (h : s.length = e.length) :
    crc16 (List.zipWith (fun a b => a ^^^ b) s e) = crc16 s ^^^ crc16 e := foldl_crcByte_xor h 0 0

/-- A sequence of zeros is its own XOR with itself, so its CRC is an XOR of equals. -/
theorem crc16_replicate_zero (n : Nat) : crc16 (List.replicate n 0#8) = 0#16 := by
  have h := crc16_zipWith_xor (s := List.replicate n 0#8) rfl
  rwa [List.zipWith_self, List.map_replicate, BitVec.xor_self, BitVec.xor_self] at h

/-- Settles O7: linearity byte by byte, and the zeros from linearity. -/
theorem crcIsLinearOverXor : Obligations.CrcIsLinearOverXor :=
  ⟨crc16_replicate_zero, fun _ _ => crc16_zipWith_xor⟩

/-! ### A change of one byte -/

theorem crcByte_register_injective (b : Byte) : Function.Injective (fun c => crcByte c b) := by
  intro c d h
  by_contra hne
  have hxor : crcByte (c ^^^ d) (b ^^^ b) = crcByte c b ^^^ crcByte d b := crcByte_xor ..
  rw [BitVec.xor_self, BitVec.xor_eq_zero_iff.2 h] at hxor
  exact crcByte_zero_ne_zero (mt BitVec.xor_eq_zero_iff.1 hne) hxor

theorem crcByte_byte_injective (c : Half) : Function.Injective (crcByte c) := by
  intro a b h
  by_contra hne
  have hxor : crcByte (c ^^^ c) (a ^^^ b) = crcByte c a ^^^ crcByte c b := crcByte_xor ..
  rw [BitVec.xor_self, BitVec.xor_eq_zero_iff.2 h] at hxor
  exact crcByte_byte_ne_zero (mt BitVec.xor_eq_zero_iff.1 hne) hxor

/-- The same bytes after different registers leave different registers. -/
theorem foldl_crcByte_injective (bs : List Byte) : Function.Injective (fun c => bs.foldl crcByte c) := by
  induction bs with
  | nil => exact Function.injective_id
  | cons b bs ih => exact ih.comp (crcByte_register_injective b)

/-- Two sequences that differ in one byte have different CRCs: their registers differ from that byte on. -/
theorem crc16_ne_of_byte_ne (pre post : List Byte) {a b : Byte} (h : a ≠ b) :
    crc16 (pre ++ a :: post) ≠ crc16 (pre ++ b :: post) := by
  rw [crc16_append, crc16_append]
  exact (foldl_crcByte_injective post).ne ((crcByte_byte_injective _).ne h)

theorem crc16_set_ne {bs : List Byte} {k : Nat} (hk : k < bs.length) {b : Byte} (h : b ≠ bs[k]) :
    crc16 (bs.set k b) ≠ crc16 bs := by
  have hself : bs = bs.take k ++ bs[k] :: bs.drop (k + 1) := by simp
  rw [List.set_eq_take_append_cons_drop, if_pos hk]
  exact fun heq => crc16_ne_of_byte_ne _ _ h (heq.trans (congrArg crc16 hself))

/-- Settles O8: a nonzero byte among zeros is one byte changed in a sequence of zeros. -/
theorem crcDetectsEveryOneByteChange : Obligations.CrcDetectsEveryOneByteChange := by
  refine ⟨fun n m b hb => ?_, fun bs k hk b => crc16_set_ne hk⟩
  have hzeros : List.replicate n 0#8 ++ 0#8 :: List.replicate m 0#8 = List.replicate (n + (m + 1)) 0#8 := by
    rw [← List.replicate_succ, List.replicate_append_replicate]
  have hne := crc16_ne_of_byte_ne (List.replicate n 0#8) (List.replicate m 0#8) hb
  rwa [hzeros, crc16_replicate_zero] at hne

/-- Settles O6: the generator's own value on each of the fixed inputs. -/
theorem crcGivesTheStatedExamples : Obligations.CrcGivesTheStatedExamples := by
  simp [Obligations.CrcGivesTheStatedExamples, crc16, crcByte, crcShift8, crcShift, Nat.repeat]

end Sys2Proof.Machine
end

section
/-! CRC_COMPUTE and CRC_VERIFY, and what a changed byte of the frame does to the checksum (40_crc.md R123 to R128). -/

namespace Sys2Proof.Machine

/-! ### What each operation commits -/

theorem execCrcCompute_of_fits {s : State} (h : s.inLen.toNat ≤ s.params.inSize) :
    exec .crcCompute s = .next ((s.setCheck (crc16 (s.frameBytes 0 s.inLen.toNat)) 0 0).commit .noError false) :=
  congrArg Host.Outcome.next (if_neg (Nat.not_lt.2 h))

theorem execCrcCompute_of_overflow {s : State} (h : s.params.inSize < s.inLen.toNat) :
    exec .crcCompute s = .next ((s.setCheck 0 0 0).commit .capacityExceeded false) :=
  congrArg Host.Outcome.next (if_pos h)

theorem execCrcVerify_of_overflow {s : State} (h : s.params.inSize < s.inLen.toNat) :
    exec .crcVerify s = .next ((s.setCheck 0 0 0).commit .capacityExceeded false) :=
  congrArg Host.Outcome.next (if_pos h)

theorem execCrcVerify_of_short {s : State} (h : s.inLen.toNat ≤ s.params.inSize) (h12 : s.inLen.toNat < 12) :
    exec .crcVerify s = .next ((s.setCheck 0 0 8).commit .malformedFrame false) :=
  congrArg Host.Outcome.next ((if_neg (Nat.not_lt.2 h)).trans (if_pos h12))

theorem execCrcVerify_of_gates {s : State} (h : s.inLen.toNat ≤ s.params.inSize) (h12 : 12 ≤ s.inLen.toNat) :
    exec .crcVerify s = .next
      ((s.setCheck (verify s s.inLen.toNat).crc (verify s s.inLen.toNat).decl 0).commit
        (if (verify s s.inLen.toNat).ok then .noError else .crcFailed) (verify s s.inLen.toNat).ok) :=
  congrArg Host.Outcome.next ((if_neg (Nat.not_lt.2 h)).trans (if_neg (Nat.not_lt.2 h12)))

/-- Settles O10: by CRC_COMPUTE's two commits, field by field; an empty input leaves the register as it starts. -/
theorem crcComputeCommitsTheCrcOfIn : Obligations.CrcComputeCommitsTheCrcOfIn := by
  refine ⟨rfl, fun s h => execCrcCompute_of_fits h, fun s h => execCrcCompute_of_overflow h, fun s h0 => ?_⟩
  rw [h0]
  rfl

/-- Settles O11: by CRC_VERIFY's three commits, field by field; Verify's comparison at 32 bits is one of numbers. -/
theorem crcVerifyCommitsTheChecksumOutcome : Obligations.CrcVerifyCommitsTheChecksumOutcome := by
  refine ⟨rfl, fun s => ⟨fun h => execCrcVerify_of_overflow h, fun h h12 => execCrcVerify_of_short h h12, ?_⟩⟩
  rintro c d h h12 rfl rfl
  have hok : (verify s s.inLen.toNat).ok =
      decide ((crc16 (s.frameBytes 8 (s.inLen.toNat - 12))).toNat = beval (s.frameBytes (s.inLen.toNat - 4) 4)) :=
    Bool.eq_iff_iff.2 (verify_ok_iff.trans decide_eq_true_iff.symm)
  rw [execCrcVerify_of_gates h h12, hok]
  simp only [decide_eq_true_eq]
  rfl

/-! ### One byte of the frame changed -/

theorem frameByte_writeBytes_singleton (s : State) (k j : Nat) (b : Byte) :
    (s.writeBytes (0x10000 + k) [b]).frameByte j = if j = k then b else s.frameByte j := by
  have hbase : inBase = 0x10000 := rfl
  rw [State.frameByte, readByte_writeBytes]
  by_cases h : j = k
  · subst h
    simp [hbase]
  · rw [dif_neg (by rw [List.length_singleton]; omega), if_neg h, State.frameByte]

theorem frameBytes_writeBytes_of_outside {s : State} {k off n : Nat} {b : Byte} (h : k < off ∨ off + n ≤ k) :
    (s.writeBytes (0x10000 + k) [b]).frameBytes off n = s.frameBytes off n :=
  frameBytes_congr fun j _ _ => by rw [frameByte_writeBytes_singleton, if_neg (by omega)]

theorem frameBytes_writeBytes_of_within {s : State} {k off n : Nat} {b : Byte} (h1 : off ≤ k) :
    (s.writeBytes (0x10000 + k) [b]).frameBytes off n = (s.frameBytes off n).set (k - off) b := by
  apply List.ext_getElem
  · simp
  · intro j _ _
    rw [List.getElem_set, getElem_frameBytes, getElem_frameBytes, frameByte_writeBytes_singleton]
    exact if_congr (by omega) rfl rfl

/-- A byte of the region changed under an unchanged checksum: Verify no longer holds (40_crc.md R128). -/
theorem verify_writeBytes_region {s : State} {len k : Nat} {b : Byte} (h1 : 8 ≤ k) (h2 : k + 4 < len)
    (hb : b ≠ s.frameByte k) (hok : (verify s len).ok = true) :
    (verify (s.writeBytes (0x10000 + k) [b]) len).ok = false := by
  have hk : k - 8 < (s.frameBytes 8 (len - 12)).length := by rw [length_frameBytes]; omega
  have hbyte : (s.frameBytes 8 (len - 12))[k - 8] = s.frameByte k := by
    rw [getElem_frameBytes, Nat.add_sub_cancel' h1]
  rw [← Bool.not_eq_true, verify_ok_iff, frameBytes_writeBytes_of_within h1,
    frameBytes_writeBytes_of_outside (.inl (by omega)), ← verify_ok_iff.1 hok, BitVec.toNat_inj]
  exact crc16_set_ne hk (hbyte.symm ▸ hb)

/-- A byte before the region is not seen by Verify (40_crc.md R128). -/
theorem verify_writeBytes_header {s : State} {len k : Nat} (b : Byte) (h12 : 12 ≤ len) (hk : k < 8) :
    verify (s.writeBytes (0x10000 + k) [b]) len = verify s len :=
  verify_congr h12 fun j _ _ => by rw [frameByte_writeBytes_singleton, if_neg (by omega)]

/-- Settles O9: CRC_VERIFY commits what Verify says of the changed frame. -/
theorem verifyFailsAfterAnyOneByteChange : Obligations.VerifyFailsAfterAnyOneByteChange := by
  intro s k b h h12 hok
  have hexec := execCrcVerify_of_gates (s := s.writeBytes (0x10000 + k) [b]) h h12
  refine ⟨fun h1 h2 hb => ⟨_, hexec, ?_⟩, fun hk => ⟨_, hexec, ?_⟩⟩
  · simp [verify_writeBytes_region h1 h2 hb hok]
  · simp [verify_writeBytes_header b h12 hk, hok]

/-! ### The registers the operations without results write -/

/-- Settles O30: each of the three commits writes its own registers and STATUS, and no commit stores a byte. -/
theorem registerOperationsLeaveMemoryAlone : Obligations.RegisterOperationsLeaveMemoryAlone := by
  intro i s t hi h
  simp only [List.mem_cons, List.not_mem_nil, or_false] at hi
  rcases hi with rfl | rfl | rfl
  · obtain ⟨r, c, d, p, hx⟩ := execCrcCompute_cases s
    cases hx.symm.trans h
    exact ⟨readByte_congr rfl rfl rfl, fun _ => rfl, nofun, rfl, rfl, rfl⟩
  · obtain ⟨r, ok, c, d, p, -, hx⟩ := execCrcVerify_cases s
    cases hx.symm.trans h
    exact ⟨readByte_congr rfl rfl rfl, fun _ => rfl, nofun, rfl, rfl, rfl⟩
  · cases (execFilterProbe_eq s).symm.trans h
    exact ⟨readByte_congr rfl rfl rfl, fun hcrc => absurd hcrc (by decide), fun _ => rfl, rfl, rfl, rfl⟩

end Sys2Proof.Machine
end

section
/-! C8E_DECODE's gates and failures (41_codec8e.md R141 to R143, R150, R151, R175): what a failed decode leaves, which gate
fails, and the frames that stop inside their records. -/

namespace Sys2Proof.Machine

/-! ### What a C8E_DECODE leaves -/

theorem readByte_c8eFailure_of_outside (s : State) (r : ResultCode) (crc : Half) (decl : Word) (pos : Nat) {a : Nat}
    (h : a < 0x30000 ∨ 0x80000 ≤ a) :
    (((s.zeroResults .c8eDecode).setCheck crc decl pos).commit r false).readByte a = s.readByte a := by
  rw [readByte_c8eFailure, readByte_unspecifyTables_of_outside h]

/-- Every failure of a C8E_DECODE, raised or at a gate, leaves what R175 says. -/
theorem decodeFails_c8eFailure (s : State) (r : ResultCode) (crc : Half) (decl : Word) (pos : Nat) :
    DecodeFails s (((s.zeroResults .c8eDecode).setCheck crc decl pos).commit r false) r crc decl pos :=
  ⟨rfl, rfl, fun _ h => readByte_c8eFailure_of_outside s r crc decl pos h⟩

/-- Settles O24: in each way a C8E_DECODE commits, its updates are those of R175. -/
theorem c8eChangesOnlyItsResults : Obligations.C8eChangesOnlyItsResults := by
  intro s t hw h
  rcases execC8eDecode_cases s with ⟨r, crc, decl, pos, -, hx⟩ | ⟨p, -, -, -, -, hp, hx⟩ | ⟨-, hx⟩
  · cases hx.symm.trans h
    exact ⟨rfl, rfl, rfl, rfl, fun _ ha => readByte_c8eFailure_of_outside s r crc decl pos ha⟩
  · cases hx.symm.trans h
    exact ⟨rfl, rfl, rfl, rfl, fun _ ha => readByte_commitFrame_of_outside hw hp _ ha⟩
  · cases hx.symm.trans h

/-! ### The gates in their order -/

section
variable {s : State}

theorem execC8eDecode_of_overflow (h : s.params.inSize < s.inLen.toNat) :
    execC8eDecode s = .next (s.raise .c8eDecode .capacityExceeded 0) := if_pos h

variable (hin : s.inLen.toNat ≤ s.params.inSize)
include hin

theorem execC8eDecode_of_noTag (h9 : s.inLen.toNat < 9) :
    execC8eDecode s = .next (s.raise .c8eDecode .malformedFrame 8) :=
  (if_neg hin.not_gt).trans (if_pos h9)

theorem execC8eDecode_of_wrongTag (h9 : 9 ≤ s.inLen.toNat) (htag : s.frameByte 8 ≠ 0x8E#8) :
    execC8eDecode s = .next (s.finishGate .c8eDecode .codecIncompatible 0 0) :=
  (if_neg hin.not_gt).trans ((if_neg h9.not_gt).trans (if_pos htag))

theorem execC8eDecode_of_noChecksum (h9 : 9 ≤ s.inLen.toNat) (h12 : s.inLen.toNat < 12) (htag : s.frameByte 8 = 0x8E#8) :
    execC8eDecode s = .next (s.raise .c8eDecode .malformedFrame 8) :=
  (if_neg hin.not_gt).trans ((if_neg h9.not_gt).trans ((if_neg (not_not_intro htag)).trans (if_pos h12)))

theorem execC8eDecode_of_wrongChecksum (h12 : 12 ≤ s.inLen.toNat) (htag : s.frameByte 8 = 0x8E#8)
    (hsum : (verify s s.inLen.toNat).ok = false) :
    execC8eDecode s = .next
      (s.finishGate .c8eDecode .crcFailed (verify s s.inLen.toNat).crc (verify s s.inLen.toNat).decl) :=
  have h9 : 9 ≤ s.inLen.toNat := by omega
  (if_neg hin.not_gt).trans ((if_neg h9.not_gt).trans ((if_neg (not_not_intro htag)).trans
    ((if_neg h12.not_gt).trans (if_neg (Bool.eq_false_iff.1 hsum)))))

end

/-- Settles O16: each gate's failure, with the gates before it passed. -/
theorem c8eGatesShortCircuitInOrder : Obligations.C8eGatesShortCircuitInOrder := by
  intro s
  refine ⟨fun h => ?_, fun hin h9 => ?_, fun hin h9 htag => ?_, fun hin h9 h12 htag => ?_, fun hin h12 htag hsum => ?_⟩
  · exact ⟨_, execC8eDecode_of_overflow h, decodeFails_c8eFailure ..⟩
  · exact ⟨_, execC8eDecode_of_noTag hin h9, decodeFails_c8eFailure ..⟩
  · exact ⟨_, execC8eDecode_of_wrongTag hin h9 htag, decodeFails_c8eFailure ..⟩
  · exact ⟨_, execC8eDecode_of_noChecksum hin h9 h12 htag, decodeFails_c8eFailure ..⟩
  · have hok : (verify s s.inLen.toNat).ok = false := Bool.eq_false_iff.2 (mt verify_ok_iff.1 hsum)
    exact ⟨_, execC8eDecode_of_wrongChecksum hin h12 htag hok, decodeFails_c8eFailure ..⟩

/-! ### A frame whose records stop -/

/-- A frame whose record loop stops is a parse that stops there (41_codec8e.md R144, R145). -/
theorem parseFrame_error_of_records {s : State} {e : Engine} {x : Stop} (hlen : 10 ≤ e.len)
    (h : records s (beval (s.frameBytes 9 1)) (intakeStart e) = .error x) : parseFrame s e = .error x := by
  have h8 : rd s { e with cur := 4 } 4 = .ok (beval (s.frameBytes 4 4), { e with cur := 8 }) :=
    rd_eq_ok (by simp only; omega)
  have h10 : rd s { e with cur := 9 } 1 = .ok (beval (s.frameBytes 9 1), { e with cur := 10 }) :=
    rd_eq_ok (by simp only; omega)
  unfold intakeStart at h
  simp only [parseFrame, h8, h10, h]

/-- Past both gates, a record loop that raises is what the C8E_DECODE commits (41_codec8e.md R151). -/
theorem execC8eDecode_of_raise {s : State} {x : Raised} (hin : s.inLen.toNat ≤ s.params.inSize)
    (h12 : 12 ≤ s.inLen.toNat) (htag : s.frameByte 8 = 0x8E#8) (hsum : (verify s s.inLen.toNat).ok = true)
    (h : ∀ crc, records s (beval (s.frameBytes 9 1)) (intakeStart { s.start with crc := crc }) = .error (.raised x)) :
    exec .c8eDecode s = .next (s.raise .c8eDecode x.code x.pos) := by
  have hlen : 10 ≤ s.start.len := by change 10 ≤ s.inLen.toNat; omega
  have hparse := parseFrame_error_of_records (e := { s.start with crc := (verify s s.inLen.toNat).crc }) hlen (h _)
  have hgates := execC8eDecode_of_gates hin h12 htag hsum
  rw [hparse] at hgates
  exact hgates

/-- A record's head stops at its first field that does not fit (41_codec8e.md R150; 30_encoding.md R95). -/
theorem recordHead_eq_error_of_short {s : State} {e : Engine} {rel width : Nat}
    (hfield : (rel, width) ∈ [(0, 8), (8, 1), (9, 15), (24, 2), (26, 2)])
    (hstart : e.cur + rel ≤ e.len) (hshort : e.len < e.cur + rel + width) :
    recordHead s e = .error (malformed (e.cur + rel)) := by
  simp only [List.mem_cons, List.not_mem_nil, Prod.mk.injEq, or_false] at hfield
  unfold recordHead
  split
  · next h => obtain ⟨hc, rfl⟩ := rd_error_iff.1 h; rw [show rel = 0 by omega]; rfl
  next h1 =>
  obtain ⟨c1, -, rfl⟩ := rd_ok_iff.1 h1
  split
  · next h => obtain ⟨hc, rfl⟩ := rd_error_iff.1 h; simp only at hc; rw [show rel = 8 by omega]
  next h2 =>
  obtain ⟨c2, -, rfl⟩ := rd_ok_iff.1 h2
  split
  · next h => obtain ⟨hc, rfl⟩ := skip_error_iff.1 h; simp only at hc c2; rw [show rel = 9 by omega]
  next h3 =>
  obtain ⟨c3, rfl⟩ := skip_ok_iff.1 h3
  split
  · next h => obtain ⟨hc, rfl⟩ := rd_error_iff.1 h; simp only at hc c3; rw [show rel = 24 by omega]
  next h4 =>
  obtain ⟨c4, -, rfl⟩ := rd_ok_iff.1 h4
  split
  · next h => obtain ⟨hc, rfl⟩ := rd_error_iff.1 h; simp only at hc c4; rw [show rel = 26 by omega]
  · next h5 => obtain ⟨c5, -, -⟩ := rd_ok_iff.1 h5; simp only at c5; omega

theorem buckets_eq_error_of_short {s : State} {d : Intake} (h : d.eng.len < d.eng.cur + 2) :
    buckets s d = .error (.raised (malformed d.eng.cur)) := by
  simp only [buckets, fixedBucket, rd_eq_error h]

/-- A record stops at the first field of its head, or at its first bucket's count, that does not fit (30_encoding.md R95,
R97). -/
theorem record_eq_error_of_short {s : State} {d : Intake} {rel width : Nat}
    (hfield : (rel, width) ∈ [(0, 8), (8, 1), (9, 15), (24, 2), (26, 2), (28, 2)])
    (hstart : d.eng.cur + rel ≤ d.eng.len) (hshort : d.eng.len < d.eng.cur + rel + width) :
    record s d = .error (.raised (malformed (d.eng.cur + rel))) := by
  by_cases hcount : rel = 28
  · subst hcount
    have hhead : recordHead s d.eng = .ok (headAt s d.eng, d.eng.afterHead s) := recordHead_ok_iff.2 ⟨hstart, rfl, rfl⟩
    have hw : width = 2 := by simpa using hfield
    have hbuckets : buckets s { d with eng := d.eng.afterHead s } = .error (.raised (malformed (d.eng.cur + 28))) :=
      buckets_eq_error_of_short (hw ▸ hshort)
    simp only [record, hhead, hbuckets]
  · have hhead : recordHead s d.eng = .error (malformed (d.eng.cur + rel)) :=
      recordHead_eq_error_of_short (by simpa [hcount] using hfield) hstart hshort
    simp only [record, hhead]

/-- Settles O18: the first record is read at offset 10 and stops at the field. -/
theorem truncatedRecordHeaderIsMalformedAtItsField : Obligations.TruncatedRecordHeaderIsMalformedAtItsField := by
  intro s off width hfield hin h12 htag hsum hrec hstart hshort
  obtain ⟨rel, rfl⟩ : ∃ rel, off = 10 + rel := ⟨off - 10, by simp at hfield; omega⟩
  have hfield : (rel, width) ∈ [(0, 8), (8, 1), (9, 15), (24, 2), (26, 2), (28, 2)] := by simp at hfield ⊢; omega
  obtain ⟨n, hn⟩ : ∃ n, beval (s.frameBytes 9 1) = n + 1 := by
    rw [frameBytes_one, beval_singleton]
    exact Nat.exists_eq_succ_of_ne_zero fun h => hrec (BitVec.eq_of_toNat_eq h)
  have hrecords : ∀ crc, records s (beval (s.frameBytes 9 1)) (intakeStart { s.start with crc := crc }) =
      .error (.raised (malformed (10 + rel))) := by
    intro crc
    have hrecord := record_eq_error_of_short (s := s) (d := intakeStart { s.start with crc := crc }) hfield hstart hshort
    rw [hn, records, hrecord]
    rfl
  exact ⟨_, execC8eDecode_of_raise hin h12 htag hsum hrecords, decodeFails_c8eFailure ..⟩

/-- Settles O22: the written frame passes both gates, and its record loop stops at the event that finds the table full. -/
theorem c8eFullEventTableIsCapacityExceeded : Obligations.C8eFullEventTableIsCapacityExceeded := by
  intro s preamble trailing plen rs ev ha hpre hcount hfits hlen hin hbytes hev
  have hframe := holdsFrame_of_frame hpre hlen hbytes
  obtain ⟨htag, hnrec, hbytesOfRecords⟩ := hframe.region_parts
  have h12 : 12 ≤ s.inLen.toNat := by rw [hframe.inLen]; omega
  have hwithin : 10 + (Wire.recordsBytes rs).length ≤ s.inLen.toNat := by rw [hframe.inLen, length_region]; omega
  have hrecords : ∀ crc, records s (beval (s.frameBytes 9 1)) (intakeStart { s.start with crc := crc }) =
      .error (.raised (capacityExceeded (ev.voff - 2))) := by
    intro crc
    rw [hnrec, beval_singleton, BitVec.toNat_ofNat, Nat.mod_eq_of_lt hcount]
    exact (records_wire ha rs (intakeStart { s.start with crc := crc }) hfits hwithin hbytesOfRecords).2 ev
      (Nat.zero_le _) hev
  exact ⟨_, execC8eDecode_of_raise hin h12 htag (by rw [hframe.verify_eq]; rfl) hrecords, decodeFails_c8eFailure ..⟩

end Sys2Proof.Machine
end

section
/-! What a complete parse consumes is decided by the frame's bytes alone (41_codec8e.md R152 to R155, R52). -/

namespace Sys2Proof.Machine

/-- Settles O19: a bucket that parses moves the cursor by its declared bytes, whatever it emits. -/
theorem bucketsConsumeTheirDeclaredBytes : Obligations.BucketsConsumeTheirDeclaredBytes := by
  constructor
  · intro s bk w d d' h
    obtain ⟨new, hemits⟩ := fixedBucket_emits h
    rw [hemits.eng]
  · intro s d d' h
    obtain ⟨new, hemits⟩ := variableBucket_emits h
    rw [hemits.eng]

section
variable {s s' : State} {len : Nat} (hbytes : ∀ k, k < len → s'.frameByte k = s.frameByte k)
include hbytes

theorem frameBytes_congr_of_within {off n : Nat} (h : off + n ≤ len) : s'.frameBytes off n = s.frameBytes off n :=
  frameBytes_congr fun k _ hk => hbytes k (by omega)

/-! ### The same bytes, the same sizes and headers -/

theorem fixedSize_congr {w off : Nat} (h : off + fixedSize s w off ≤ len) : fixedSize s' w off = fixedSize s w off := by
  unfold fixedSize at h ⊢
  rw [frameBytes_congr_of_within hbytes (by omega)]

theorem variableSize_congr {off : Nat} (h : off + variableSize s off ≤ len) :
    variableSize s' off = variableSize s off := by
  unfold variableSize at h ⊢
  rw [frameBytes_congr_of_within hbytes (by omega), frameBytes_congr_of_within hbytes (by omega)]

theorem bucketsSize_congr {off : Nat} (h : off + bucketsSize s off ≤ len) : bucketsSize s' off = bucketsSize s off := by
  unfold bucketsSize at h ⊢
  simp only at h ⊢
  rw [fixedSize_congr hbytes (w := 1) (off := off) (by omega), fixedSize_congr hbytes (w := 2) (by omega),
    fixedSize_congr hbytes (w := 4) (by omega), fixedSize_congr hbytes (w := 8) (by omega),
    variableSize_congr hbytes (by omega)]

theorem headAt_congr {e e' : Engine} (hcur : e'.cur = e.cur) (h : e.cur + 28 ≤ len) : headAt s' e' = headAt s e := by
  unfold headAt
  rw [hcur, frameBytes_congr_of_within hbytes (by omega), frameBytes_congr_of_within hbytes (by omega),
    frameBytes_congr_of_within hbytes (by omega), frameBytes_congr_of_within hbytes (by omega)]

end

/-! ### Two parses of one frame, side by side -/

/-- The fields of a record entry that the record's head gives (10_state.md R43): no count of events is among them. -/
def RecordEntry.header (r : RecordEntry) : Half × Half × DWord × Byte × Severity :=
  (r.recId, r.totalIo, r.ts, r.sevRaw, r.sev)

/-- Two intakes at the same place of a frame of len bytes, with the same headers read before it: what a resolver, an
interest set, DISCARD and EVT_MAX decide is left out. -/
structure SameParse (len : Nat) (d d' : Intake) : Prop where
  len_left : d.eng.len = len
  len_right : d'.eng.len = len
  cur : d'.eng.cur = d.eng.cur
  hi : d'.eng.hi = d.eng.hi
  headers : d'.recs.map RecordEntry.header = d.recs.map RecordEntry.header

section
variable {s s' : State} {len : Nat} (hbytes : ∀ k, k < len → s'.frameByte k = s.frameByte k)
include hbytes

theorem record_sameParse {d d' a a' : Intake} (hd : SameParse len d d') (h : record s d = .ok a)
    (h' : record s' d' = .ok a') : SameParse len a a' := by
  obtain ⟨hlen, hlen', hcur, hhi, hheaders⟩ := hd
  obtain ⟨hc, new, b, hb, rfl⟩ := record_ok h
  obtain ⟨-, new', b', hb', rfl⟩ := record_ok h'
  have hbl : b.eng.len = d.eng.len := by rw [hb.eng]; rfl
  have hbc : b.eng.cur = d.eng.cur + 28 + bucketsSize s (d.eng.cur + 28) := by rw [hb.eng]; rfl
  have hwithin : b.eng.cur ≤ d.eng.len := hb.within hc
  have hsize : bucketsSize s' (d.eng.cur + 28) = bucketsSize s (d.eng.cur + 28) := bucketsSize_congr hbytes (by omega)
  have hhead : headAt s' d'.eng = headAt s d.eng := headAt_congr hbytes hcur (by omega)
  have hsev := congrArg RecordHead.sevRaw hhead
  constructor
  · exact hbl.trans hlen
  · simp only [hb'.eng]; exact hlen'
  · simp only [hb'.eng, hbc, Engine.afterHead, hcur, hsize]
  · simp only [hb.eng, hb'.eng, Engine.afterHead, hhi]
    exact congrArg (fun raw => sevAgg d.eng.hi (sevMap (BitVec.ofNat 8 raw))) hsev
  · rw [List.map_append, List.map_append, hheaders, hhead]
    rfl

theorem records_sameParse {n : Nat} {d d' a a' : Intake} (hd : SameParse len d d') (h : records s n d = .ok a)
    (h' : records s' n d' = .ok a') : SameParse len a a' := by
  induction n generalizing d d' with
  | zero => cases h; cases h'; exact hd
  | succ n ih =>
    unfold records at h h'
    split at h
    · cases h
    · next d1 h1 =>
      split at h'
      · cases h'
      · next d1' h1' => exact ih (record_sameParse hbytes hd h1 h1') h h'

end

/-- Settles O20: the two parses go side by side from the same header. -/
theorem filterNeverChangesTheParse : Obligations.FilterNeverChangesTheParse := by
  intro s s' e p p' hbytes hp hp'
  obtain ⟨hlen, hplen, hnrec, hrecords⟩ := parseFrame_ok_iff.1 hp
  obtain ⟨-, hplen', hnrec', hrecords'⟩ := parseFrame_ok_iff.1 hp'
  rw [frameBytes_congr_of_within hbytes (by omega), ← hplen] at hplen'
  rw [frameBytes_congr_of_within hbytes (by omega), ← hnrec] at hnrec'
  rw [hnrec'] at hrecords'
  obtain ⟨hok, -, -, hlen_end⟩ := parseFrame_intakeOk hp
  have hsame := records_sameParse hbytes ⟨rfl, rfl, rfl, rfl, rfl⟩ hrecords hrecords'
  exact ⟨hsame.cur, hlen_end ▸ hok.cur, hplen', hnrec', hsame.hi, hsame.headers⟩

end Sys2Proof.Machine
end

section
/-! The entries of a complete parse agree with each other and with the engine's counters (41_codec8e.md R163, R164, R170,
R173): the invariant of the record loop, and what the tables and the FR_ registers read as after the commit. -/

namespace Sys2Proof.Machine

/-! ### Severities and matched events -/

theorem toInt_sevAgg (a b : Severity) : (sevAgg a b).toInt = max a.toInt b.toInt := by cases a <;> cases b <;> rfl

theorem sevAgg_eq_or (a b : Severity) : sevAgg a b = a ∨ sevAgg a b = b := by cases a <;> cases b <;> decide

theorem neg_one_le_toInt (h : Severity) : -1 ≤ h.toInt := by cases h <;> decide

/-- With an interest set and DISCARD, only matched events are kept (43_filter_severity.md R202). -/
theorem eq_true_of_retain {s : State} {m : Bool} (hset : 0 < s.isetCount.toNat) (hdiscard : s.cfg.discard = true)
    (h : s.retain m = true) : m = true := by
  simpa [State.retain, hset, hdiscard] using h

/-- Event n of a list is there and matched. -/
def matchedAt (evts : List EventEntry) (n : Nat) : Bool := (evts[n]?).any (fun e => e.matched)

theorem matchedAt_append {evts : List EventEntry} (new : List EventEntry) {n : Nat} (h : n < evts.length) :
    matchedAt (evts ++ new) n = matchedAt evts n := by
  rw [matchedAt, List.getElem?_append_left h, matchedAt]

theorem length_filter_matchedAt_range' (evts new : List EventEntry) :
    ((List.range' evts.length new.length).filter (matchedAt (evts ++ new))).length =
      (new.filter (fun e => e.matched)).length := by
  induction new generalizing evts with
  | nil => rfl
  | cons e new ih =>
    have hrest := ih (evts ++ [e])
    rw [List.append_assoc, List.length_append, List.singleton_append, List.length_singleton] at hrest
    have hhead : matchedAt (evts ++ e :: new) evts.length = e.matched := by simp [matchedAt]
    rw [List.length_cons, List.range'_succ, List.filter_cons, List.filter_cons, hhead]
    cases e.matched
    · exact hrest
    · exact congrArg Nat.succ hrest

/-! ### The invariant of the record loop -/

/-- A record entry counts its own run of the events: they are there, and its matched ones are MATCHED_IO (R163, R164). -/
structure RecordEntry.Counts (evts : List EventEntry) (r : RecordEntry) : Prop where
  within : r.firstEvent + r.nEvents ≤ evts.length
  matched : r.matchedIo = ((List.range' r.firstEvent r.nEvents).filter (matchedAt evts)).length

section
variable {evts : List EventEntry} {r : RecordEntry} (h : r.Counts evts)
include h

theorem RecordEntry.Counts.matchedIo_le : r.matchedIo ≤ r.nEvents :=
  h.matched.trans_le ((List.length_filter_le _ _).trans List.length_range'.le)

/-- MATCHED_IO counted by any reading of the MATCHED bits (R173 (c)). -/
theorem RecordEntry.Counts.matchedIo_eq {matched : Nat → Bool}
    (hbits : ∀ n, n < evts.length → matched n = matchedAt evts n) :
    r.matchedIo = ((List.range' r.firstEvent r.nEvents).filter matched).length := by
  have hwithin := h.within
  rw [h.matched, List.filter_congr fun n hn => ?_]
  rw [List.mem_range'_1] at hn
  exact (hbits n (by omega)).symm

theorem RecordEntry.Counts.append (new : List EventEntry) : r.Counts (evts ++ new) where
  within := h.within.trans (by simp)
  matched := h.matchedIo_eq fun _ hn => matchedAt_append new hn

end

/-- The number of events that a list of records counts. -/
def eventTotal (recs : List RecordEntry) : Nat := (recs.map RecordEntry.nEvents).sum

theorem eventTotal_append (a b : List RecordEntry) : eventTotal (a ++ b) = eventTotal a + eventTotal b := by
  simp [eventTotal]

@[simp] theorem eventTotal_singleton (r : RecordEntry) : eventTotal [r] = r.nEvents := by simp [eventTotal]

/-- What the entries of a parse under way say of each other and of the running maximum (R173). -/
structure EntriesAgree (s : State) (recs : List RecordEntry) (evts : List EventEntry) (hi : Severity) : Prop where
  total : evts.length = eventTotal recs
  first : ∀ n r, recs[n]? = some r → r.firstEvent = eventTotal (recs.take n)
  counts : ∀ r ∈ recs, r.Counts evts
  hi_mem : hi ∈ .notDetermined :: recs.map RecordEntry.sev
  le_hi : ∀ r ∈ recs, r.sev.toInt ≤ hi.toInt
  kept : ∀ e ∈ evts, s.retain e.matched = true

theorem EntriesAgree.nil (s : State) : EntriesAgree s [] [] .notDetermined := by
  constructor <;> simp [eventTotal]

section
variable {s : State} {recs : List RecordEntry} {evts : List EventEntry} {hi : Severity} (h : EntriesAgree s recs evts hi)
include h

/-- One more record, which counts the events it adds, keeps the agreement. -/
theorem EntriesAgree.snoc {new : List EventEntry} {x : RecordEntry} (hfirst : x.firstEvent = evts.length)
    (hn : x.nEvents = new.length) (hmatched : x.matchedIo = (new.filter (fun e => e.matched)).length)
    (hkept : ∀ e ∈ new, s.retain e.matched = true) :
    EntriesAgree s (recs ++ [x]) (evts ++ new) (sevAgg hi x.sev) where
  total := by rw [List.length_append, eventTotal_append, eventTotal_singleton, h.total, hn]
  first n r hr := by
    rcases lt_trichotomy n recs.length with hlt | rfl | hgt
    · rw [List.getElem?_append_left hlt] at hr
      rw [List.take_append_of_le_length hlt.le, h.first n r hr]
    · rw [List.getElem?_concat_length, Option.some.injEq] at hr
      rw [List.take_left, ← hr, hfirst, h.total]
    · rw [List.getElem?_eq_none (by simpa using hgt)] at hr
      cases hr
  counts := by
    simp only [List.forall_mem_append, List.forall_mem_singleton]
    refine ⟨fun r hr => (h.counts r hr).append new, ?_, ?_⟩
    · rw [hfirst, hn, List.length_append]
    · rw [hfirst, hn, hmatched, length_filter_matchedAt_range']
  hi_mem := by
    rw [List.map_append, ← List.cons_append, List.mem_append]
    rcases sevAgg_eq_or hi x.sev with hagg | hagg
    · exact .inl (by rw [hagg]; exact h.hi_mem)
    · exact .inr (by rw [hagg]; exact List.mem_singleton_self _)
  le_hi := by
    simp only [List.forall_mem_append, List.forall_mem_singleton, toInt_sevAgg]
    exact ⟨fun r hr => (h.le_hi r hr).trans (le_max_left _ _), le_max_right _ _⟩
  kept := by
    simp only [List.forall_mem_append]
    exact ⟨h.kept, hkept⟩

/-- FIRST_EVENT is the running sum of N_EVENTS (R173 (b)). -/
theorem EntriesAgree.first_succ {n : Nat} {r r' : RecordEntry} (hr : recs[n]? = some r)
    (hr' : recs[n + 1]? = some r') : r'.firstEvent = r.firstEvent + r.nEvents := by
  rw [h.first _ _ hr', h.first _ _ hr, List.take_add_one, eventTotal_append, hr]
  simp

theorem EntriesAgree.toInt_hi_of_empty (hempty : recs = []) : hi.toInt = -1 := by
  have hmem := h.hi_mem
  rw [hempty, List.map_nil, List.mem_singleton] at hmem
  rw [hmem]
  rfl

/-- A frame with records has one of the highest severity (R173 (f)). -/
theorem EntriesAgree.exists_highest (hne : recs ≠ []) : ∃ r ∈ recs, r.sev.toInt = hi.toInt := by
  rcases List.mem_cons.1 h.hi_mem with hnone | hmem
  · obtain ⟨r, hr⟩ := List.exists_mem_of_ne_nil recs hne
    have hle := h.le_hi r hr
    rw [hnone] at hle ⊢
    exact ⟨r, hr, le_antisymm hle (neg_one_le_toInt _)⟩
  · obtain ⟨r, hr, hsev⟩ := List.mem_map.1 hmem
    exact ⟨r, hr, congrArg _ hsev⟩

end

theorem record_entriesAgree {s : State} {d d' : Intake} (hok : IntakeOk s d)
    (hd : EntriesAgree s d.recs d.evts d.eng.hi) (h : record s d = .ok d') :
    EntriesAgree s d'.recs d'.evts d'.eng.hi := by
  obtain ⟨-, new, b, hb, rfl⟩ := record_ok h
  have hhi : b.eng.hi = sevAgg d.eng.hi (recordEntry (headAt s d.eng) b.eng).sev := by rw [hb.eng]; rfl
  have hn : b.eng.nev - b.eng.first = new.length := by rw [hb.eng]; exact Nat.add_sub_cancel_left ..
  have hmat : b.eng.mat = (new.filter (fun e => e.matched)).length := by rw [hb.eng]; exact Nat.zero_add _
  have hfirst : b.eng.first = d.evts.length := by rw [hb.eng]; exact hok.nev
  simp only [hb.evts, hhi]
  exact hd.snoc hfirst hn hmat fun e he => (hb.kept e he).2

theorem records_entriesAgree {s : State} {n : Nat} {d d' : Intake} (hok : IntakeOk s d)
    (hd : EntriesAgree s d.recs d.evts d.eng.hi) (h : records s n d = .ok d') :
    EntriesAgree s d'.recs d'.evts d'.eng.hi := by
  induction n generalizing d with
  | zero => cases h; exact hd
  | succ n ih =>
    unfold records at h
    split at h
    · cases h
    · next d1 h1 => exact ih (record_intakeOk hok h1).1 (record_entriesAgree hok hd h1) h

theorem parseFrame_entriesAgree {s : State} {e : Engine} {p : Parsed} (h : parseFrame s e = .ok p) :
    EntriesAgree s p.intake.recs p.intake.evts p.intake.eng.hi := by
  obtain ⟨hlen, -, -, hrecords⟩ := parseFrame_ok_iff.1 h
  exact records_entriesAgree ⟨hlen, rfl, Nat.zero_le _, rfl⟩ (.nil s) hrecords

/-! ### What the tables read as -/

theorem getLsbD_desc_matched (e : EventEntry) : e.desc.getLsbD 24 = e.matched := by
  rw [EventEntry.desc, BitVec.getLsbD_append, BitVec.getLsbD_append, BitVec.getLsbD_append, BitVec.getLsbD_append]
  simp

/-- The words of a record entry as numbers, after the commit (10_state.md R43). -/
theorem recordWords_commitFrame {s : State} {e : Engine} {p : Parsed} (hw : s.params.wellFormed = true)
    (hp : parseFrame s e = .ok p) (v : Verified) {n : Nat} {x : RecordEntry} (hn : p.intake.recs[n]? = some x) :
    ((s.commitFrame v p).readWord (0x30000 + 32 * n + 4 * 2)).toNat = x.matchedIo ∧
    ((s.commitFrame v p).readWord (0x30000 + 32 * n + 4 * 3)).toNat = x.nEvents ∧
    ((s.commitFrame v p).readWord (0x30000 + 32 * n + 4 * 4)).toNat = x.firstEvent ∧
    (((s.commitFrame v p).readWord (0x30000 + 32 * n + 28)).extractLsb' 8 8).toInt = x.sev.toInt := by
  obtain ⟨hok, -⟩ := parseFrame_intakeOk hp
  have hcounts := (parseFrame_entriesAgree hp).counts x (List.mem_of_getElem? hn)
  have hwithin := hcounts.within
  have hmatched := hcounts.matchedIo_le
  have hevts := hok.nev
  have hroom := hok.room
  have hmax := (Params.bounds hw).2.2.1.2
  rw [readWord_recordEntry hw hp hn (k := 2) rfl, readWord_recordEntry hw hp hn (k := 3) rfl,
    readWord_recordEntry hw hp hn (k := 4) rfl, show 28 = 4 * 7 from rfl, readWord_recordEntry hw hp hn (k := 7) rfl]
  refine ⟨toNat_ofNat_of_le (by omega), toNat_ofNat_of_le (by omega), toNat_ofNat_of_le (by omega), ?_⟩
  rw [RecordEntry.sevWord, (sevWord_parts x.sev x.sevRaw).2.1, pattern_toInt]

/-- The MATCHED bit of an event entry, after the commit (10_state.md R44). -/
theorem matchedBit_commitFrame {s : State} {e : Engine} {p : Parsed} (hw : s.params.wellFormed = true)
    (hp : parseFrame s e = .ok p) (v : Verified) {n : Nat} (hn : n < p.intake.evts.length) :
    ((s.commitFrame v p).readWord (0x40000 + 32 * n)).getLsbD 24 = matchedAt p.intake.evts n := by
  have hword := readWord_eventEntry (v := v) hw hp (List.getElem?_eq_getElem hn) (k := 0) rfl
  rw [Nat.mul_zero, Nat.add_zero] at hword
  rw [hword, getLsbD_desc_matched, matchedAt, List.getElem?_eq_getElem hn]
  rfl

/-- A function that reads each entry of a list, over the list's indices (a sum over R173 (a)'s records). -/
theorem map_range_eq_map {α β : Type} {l : List α} {read : Nat → β} {value : α → β}
    (h : ∀ n x, l[n]? = some x → read n = value x) : (List.range l.length).map read = l.map value := by
  refine List.ext_getElem (by simp) fun n hn hn' => ?_
  rw [List.getElem_map, List.getElem_map, List.getElem_range]
  exact h n _ (List.getElem?_eq_getElem _)

/-- The counts of the frame, after the commit (10_state.md R33; 41_codec8e.md R170). -/
theorem frCounts_commitFrame {s : State} {e : Engine} {p : Parsed} (hw : s.params.wellFormed = true)
    (hp : parseFrame s e = .ok p) (v : Verified) :
    (s.commitFrame v p).fr.nrec.toNat = p.intake.recs.length ∧
    (s.commitFrame v p).fr.nevt.toNat = p.intake.evts.length ∧
    (s.commitFrame v p).fr.nrec = s.frameByte 9 := by
  obtain ⟨hok, hlen, hlt, -⟩ := parseFrame_intakeOk hp
  obtain ⟨-, -, hnrec, -⟩ := parseFrame_ok_iff.1 hp
  have hroom := hok.room
  have hmax := (Params.bounds hw).2.2.1.2
  refine ⟨?_, ?_, ?_⟩
  · exact (Nat.mod_eq_of_lt hlt).trans hlen.symm
  · exact (toNat_ofNat_of_le (by omega)).trans hok.nev
  · change BitVec.ofNat 8 p.nrec = _
    rw [hnrec, frameBytes_one, beval_singleton, BitVec.ofNat_toNat, BitVec.setWidth_eq]

/-- Settles O23: the entries of the parse agree, and the tables and registers read as those entries. -/
theorem c8eTablesAgreeWithTheFrameRegisters : Obligations.C8eTablesAgreeWithTheFrameRegisters := by
  intro s t hw hexec hresult f severity matched
  rcases execC8eDecode_cases s with ⟨r, crc, decl, pos, hr, hx⟩ | ⟨p, -, -, -, -, hp, hx⟩ | ⟨-, hx⟩
  · cases hx.symm.trans hexec
    exact absurd hresult hr
  · cases hx.symm.trans hexec
    have hagree := parseFrame_entriesAgree hp
    obtain ⟨hnrec, hnevt, hcount⟩ := frCounts_commitFrame hw hp (verify s s.inLen.toNat)
    have hhi : (s.commitFrame (verify s s.inLen.toNat) p).fr.hipri = p.intake.eng.hi := rfl
    have hwords : ∀ r x, p.intake.recs[r]? = some x →
        f r 2 = x.matchedIo ∧ f r 3 = x.nEvents ∧ f r 4 = x.firstEvent ∧ severity r = x.sev.toInt :=
      fun r x hx => recordWords_commitFrame hw hp _ hx
    have hbits : ∀ n, n < p.intake.evts.length → matched n = matchedAt p.intake.evts n :=
      fun n hn => matchedBit_commitFrame hw hp _ hn
    clear_value f severity matched
    have hentry : ∀ r, r < p.intake.recs.length → ∃ x, p.intake.recs[r]? = some x :=
      fun r hr => ⟨_, List.getElem?_eq_getElem hr⟩
    have hrecs : (s.commitFrame (verify s s.inLen.toNat) p).fr.nrec ≠ 0#8 → 0 < p.intake.recs.length := fun hne => by
      rw [← hnrec]; exact Nat.pos_of_ne_zero fun h0 => hne (BitVec.eq_of_toNat_eq h0)
    rw [hnrec, hnevt, hhi]
    refine ⟨?_, fun hne => ?_, fun r hr => ?_, fun r hr => ?_, hcount, fun h0 => ?_, fun r hr => ?_, fun hne => ?_,
      fun hset hdiscard n hn => ?_⟩
    · exact hagree.total.trans (congrArg List.sum (map_range_eq_map fun r x hx => (hwords r x hx).2.1).symm)
    · obtain ⟨x, hx⟩ := hentry 0 (hrecs hne)
      obtain ⟨-, -, hfirst, -⟩ := hwords 0 x hx
      exact hfirst.trans (hagree.first 0 x hx)
    · obtain ⟨x, hx⟩ := hentry r (by omega)
      obtain ⟨y, hy⟩ := hentry (r + 1) hr
      obtain ⟨-, hn, hfirst, -⟩ := hwords r x hx
      obtain ⟨-, -, hnext, -⟩ := hwords (r + 1) y hy
      rw [hn, hfirst, hnext, hagree.first_succ hx hy]
    · obtain ⟨x, hx⟩ := hentry r hr
      obtain ⟨hmatched, hn, hfirst, -⟩ := hwords r x hx
      have hcounts := hagree.counts x (List.mem_of_getElem? hx)
      rw [hmatched, hn, hfirst]
      exact ⟨hcounts.matchedIo_eq hbits, hcounts.matchedIo_le⟩
    · exact hagree.toInt_hi_of_empty (List.eq_nil_of_length_eq_zero (by rw [← hnrec, h0]; rfl))
    · obtain ⟨x, hx⟩ := hentry r hr
      obtain ⟨-, -, -, hsev⟩ := hwords r x hx
      exact hsev.trans_le (hagree.le_hi x (List.mem_of_getElem? hx))
    · obtain ⟨x, hx, hmax⟩ := hagree.exists_highest (List.ne_nil_of_length_pos (hrecs hne))
      obtain ⟨r, hr⟩ := List.mem_iff_getElem?.1 hx
      obtain ⟨-, -, -, hsev⟩ := hwords r x hr
      exact ⟨r, (List.getElem?_eq_some_iff.1 hr).1, hsev.trans hmax⟩
    · rw [hbits n hn, matchedAt, List.getElem?_eq_getElem hn]
      exact eq_true_of_retain hset hdiscard (hagree.kept _ (List.getElem_mem hn))
  · cases hx.symm.trans hexec

end Sys2Proof.Machine
end

section
/-! C12_DECODE (42_codec12.md R184 to R187): the gates in their order, what a failure leaves, what a response reports. -/

namespace Sys2Proof.Machine

/-! ### The gates in their order -/

/-- How a C12_DECODE ends past both gates: the response's commit, or the raise of what its parse stops at (42_codec12.md
R184, R186). -/
def State.endResponse (s : State) (v : Verified) : Except Raised ParsedResponse → State
  | .ok p => s.commitResponse v p
  | .error x => ResponseFails s x.code 0 0 x.pos

section
variable {s : State}

theorem execC12Decode_of_overflow (h : s.params.inSize < s.inLen.toNat) :
    exec .c12Decode s = .next (ResponseFails s .capacityExceeded 0 0 0) :=
  congrArg Host.Outcome.next (if_pos h)

variable (hin : s.inLen.toNat ≤ s.params.inSize)
include hin

theorem execC12Decode_of_noTag (h9 : s.inLen.toNat < 9) :
    exec .c12Decode s = .next (ResponseFails s .malformedFrame 0 0 8) :=
  congrArg Host.Outcome.next ((if_neg hin.not_gt).trans (if_pos h9))

theorem execC12Decode_of_wrongTag (h9 : 9 ≤ s.inLen.toNat) (htag : s.frameByte 8 ≠ 0x0C#8) :
    exec .c12Decode s = .next (ResponseFails s .codecIncompatible 0 0 0) :=
  congrArg Host.Outcome.next ((if_neg hin.not_gt).trans ((if_neg h9.not_gt).trans (if_pos htag)))

theorem execC12Decode_of_noChecksum (h9 : 9 ≤ s.inLen.toNat) (h12 : s.inLen.toNat < 12)
    (htag : s.frameByte 8 = 0x0C#8) : exec .c12Decode s = .next (ResponseFails s .malformedFrame 0 0 8) :=
  congrArg Host.Outcome.next ((if_neg hin.not_gt).trans ((if_neg h9.not_gt).trans
    ((if_neg (not_not_intro htag)).trans (if_pos h12))))

/-- With a tag and room for a checksum, a C12_DECODE is what Verify answers (42_codec12.md R184). -/
theorem execC12Decode_of_tag (h12 : 12 ≤ s.inLen.toNat) (htag : s.frameByte 8 = 0x0C#8) :
    exec .c12Decode s = .next
      (if (verify s s.inLen.toNat).ok then
        s.endResponse (verify s s.inLen.toNat) (parseResponse s { s.start with crc := (verify s s.inLen.toNat).crc })
      else ResponseFails s .crcFailed (verify s s.inLen.toNat).crc (verify s s.inLen.toNat).decl 0) :=
  have h9 : 9 ≤ s.inLen.toNat := by omega
  congrArg Host.Outcome.next ((if_neg hin.not_gt).trans ((if_neg h9.not_gt).trans
    ((if_neg (not_not_intro htag)).trans (if_neg h12.not_gt))))

theorem execC12Decode_of_wrongChecksum (h12 : 12 ≤ s.inLen.toNat) (htag : s.frameByte 8 = 0x0C#8)
    (hsum : (verify s s.inLen.toNat).ok = false) :
    exec .c12Decode s = .next
      (ResponseFails s .crcFailed (verify s s.inLen.toNat).crc (verify s s.inLen.toNat).decl 0) := by
  rw [execC12Decode_of_tag hin h12 htag, hsum]
  rfl

/-- Past both gates a C12_DECODE is its parse, which starts with L latched (42_codec12.md R184, R185). -/
theorem execC12Decode_of_gates (h12 : 12 ≤ s.inLen.toNat) (htag : s.frameByte 8 = 0x0C#8)
    (hsum : (verify s s.inLen.toNat).ok = true) {o : Except Raised ParsedResponse}
    (hparse : ∀ e, e.len = s.inLen.toNat → parseResponse s e = o) :
    exec .c12Decode s = .next (s.endResponse (verify s s.inLen.toNat) o) := by
  rw [execC12Decode_of_tag hin h12 htag, if_pos hsum, hparse _ rfl]

end

/-- Settles O26: each gate's failure, with the gates before it passed. -/
theorem c12GatesShortCircuitInOrder : Obligations.C12GatesShortCircuitInOrder := by
  intro s
  refine ⟨execC12Decode_of_overflow, execC12Decode_of_noTag, execC12Decode_of_wrongTag, execC12Decode_of_noChecksum,
    fun hin h12 htag hsum => ?_⟩
  exact execC12Decode_of_wrongChecksum hin h12 htag (Bool.eq_false_iff.2 (mt verify_ok_iff.1 hsum))

/-! ### A response in IN -/

/-- The payload size P that the frame in IN declares (42_codec12.md R184; 30_encoding.md R101). -/
def State.payloadSize (s : State) : Nat := beval (s.frameBytes 11 4)

/-- The fields and the payload of the response in IN (30_encoding.md R101). -/
def State.response (s : State) : ParsedResponse :=
  { dataSize := beval (s.frameBytes 4 4), qty := beval (s.frameBytes 9 1), type := beval (s.frameBytes 10 1)
    len := s.payloadSize, text := s.frameBytes 15 s.payloadSize }

/-- IN holds a response that passes both gates and fits (42_codec12.md R184, R187). -/
structure State.HoldsResponse (s : State) : Prop where
  inFits : s.inLen.toNat ≤ s.params.inSize
  tag : s.frameByte 8 = 0x0C#8
  checksum : (verify s s.inLen.toNat).ok = true
  payloadFits : 15 + s.payloadSize ≤ s.inLen.toNat
  outFits : s.payloadSize ≤ s.params.outSize

/-- A response is decoded to NoError (42_codec12.md R186). -/
theorem State.HoldsResponse.exec_eq {s : State} (h : s.HoldsResponse) :
    exec .c12Decode s = .next (s.commitResponse (verify s s.inLen.toNat) s.response) := by
  have hfits : 15 + beval (s.frameBytes 11 4) ≤ s.inLen.toNat := h.payloadFits
  have hout : beval (s.frameBytes 11 4) ≤ s.params.outSize := h.outFits
  refine execC12Decode_of_gates (o := .ok s.response) h.inFits (by omega) h.tag h.checksum fun e he => ?_
  rw [parseResponse_eq s e (by omega), he, if_neg (by omega), if_neg hfits.not_gt, if_neg hout.not_gt]
  rfl

/-- A C12_DECODE reaches NoError only on a response (42_codec12.md R186). -/
theorem holdsResponse_of_noError {s t : State} (h : exec .c12Decode s = .next t) (hr : t.status.result = .noError) :
    s.HoldsResponse := by
  rcases execC12Decode_cases s with ⟨r, crc, decl, pos, hne, hx⟩ | ⟨p, hin, htag, hsum, rfl, hfits, hout, -⟩
  · cases hx.symm.trans h
    exact absurd hr hne
  · exact ⟨hin, htag, hsum, hfits, hout⟩

/-- The payload in OUT (42_codec12.md R186). -/
theorem readByte_commitResponse_text (s : State) (v : Verified) (p : ParsedResponse) {k : Nat} (hk : k < p.text.length) :
    (s.commitResponse v p).readByte (0x20000 + k) = p.text[k] := by
  rw [readByte_commitResponse]
  exact readByte_writeBytes_of_inside hk

/-- What Verify returns when it holds: the CRC, and the declared value equal to it (40_crc.md R123). -/
theorem verify_eq_of_ok {s : State} {len : Nat} (h : (verify s len).ok = true) :
    verify s len =
      { ok := true, crc := crc16 (s.frameBytes 8 (len - 12)), decl := (crc16 (s.frameBytes 8 (len - 12))).setWidth 32 } :=
  congr (congrArg (Verified.mk · _) h) (eq_of_beq h).symm

theorem ofNat_beval_frameBytes_one (s : State) (off : Nat) :
    BitVec.ofNat 8 (beval (s.frameBytes off 1)) = s.frameByte off := by
  rw [frameBytes_one, beval_singleton, BitVec.ofNat_toNat, BitVec.setWidth_eq]

/-- Settles O27: a frame past both gates stops at the field or payload that does not fit, or is a response. -/
theorem c12DecodeReportsTheResponse : Obligations.C12DecodeReportsTheResponse := by
  rintro s c p hin h12 htag rfl hsum rfl
  have hok : (verify s s.inLen.toNat).ok = true := verify_ok_iff.2 hsum
  have hparse (e : Engine) (he : e.len = s.inLen.toNat) := parseResponse_eq s e (by omega)
  refine ⟨fun h15 => ?_, fun h15 hp => ?_, fun hp hout => ?_, fun hp hout => ?_⟩
  · refine execC12Decode_of_gates (o := .error (malformed 11)) hin h12 htag hok fun e he => ?_
    rw [hparse e he, he, if_pos h15]
  · refine execC12Decode_of_gates (o := .error (malformed 15)) hin h12 htag hok fun e he => ?_
    rw [hparse e he, he, if_neg h15.not_gt, if_pos hp]
  · refine execC12Decode_of_gates (o := .error (capacityExceeded 15)) hin h12 htag hok fun e he => ?_
    rw [hparse e he, he, if_neg (by omega), if_neg hp.not_gt, if_pos hout]
  · have hexec := State.HoldsResponse.exec_eq ⟨hin, htag, hok, hp, hout⟩
    refine ⟨_, hexec, ?_, fun k hk => ?_, fun a ha => ?_⟩
    · rw [verify_eq_of_ok hok]
      simp only [State.commitResponse, State.response, ofNat_beval_frameBytes_one]
      rfl
    · have hk : k < s.response.text.length := hk.trans_eq (length_frameBytes ..).symm
      exact (readByte_commitResponse_text s _ _ hk).trans (getElem_frameBytes ..)
    · rw [readByte_commitResponse]
      exact readByte_writeBytes_outBase (length_frameBytes ..) ha

end Sys2Proof.Machine
end

section
/-! A response in IN with one byte changed (42_codec12.md R188). -/

namespace Sys2Proof.Machine

/-- A byte sequence of a given length is determined by the integer it denotes (00_scope.md R12). -/
theorem eq_of_beval_eq {as bs : List Byte} (hlen : as.length = bs.length) (h : beval as = beval bs) : as = bs := by
  induction as generalizing bs with
  | nil => exact (List.length_eq_zero_iff.1 hlen.symm).symm
  | cons a as ih =>
    obtain ⟨b, bs, rfl⟩ := List.exists_cons_of_length_eq_add_one hlen.symm
    have hlen : as.length = bs.length := Nat.succ.inj hlen
    have ha := beval_lt as
    have hb := beval_lt bs
    rw [beval_cons, beval_cons, hlen] at h
    rw [hlen] at ha
    have hrest : beval as = beval bs := by
      have := congrArg (· % 256 ^ bs.length) h
      simpa [Nat.mul_add_mod_of_lt, Nat.mod_eq_of_lt, ha, hb] using this
    rw [hrest, Nat.add_right_cancel_iff] at h
    rw [ih hlen hrest, BitVec.eq_of_toNat_eq (Nat.eq_of_mul_eq_mul_right (Nat.pow_pos (by decide)) h)]

/-- A field of the frame with one of its bytes changed denotes another integer. -/
theorem beval_frameBytes_writeBytes_ne {s : State} {k off n : Nat} {b : Byte} (h1 : off ≤ k) (h2 : k < off + n)
    (hb : b ≠ s.frameByte k) :
    beval ((s.writeBytes (0x10000 + k) [b]).frameBytes off n) ≠ beval (s.frameBytes off n) := by
  intro h
  have hbytes := eq_of_beval_eq (by simp) h
  have hbyte := List.getElem_of_eq hbytes (i := k - off) (by rw [length_frameBytes]; omega)
  rw [getElem_frameBytes, getElem_frameBytes, Nat.add_sub_cancel' h1, frameByte_writeBytes_singleton, if_pos rfl] at hbyte
  exact hb hbyte

/-- A byte of the checksum changed under an unchanged region: Verify no longer holds (40_crc.md R123). -/
theorem verify_writeBytes_checksum {s : State} {len k : Nat} {b : Byte} (h12 : 12 ≤ len) (h1 : len ≤ k + 4)
    (h2 : k < len) (hb : b ≠ s.frameByte k) (hok : (verify s len).ok = true) :
    (verify (s.writeBytes (0x10000 + k) [b]) len).ok = false := by
  rw [← Bool.not_eq_true, verify_ok_iff, frameBytes_writeBytes_of_outside (.inr (by omega)), verify_ok_iff.1 hok]
  exact (beval_frameBytes_writeBytes_ne (by omega) (by omega) hb).symm

section
variable {s : State} {k : Nat} {b : Byte} (h : s.HoldsResponse)
include h

/-- A response with a byte before its tag changed is a response (42_codec12.md R188). -/
theorem State.HoldsResponse.writeBytes_header (hk : k < 8) : (s.writeBytes (0x10000 + k) [b]).HoldsResponse := by
  have hfits := h.payloadFits
  have hsize : (s.writeBytes (0x10000 + k) [b]).payloadSize = s.payloadSize :=
    congrArg beval (frameBytes_writeBytes_of_outside (.inl (by omega)))
  refine ⟨h.inFits, ?_, ?_, (congrArg (15 + ·) hsize).trans_le hfits, hsize.trans_le h.outFits⟩
  · rw [frameByte_writeBytes_singleton, if_neg (by omega), h.tag]
  · exact (congrArg Verified.ok (verify_writeBytes_header b (by omega : 12 ≤ s.inLen.toNat) hk)).trans h.checksum

/-- A response with another tag is CodecIncompatible (42_codec12.md R185, R188). -/
theorem State.HoldsResponse.exec_of_otherTag (hb : b ≠ s.frameByte 8) :
    exec .c12Decode (s.writeBytes (0x10000 + 8) [b]) =
      .next (ResponseFails (s.writeBytes (0x10000 + 8) [b]) .codecIncompatible 0 0 0) := by
  have hfits := h.payloadFits
  refine execC12Decode_of_wrongTag h.inFits (by change 9 ≤ s.inLen.toNat; omega) ?_
  rw [frameByte_writeBytes_singleton, if_pos rfl]
  exact h.tag ▸ hb

/-- A response with a byte past its tag changed is CrcFailed: the byte is the region's or the checksum's (42_codec12.md
R188). -/
theorem State.HoldsResponse.exec_of_otherByte (h9 : 9 ≤ k) (hk : k < s.inLen.toNat) (hb : b ≠ s.frameByte k) :
    ∃ crc decl, exec .c12Decode (s.writeBytes (0x10000 + k) [b]) =
      .next (ResponseFails (s.writeBytes (0x10000 + k) [b]) .crcFailed crc decl 0) := by
  have hfits := h.payloadFits
  have h12 : 12 ≤ s.inLen.toNat := by omega
  have htag : (s.writeBytes (0x10000 + k) [b]).frameByte 8 = 0x0C#8 := by
    rw [frameByte_writeBytes_singleton, if_neg (by omega), h.tag]
  have hsum : (verify (s.writeBytes (0x10000 + k) [b]) s.inLen.toNat).ok = false := by
    by_cases hregion : k + 4 < s.inLen.toNat
    · exact verify_writeBytes_region (by omega) hregion hb h.checksum
    · exact verify_writeBytes_checksum h12 (by omega) hk hb h.checksum
  exact ⟨_, _, execC12Decode_of_wrongChecksum h.inFits h12 htag hsum⟩

end

/-- Settles O28: the byte is the header's, the tag's, or one that the checksum covers or is. -/
theorem mutatedResponseFailsByPosition : Obligations.MutatedResponseFailsByPosition := by
  intro s t k b hexec hr hk hb
  have h := holdsResponse_of_noError hexec hr
  have hfits := h.payloadFits
  cases h.exec_eq.symm.trans hexec
  rcases (by omega : k ≤ 7 ∨ k = 8 ∨ 9 ≤ k) with h7 | rfl | h9
  · refine ⟨_, (h.writeBytes_header (by omega)).exec_eq, by omega, by omega, fun _ => ⟨rfl, rfl⟩,
      fun h4 _ heq => ?_, by omega⟩
    have hne := beval_frameBytes_writeBytes_ne (off := 4) (n := 4) h4 (by omega) hb
    have hlt (u : State) : beval (u.frameBytes 4 4) < 2 ^ 32 := by simpa using beval_lt (u.frameBytes 4 4)
    have heq := congrArg BitVec.toNat heq
    simp only [State.commitResponse, State.response, State.commit_rsp, BitVec.toNat_ofNat] at heq
    rw [Nat.mod_eq_of_lt (hlt _), Nat.mod_eq_of_lt (hlt _)] at heq
    exact hne heq
  · exact ⟨_, h.exec_of_otherTag hb, by omega, fun _ => rfl, by omega, by omega, by omega⟩
  · obtain ⟨crc, decl, hx⟩ := h.exec_of_otherByte h9 hk hb
    exact ⟨_, hx, fun _ _ => rfl, by omega, by omega, by omega, fun _ => rfl⟩

end Sys2Proof.Machine
end

section
/-! C12_ENCODE (42_codec12.md R180 to R182), and its output read back by C12_DECODE (R189). -/

namespace Sys2Proof.Machine

/-- The frame in OUT (42_codec12.md R180). -/
theorem readByte_commitCommand_frame (s : State) (cmd : List Byte) {k : Nat} (hk : k < (commandFrame cmd).length) :
    (s.commitCommand cmd).readByte (0x20000 + k) = (commandFrame cmd)[k] := by
  rw [readByte_commitCommand]
  exact readByte_writeBytes_of_inside hk

/-- Settles O25: by C12_ENCODE's two commits; the frame is the model's own, its parts written out. -/
theorem c12EncodeWritesTheCommandFrame : Obligations.C12EncodeWritesTheCommandFrame := by
  refine ⟨rfl, ?_⟩
  rintro s n cmd body bytes hn hcmd hbody hbytes
  have hlen : cmd.length = n := hcmd ▸ length_frameBytes ..
  obtain rfl : body = commandBody cmd := by rw [hbody, commandBody, hlen]
  obtain rfl : bytes = commandFrame cmd := by
    rw [hbytes, commandFrame, hlen]
    rfl
  rcases execC12Encode_cases s with ⟨hover, hx⟩ | ⟨hin, hout, hx⟩
  · exact ⟨by omega, fun _ => hx⟩
  · rw [← hn, ← hcmd] at hx
    have hframe : (commandFrame cmd).length = 20 + n := hlen ▸ length_commandFrame cmd
    refine ⟨fun _ _ => ⟨_, hx, hlen ▸ rfl, hframe, fun _ => readByte_commitCommand_frame s cmd, fun a ha => ?_⟩,
      by omega⟩
    rw [readByte_commitCommand]
    exact readByte_writeBytes_outBase hframe ha

/-! ### The output in IN -/

/-- The parts of a command frame at their offsets in IN (30_encoding.md R100). -/
structure State.HoldsCommand (s : State) (cmd : List Byte) : Prop where
  inLen : s.inLen.toNat = 20 + cmd.length
  dataSize : s.frameBytes 4 4 = beBytes 4 (8 + cmd.length)
  body : s.frameBytes 8 (8 + cmd.length) = commandBody cmd
  checksum : s.frameBytes (16 + cmd.length) 4 = beBytes 4 (crc16 (commandBody cmd)).toNat

theorem length_commandBody (cmd : List Byte) : (commandBody cmd).length = 8 + cmd.length := by
  simp [commandBody]
  omega

theorem holdsCommand_of_frame {s : State} {cmd : List Byte} (hlen : s.inLen.toNat = 20 + cmd.length)
    (hbytes : s.frameBytes 0 (commandFrame cmd).length = commandFrame cmd) : s.HoldsCommand cmd := by
  simp only [commandFrame, List.append_assoc] at hbytes
  obtain ⟨-, hrest⟩ := frameBytes_split hbytes (length_beBytes 4 _)
  obtain ⟨hsize, hrest⟩ := frameBytes_split hrest (length_beBytes 4 _)
  obtain ⟨hbody, hsum⟩ := frameBytes_split hrest (length_commandBody cmd)
  rw [length_beBytes, Nat.zero_add, ← Nat.add_assoc] at hsum
  exact ⟨hlen, hsize, hbody, hsum⟩

theorem commandBody_eq (cmd : List Byte) :
    commandBody cmd = [0x0C#8] ++ ([0x01#8] ++ ([0x05#8] ++ (beBytes 4 cmd.length ++ (cmd ++ [0x01#8])))) := by
  simp only [commandBody, List.append_assoc]
  rfl

section
variable {s : State} {cmd : List Byte} (h : s.HoldsCommand cmd)
include h

/-- The body of a command frame: tag, quantity, type, length, command (42_codec12.md R180). -/
theorem State.HoldsCommand.body_parts :
    s.frameByte 8 = 0x0C#8 ∧ s.frameBytes 9 1 = [0x01#8] ∧ s.frameBytes 10 1 = [0x05#8] ∧
    s.frameBytes 11 4 = beBytes 4 cmd.length ∧ s.frameBytes 15 cmd.length = cmd := by
  have hbody : s.frameBytes 8 (commandBody cmd).length = commandBody cmd := (length_commandBody cmd).symm ▸ h.body
  rw [commandBody_eq] at hbody
  obtain ⟨htag, hrest⟩ := frameBytes_split (n := 1) hbody rfl
  obtain ⟨hqty, hrest⟩ := frameBytes_split (n := 1) hrest rfl
  obtain ⟨htype, hrest⟩ := frameBytes_split (n := 1) hrest rfl
  obtain ⟨hlen, hrest⟩ := frameBytes_split hrest (length_beBytes 4 _)
  exact ⟨List.head_eq_of_cons_eq htag, hqty, htype, hlen, (frameBytes_split hrest rfl).1⟩

/-- A command frame verifies (42_codec12.md R182). -/
theorem State.HoldsCommand.verify_ok : (verify s s.inLen.toNat).ok = true := by
  have hcrc := (crc16 (commandBody cmd)).isLt
  rw [verify_ok_iff, h.inLen, show 20 + cmd.length - 12 = 8 + cmd.length by omega,
    show 20 + cmd.length - 4 = 16 + cmd.length by omega, h.body, h.checksum, beval_beBytes_of_lt (by omega)]

variable (hsmall : 8 + cmd.length ≤ 65536)
include hsmall

/-- Read as a response, a command frame has the command as its payload (42_codec12.md R189). -/
theorem State.HoldsCommand.response_eq :
    s.response = { dataSize := 8 + cmd.length, qty := 1, type := 5, len := cmd.length, text := cmd } := by
  obtain ⟨-, hqty, htype, hlen, htext⟩ := h.body_parts
  have hpayload : s.payloadSize = cmd.length := by rw [State.payloadSize, hlen, beval_beBytes_of_lt (by omega)]
  rw [State.response, hpayload, h.dataSize, hqty, htype, htext, beval_beBytes_of_lt (by omega)]
  rfl

/-- A command frame passes the gates of C12_DECODE and fits (42_codec12.md R182, R189). -/
theorem State.HoldsCommand.holdsResponse (hin : s.inLen.toNat ≤ s.params.inSize)
    (hout : cmd.length ≤ s.params.outSize) : s.HoldsResponse := by
  have hsize : s.payloadSize = cmd.length := congrArg ParsedResponse.len (h.response_eq hsmall)
  have hlen := h.inLen
  exact ⟨hin, h.body_parts.1, h.verify_ok, by omega, by omega⟩

end

/-- The output of a C12_ENCODE loaded in IN is a command frame (42_codec12.md R180, R189). -/
theorem holdsCommand_of_commitCommand {s s' : State} {cmd : List Byte} (hsmall : 20 + cmd.length ≤ 65536)
    (hlen : s'.inLen = (s.commitCommand cmd).outLen)
    (hload : ∀ k, k < (s.commitCommand cmd).outLen.toNat →
      s'.frameByte k = (s.commitCommand cmd).readByte (0x20000 + k)) : s'.HoldsCommand cmd := by
  have houtLen : (s.commitCommand cmd).outLen.toNat = 20 + cmd.length := toNat_ofNat_of_le hsmall
  refine holdsCommand_of_frame (hlen ▸ houtLen) (List.ext_getElem (length_frameBytes ..) fun k _ hk => ?_)
  have hk' : k < (s.commitCommand cmd).outLen.toNat := hk.trans_eq ((length_commandFrame cmd).trans houtLen.symm)
  rw [getElem_frameBytes, Nat.zero_add, hload k hk', readByte_commitCommand_frame s cmd hk]

/-- Settles O29: the output is a command frame in IN, and C12_DECODE reads a command frame as a response. -/
theorem encodedCommandDecodesToItself : Obligations.EncodedCommandDecodesToItself := by
  rintro s s' t cmd hw hcmd hexec hr hlen hparams hin hload
  rcases execC12Encode_cases s with ⟨-, hx⟩ | ⟨-, hfits, hx⟩
  · cases hx.symm.trans hexec
    cases hr
  cases hx.symm.trans hexec
  rw [← hcmd] at hlen hload
  have hout : 20 + cmd.length ≤ s.params.outSize := by rwa [hcmd, length_frameBytes]
  have hsmall : 20 + cmd.length ≤ 65536 := hout.trans (Params.bounds hw).2.1.2
  have hcommand := holdsCommand_of_commitCommand hsmall hlen hload
  have hdecode := (hcommand.holdsResponse (by omega) hin (by rw [hparams]; omega)).exec_eq
  rw [hcommand.response_eq (by omega)] at hdecode
  have hsize : (BitVec.ofNat 32 (8 + cmd.length)).toNat = 8 + cmd.length := toNat_ofNat_of_le (by omega)
  have hlen : (BitVec.ofNat 32 cmd.length).toNat = cmd.length := toNat_ofNat_of_le (by omega)
  exact ⟨hcommand.verify_ok, _, hdecode, rfl, hsize, rfl, rfl, hlen, hlen,
    fun _ hk => readByte_commitResponse_text s' _ _ hk⟩

end Sys2Proof.Machine
end

section
/-! The interest filter, FILTER_PROBE, and the severity map and aggregator (43_filter_severity.md R200 to R208). -/

namespace Sys2Proof.Machine

/-! ### Match and Retain -/

/-- An interest word equals the zero-extended ID when it has the ID's value (43_filter_severity.md R200). -/
theorem State.isetEntry_eq_iff (s : State) (k : Nat) (pid : Half) :
    s.isetEntry k = pid.setWidth 32 ↔ (s.readWord (0x01000 + 4 * k)).toNat = pid.toNat := by
  rw [← BitVec.toNat_inj, BitVec.toNat_setWidth_of_le (by decide)]
  rfl

theorem State.isMatch_iff (s : State) (pid : Half) :
    s.isMatch pid = true ↔
      s.isetCount.toNat ≠ 0 ∧ ∃ k, k < s.isetCount.toNat ∧ (s.readWord (0x01000 + 4 * k)).toNat = pid.toNat := by
  have hzero : s.isetCount = 0#32 ↔ s.isetCount.toNat = 0 := (BitVec.toNat_inj (y := 0#32)).symm
  by_cases h : s.isetCount.toNat = 0
  · simp [State.isMatch, h, hzero]
  · simp [State.isMatch, h, hzero, State.isetEntry_eq_iff]

theorem State.retain_eq_false_iff (s : State) (m : Bool) :
    s.retain m = false ↔ 0 < s.isetCount.toNat ∧ m = false ∧ s.cfg.discard = true := by
  simp [State.retain, and_assoc]

theorem State.isMatch_of_empty {s : State} (h : s.isetCount = 0#32) (pid : Half) : s.isMatch pid = false := if_pos h

theorem State.retain_of_empty {s : State} (h : s.isetCount = 0#32) (m : Bool) : s.retain m = true := by
  simp [State.retain, h]

theorem State.retain_matched (s : State) : s.retain true = true := by simp [State.retain]

/-- With an interest set, DISCARD alone decides on an ID that is not in it (43_filter_severity.md R203). -/
theorem State.retain_unmatched {s : State} (h : s.isetCount ≠ 0#32) : s.retain false = !s.cfg.discard := by
  have hpos : 0 < s.isetCount.toNat := Nat.pos_of_ne_zero fun hz => h (BitVec.eq_of_toNat_eq hz)
  simp [State.retain, hpos]

/-- Settles O12: each clause is what the model's Match and Retain compute. -/
theorem matchIsMembershipAndRetainIsThePolicy : Obligations.MatchIsMembershipAndRetainIsThePolicy :=
  fun s pid m => ⟨s.isMatch_iff pid, s.retain_eq_false_iff m⟩

/-- Settles O13: PROBE_RESULT reads as RETAIN and MATCH; the three outcomes are the rows of R203. -/
theorem filterProbeCommitsMatchAndRetain : Obligations.FilterProbeCommitsMatchAndRetain := by
  refine ⟨rfl, fun s => ⟨_, execFilterProbe_eq s, rfl, ?_⟩⟩
  have hread : ∀ {m r : Bool}, (ProbeResult.word ⟨m, r⟩).toNat = 2 * r.toNat + m.toNat :=
    (ProbeResult.toNat_word _).trans (Nat.add_comm ..)
  refine ⟨hread, fun hempty => hread.trans ?_, fun _ hm => hread.trans ?_, fun hset hm => hread.trans ?_⟩
  · rw [State.isMatch_of_empty hempty, State.retain_of_empty hempty]
    rfl
  · rw [hm, State.retain_matched]
    rfl
  · rw [hm, State.retain_unmatched hset]
    cases s.cfg.discard <;> rfl

/-! ### The severity map and the aggregator -/

/-- The raw bytes outside the table (43_filter_severity.md R206). -/
theorem sevMap_of_three_le {raw : Byte} (h : 0x03#8 ≤ raw) : sevMap raw = .notDetermined := by
  have h0 : raw ≠ 0x00#8 := by bv_omega
  have h1 : raw ≠ 0x01#8 := by bv_omega
  have h2 : raw ≠ 0x02#8 := by bv_omega
  rw [sevMap, if_neg h0, if_neg h1, if_neg h2]

/-- Settles O14: the rows of the table, and the pattern of every severity. -/
theorem severityMapFollowsTheTable : Obligations.SeverityMapFollowsTheTable :=
  ⟨rfl, rfl, rfl, fun _ h => congrArg Severity.toInt (sevMap_of_three_le h), fun raw => pattern_toInt (sevMap raw)⟩

/-- A severity's s8 value, read as a raw byte, maps back to it (43_filter_severity.md R206). -/
theorem sevMap_ofInt_toInt (h : Severity) : sevMap (BitVec.ofInt 8 h.toInt) = h := by cases h <;> rfl

theorem Severity.toInt_injective : Function.Injective Severity.toInt :=
  Function.LeftInverse.injective (g := fun v => sevMap (BitVec.ofInt 8 v)) sevMap_ofInt_toInt

/-- Agg takes its commutativity from the maximum of the signed values (43_filter_severity.md R208). -/
theorem sevAgg_comm (a b : Severity) : sevAgg a b = sevAgg b a :=
  Severity.toInt_injective (by rw [toInt_sevAgg, toInt_sevAgg, max_comm])

theorem sevAgg_assoc (a b c : Severity) : sevAgg (sevAgg a b) c = sevAgg a (sevAgg b c) :=
  Severity.toInt_injective (by simp only [toInt_sevAgg, max_assoc])

theorem sevAgg_right_comm (a b c : Severity) : sevAgg (sevAgg a b) c = sevAgg (sevAgg a c) b := by
  rw [sevAgg_assoc, sevAgg_comm b c, sevAgg_assoc]

/-- The aggregate does not depend on the order of the records (43_filter_severity.md R208). -/
theorem foldl_sevAgg_perm {l l' : List Severity} (h : l.Perm l') (hi : Severity) :
    l.foldl sevAgg hi = l'.foldl sevAgg hi :=
  have : RightCommutative sevAgg := ⟨sevAgg_right_comm⟩
  h.foldl_eq hi

/-- Settles O15: Agg is the maximum of the signed values, from which commutativity, associativity and the independence
of order follow. -/
theorem aggregateIsTheSignedMaximum : Obligations.AggregateIsTheSignedMaximum :=
  ⟨toInt_sevAgg, sevAgg_comm, sevAgg_assoc, fun _ _ h => foldl_sevAgg_perm h .notDetermined⟩

end Sys2Proof.Machine
end

section
/-! The completion protocol: what an operation can answer, that it reaches its commit and the block then accepts the next one,
and the interrupt (60_exceptions.md R220 to R232). -/

namespace Sys2Proof.Machine

/-! ### What an operation answers -/

/-- An operation commits, or is a C8E_DECODE that a silent resolver leaves without an answer (60_exceptions.md R228;
93_implementation_defined.md U9). -/
theorem exec_next_or_silent (i : Instr) (s : State) :
    (∃ t, exec i s = .next t) ∨
    (i = .c8eDecode ∧ s.resolver.answering = false ∧ exec i s = .refused .resolverSilent) := by
  by_cases hi : i = .c8eDecode
  · subst hi
    rcases execC8eDecode_cases s with ⟨_, _, _, _, -, hx⟩ | ⟨_, -, -, -, -, -, hx⟩ | ⟨ha, hx⟩
    · exact .inl ⟨_, hx⟩
    · exact .inl ⟨_, hx⟩
    · exact .inr ⟨rfl, ha, hx⟩
  · exact .inl (exec_next fun h => absurd h hi)

/-- Settles O32: with a resolver that answers an operation goes on, and what it goes on to is a commit. -/
theorem everyOperationCommits : Obligations.EveryOperationCommits := by
  intro i s ha
  obtain ⟨t, ht⟩ := exec_next ha
  obtain ⟨hbusy, hdone⟩ := exec_completes ht
  obtain ⟨-, -, -, heng, -⟩ := exec_frame ht
  exact ⟨t, ht, hbusy, hdone, heng⟩

/-- Settles O33: the two answers an operation has are a commit and the refusal of the silent resolver. -/
theorem onlyASilentResolverStopsAnOperation : Obligations.OnlyASilentResolverStopsAnOperation := by
  intro i s
  rcases exec_next_or_silent i s with ⟨t, ht⟩ | ⟨hi, ha, hx⟩
  · rw [ht]; exact ⟨nofun, nofun⟩
  · rw [hx]; exact ⟨nofun, fun r hr => ⟨hi, by cases hr; rfl, ha⟩⟩

/-! ### The engine's move and the way to the commit -/

/-- The engine's move runs the operation it holds (60_exceptions.md R226 (2)). -/
theorem engineMove_of_decode {s : State} {e : Engine} {i : Instr} (he : s.eng = some e) (hi : decode e.word = .ok i) :
    engineMove s = exec i s := by
  unfold engineMove
  simp only [he, hi]

/-- When the engine moves next, the step is the operation it holds. -/
theorem step_engine {s : State} {e : Engine} {i : Instr} (hev : s.nextEvent = .engine) (he : s.eng = some e)
    (hi : decode e.word = .ok i) : step s = exec i s.past := by
  rw [step_eq, hev]
  exact engineMove_of_decode he hi

/-- Settles O4: withFetchWord puts the engine's move first, and the engine it starts holds the word's OP, which decodes as
the word does. -/
theorem engineStepRunsTheDecodedOperation : Obligations.EngineStepRunsTheDecodedOperation := by
  refine ⟨fun s e i hev he hi => step_engine hev he hi, fun s i nbits w hi => ?_⟩
  exact step_engine (s := s.withFetchWord nbits w) rfl rfl ((decode_opField _).trans hi)

/-- The engine's move commits the operation it holds, whatever its OP, if the resolver answers (60_exceptions.md R228). -/
theorem engineMove_completes {s : State} (he : s.eng.isSome = true) (ha : s.resolver.answering = true) :
    ∃ t, engineMove s = .next t ∧ t.status.busy = false ∧ t.status.done = true := by
  obtain ⟨e, he⟩ := Option.isSome_iff_exists.1 he
  cases hd : decode e.word with
  | ok i =>
    obtain ⟨t, ht⟩ := exec_next (i := i) fun _ => ha
    exact ⟨t, (engineMove_of_decode he hd).trans ht, exec_completes ht⟩
  | error x =>
    have hmove : engineMove s = .next s.commitIllegalOp := by unfold engineMove; simp only [he, hd]
    exact ⟨_, hmove, rfl, rfl⟩

/-- A run takes its first step. -/
theorem run_succ_of_step {M : Host.Core} {s t : M.State} (h : M.step s = .next t) (n : Nat) :
    M.run (n + 1) s = M.run n t := by
  rw [Host.Core.run, h]

/-- Settles O43: by induction on the accesses to come, none of which touches the running engine; after them the engine moves. -/
theorem acceptedOperationReachesItsCommit : Obligations.AcceptedOperationReachesItsCommit := by
  intro s hb he hr ha hacc
  induction henv : s.env generalizing s with
  | nil =>
    obtain ⟨t, ht, hdone⟩ := engineMove_completes he ha
    have hstep : step s = .next t := by rw [step, henv]; exact ht
    exact ⟨t, run_succ_of_step (M := core) hstep 0, hdone⟩
  | cons ev rest ih =>
    rw [henv] at hacc
    obtain ⟨a, rfl, hlo, hhi⟩ := hacc ev List.mem_cons_self
    obtain ⟨x, d, w, n, hx⟩ := State.busAccess_busy (s := { s with env := rest }) hb a
    have hstep := (step_access henv).trans (takeAccess_inside hr (decodesAddr_iff.2 ⟨hlo, hhi⟩))
    rw [List.length_cons, run_succ_of_step (M := core) hstep, hx]
    exact ih (State.accessed _ x d w n) hb he hr ha (fun e h => hacc e (List.mem_cons_of_mem _ h)) rfl

/-! ### CMD writes while idle -/

/-- Settles O44: a commit leaves the block idle, and a CMD write while idle is an acceptance
(`cmdWriteWhileIdleAcceptsTheOperation`). -/
theorem afterAnyCommitTheNextOperationIsAccepted : Obligations.AfterAnyCommitTheNextOperationIsAccepted := by
  intro i j s t w h hop
  rw [cmdWriteWhileIdleAcceptsTheOperation t w j (exec_completes h).1 hop]
  exact ⟨rfl, rfl, rfl⟩

/-- A CMD write of a reserved OP while idle is IllegalOp's commit (60_exceptions.md R221). -/
theorem State.busWrite_reservedOp {s : State} {w : Word} (hb : s.status.busy = false)
    (hop : w.extractLsb' 0 4 = 0x0#4 ∨ 0x7#4 ≤ w.extractLsb' 0 4) :
    s.busWrite 32 0x004 w = { (s.accept w).commitIllegalOp with resp := .writeOk } := by
  obtain ⟨-, -, hreject⟩ := decodeReadsOpFieldAndInvertsEncode
  obtain ⟨e, he⟩ := (hreject w).2 hop
  have hissue : s.issue w = (s.accept w).commitIllegalOp := by rw [State.issue, he]
  rw [State.busWrite_guarded (r := .cmd) hb rfl rfl, hissue]

/-- Settles O36: IllegalOp's commit leaves the block idle, so that the next CMD write is an acceptance. -/
theorem reservedOpCommitsIllegalOpAtOnce : Obligations.ReservedOpCommitsIllegalOpAtOnce := by
  intro s w hb hop
  rw [State.busWrite_reservedOp hb hop]
  refine ⟨rfl, fun i w' hop' => ?_⟩
  rw [cmdWriteWhileIdleAcceptsTheOperation _ w' i rfl hop']

/-! ### The interrupt and the result codes -/

theorem State.irq_iff (s : State) : s.irq = true ↔ s.status.done = true ∧ s.cfg.ie = true := Bool.and_eq_true_iff

/-- No interrupt without DONE. -/
theorem State.irq_of_not_done {s : State} (h : s.status.done = false) : s.irq = false := by simp [State.irq, h]

/-- No interrupt without IE. -/
theorem State.irq_of_disabled {s : State} (h : s.cfg.ie = false) : s.irq = false := by simp [State.irq, h]

/-- A commit raises the interrupt exactly if IE is set, for it leaves CFG alone (60_exceptions.md R232). -/
theorem irq_exec {i : Instr} {s t : State} (h : exec i s = .next t) : t.irq = s.cfg.ie := by
  obtain ⟨u, r, ok, rfl, hcfg, -⟩ := exec_commit h
  exact congrArg Cfg.ie hcfg

/-- Settles O40: a commit sets DONE and keeps IE; an acceptance, a STATUS write and reset clear DONE, a CFG write clears IE. -/
theorem interruptFollowsDoneAndEnable : Obligations.InterruptFollowsDoneAndEnable := by
  refine ⟨State.irq_iff, fun i s t => irq_exec, fun s w hb => ⟨fun ⟨i, hop⟩ => ?_, fun hop => ?_⟩, fun s v hv => ?_,
    fun s v hb hv => ?_, fun s => State.irq_of_not_done rfl⟩
  · rw [cmdWriteWhileIdleAcceptsTheOperation s w i hb hop]; exact State.irq_of_not_done rfl
  · rw [State.busWrite_reservedOp hb hop]; rfl
  · rw [State.busWrite_register (r := .status) rfl]
    exact State.irq_of_not_done (by simp [State.writeReg, hv])
  · rw [State.busWrite_guarded (r := .cfg) hb rfl rfl]
    exact State.irq_of_disabled hv

/-- Settles O46: the rows of R220's table are the equations of the model's numbering. -/
theorem resultCodesHaveTheirNumbers : Obligations.ResultCodesHaveTheirNumbers := ⟨rfl, rfl, rfl, rfl, rfl, rfl⟩

end Sys2Proof.Machine
end

section
/-! What no operation reads (70_reset_and_hazards.md R255; 93_implementation_defined.md U15): IN at or beyond L, the interest
words at or beyond ISET_COUNT and every other memory. Two states that agree on the rest commit alike. -/

namespace Sys2Proof.Machine

/-- s' is s but for the memories and the draws of the model. -/
def State.SameButMemory (s' s : State) : Prop :=
  s' = { s with mem := s'.mem, ramDraw := s'.ramDraw, tblDraw := s'.tblDraw, nextDraw := s'.nextDraw }

/-- s' and s agree on everything an operation reads. -/
structure State.SameReads (s' s : State) : Prop where
  registers : s'.SameButMemory s
  bytes : ∀ k, k < s.start.len → s'.frameByte k = s.frameByte k
  interest : ∀ k, k < s.isetCount.toNat → s'.isetEntry k = s.isetEntry k

/-- t' and t are commits of one operation with the same registers and the same valid results in memory: OUT[0..OUT_LEN),
and the table entries that FR_NREC and FR_NEVT count (10_state.md R42, R45). -/
structure State.SameValidResults (i : Instr) (t' t : State) : Prop where
  registers : t'.SameButMemory t
  out : i ∈ [Instr.c12Encode, .c12Decode] →
    ∀ k, k < t.outLen.toNat → t'.readByte (0x20000 + k) = t.readByte (0x20000 + k)
  tables : i = .c8eDecode →
    (∀ k, k < 32 * t.fr.nrec.toNat → t'.readByte (0x30000 + k) = t.readByte (0x30000 + k)) ∧
    (∀ k, k < 32 * t.fr.nevt.toNat → t'.readByte (0x40000 + k) = t.readByte (0x40000 + k))

/-- Both outcomes are commits with the same valid results, or both are the same refusal. -/
inductive OutcomesAgree (i : Instr) : Host.Outcome State Fault Refusal → Host.Outcome State Fault Refusal → Prop
  | next {t' t : State} (h : State.SameValidResults i t' t) : OutcomesAgree i (.next t') (.next t)
  | refused (r : Refusal) : OutcomesAgree i (.refused r) (.refused r)

/-- A complete response parse gives as many bytes as its length field says (42_codec12.md R184). -/
theorem parseResponse_length {s : State} {e : Engine} {p : ParsedResponse} (he : 11 ≤ e.len)
    (h : parseResponse s e = .ok p) : p.text.length = p.len := by
  rw [parseResponse_eq s e he] at h
  split at h
  · cases h
  · split at h
    · cases h
    · split at h
      · cases h
      · cases h; exact length_frameBytes ..

section
variable {s s' : State} (h : s'.SameReads s)
include h

/-! ### What an operation reads -/

theorem State.SameReads.params_eq : s'.params = s.params := by rw [h.registers]

theorem State.SameReads.start_eq : s'.start = s.start := by rw [h.registers]; rfl

theorem State.SameReads.probeId_eq : s'.probeId = s.probeId := by rw [h.registers]

theorem State.SameReads.retain_eq (m : Bool) : s'.retain m = s.retain m := by rw [h.registers]; rfl

theorem State.SameReads.isMatch_eq (id : Half) : s'.isMatch id = s.isMatch id := by
  have hcount : s'.isetCount = s.isetCount := by rw [h.registers]
  rw [Bool.eq_iff_iff, State.isMatch_iff, State.isMatch_iff, hcount]
  refine and_congr_right fun _ => exists_congr fun k => and_congr_right fun hk => ?_
  rw [show s'.readWord (0x01000 + 4 * k) = s.readWord (0x01000 + 4 * k) from h.interest k hk]

theorem State.SameReads.frameBytes_eq : s'.frameBytes 0 s.start.len = s.frameBytes 0 s.start.len :=
  frameBytes_congr fun k _ hk => h.bytes k (by omega)

theorem State.SameReads.verify_eq (h12 : 12 ≤ s.start.len) : verify s' s.start.len = verify s s.start.len :=
  verify_congr h12 fun k _ => h.bytes k

theorem State.SameReads.sameInputs : SameInputs s s' s.start.len :=
  { bytes := h.bytes, isMatch := h.isMatch_eq, retain := h.retain_eq, params := h.params_eq
    resolver := by rw [h.registers] }

/-! ### The commits of the two states -/

/-- A failure has no valid result in memory: its lengths and counts are zero (60_exceptions.md R224). -/
theorem State.SameReads.failure (i : Instr) (crc : Half) (decl : Word) (pos : Nat) (r : ResultCode) :
    State.SameValidResults i (((s'.zeroResults i).setCheck crc decl pos).commit r false)
      (((s.zeroResults i).setCheck crc decl pos).commit r false) where
  registers := by rw [h.registers]; cases i <;> rfl
  out hi k hk := by
    have hzero : (((s.zeroResults i).setCheck crc decl pos).commit r false).outLen = 0 := by
      rcases List.mem_pair.1 hi with rfl | rfl <;> rfl
    rw [hzero] at hk
    exact absurd hk k.not_lt_zero
  tables hi := by
    subst hi
    exact ⟨fun k hk => absurd hk k.not_lt_zero, fun k hk => absurd hk k.not_lt_zero⟩

theorem State.SameReads.check {i : Instr} (hi : i = .crcCompute ∨ i = .crcVerify) (crc : Half) (decl : Word) (pos : Nat)
    (r : ResultCode) (ok : Bool) :
    State.SameValidResults i ((s'.setCheck crc decl pos).commit r ok) ((s.setCheck crc decl pos).commit r ok) where
  registers := by rw [h.registers]; rfl
  out hout := by rcases hi with rfl | rfl <;> simp at hout
  tables htab := by rcases hi with rfl | rfl <;> cases htab

theorem State.SameReads.command (cmd : List Byte) :
    State.SameValidResults .c12Encode (s'.commitCommand cmd) (s.commitCommand cmd) where
  registers := by rw [h.registers]; rfl
  out _ k hk := by
    have hin : k < (commandFrame cmd).length := hk.trans_le (toNat_ofNat_le (length_commandFrame cmd).ge)
    rw [readByte_commitCommand_frame s' cmd hin, readByte_commitCommand_frame s cmd hin]
  tables := nofun

theorem State.SameReads.response (v : Verified) {p : ParsedResponse} (hlen : p.text.length = p.len) :
    State.SameValidResults .c12Decode (s'.commitResponse v p) (s.commitResponse v p) where
  registers := by rw [h.registers]; rfl
  out _ k hk := by
    have hin : k < p.text.length := hk.trans_le (toNat_ofNat_le hlen.ge)
    rw [readByte_commitResponse_text s' v p hin, readByte_commitResponse_text s v p hin]
  tables := nofun

theorem State.SameReads.frame (hw : s.params.wellFormed = true) (v : Verified) {e : Engine} {p : Parsed}
    (hp : parseFrame s e = .ok p) (he : e.len = s.start.len) :
    State.SameValidResults .c8eDecode (s'.commitFrame v p) (s.commitFrame v p) where
  registers := by rw [h.registers]; rfl
  out := nofun
  tables _ := by
    have hp' : parseFrame s' e = .ok p := (parseFrame_congr (he ▸ h.sameInputs)).trans hp
    obtain ⟨hok, hrecs, -, -⟩ := parseFrame_intakeOk hp
    obtain ⟨hrec, hevt⟩ := readByte_commitFrame_tables (v := v) hw hp
    obtain ⟨hrec', hevt'⟩ := readByte_commitFrame_tables (v := v) (h.params_eq ▸ hw) hp'
    have hnrec : (s.commitFrame v p).fr.nrec.toNat ≤ (p.intake.recs.map RecordEntry.words).length := by
      rw [List.length_map, hrecs]; exact Nat.mod_le ..
    have hnevt : (s.commitFrame v p).fr.nevt.toNat ≤ (p.intake.evts.map EventEntry.words).length := by
      rw [List.length_map, ← hok.nev]; exact Nat.mod_le ..
    constructor
    · intro k hk
      rw [hrec k (by omega), hrec' k (by omega)]
    · intro k hk
      rw [hevt k (by omega), hevt' k (by omega)]

/-! ### Each operation takes the same branch -/

theorem execCrcCompute_outcomesAgree : OutcomesAgree .crcCompute (execCrcCompute s') (execCrcCompute s) := by
  apply OutcomesAgree.next
  simp only [h.params_eq, h.start_eq, h.frameBytes_eq]
  split
  · exact h.failure ..
  · exact h.check (.inl rfl) ..

theorem execCrcVerify_outcomesAgree : OutcomesAgree .crcVerify (execCrcVerify s') (execCrcVerify s) := by
  apply OutcomesAgree.next
  simp only [h.params_eq, h.start_eq]
  split
  · exact h.failure ..
  · split
    · exact h.failure ..
    · rw [h.verify_eq (by omega)]
      exact h.check (.inr rfl) ..

theorem execC8eDecode_outcomesAgree (hw : s.params.wellFormed = true) :
    OutcomesAgree .c8eDecode (execC8eDecode s') (execC8eDecode s) := by
  have failed : ∀ crc decl pos r, OutcomesAgree .c8eDecode
      (.next (((s'.zeroResults .c8eDecode).setCheck crc decl pos).commit r false))
      (.next (((s.zeroResults .c8eDecode).setCheck crc decl pos).commit r false)) :=
    fun _ _ _ _ => .next (h.failure ..)
  simp only [execC8eDecode, h.params_eq, h.start_eq]
  split
  · exact failed ..
  · split
    · exact failed ..
    · rw [h.bytes 8 (by omega)]
      split
      · exact failed ..
      · split
        · exact failed ..
        · rw [h.verify_eq (by omega), parseFrame_congr (s := s) (by exact h.sameInputs)]
          split
          · split
            case h_1 p hp => exact .next (h.frame hw _ hp rfl)
            case h_2 => exact failed ..
            case h_3 => exact .refused _
          · exact failed ..

theorem execC12Encode_outcomesAgree : OutcomesAgree .c12Encode (execC12Encode s') (execC12Encode s) := by
  apply OutcomesAgree.next
  simp only [h.params_eq, h.start_eq, h.frameBytes_eq]
  split
  · exact h.failure ..
  · split
    · exact h.failure ..
    · exact h.command _

theorem execC12Decode_outcomesAgree : OutcomesAgree .c12Decode (execC12Decode s') (execC12Decode s) := by
  apply OutcomesAgree.next
  simp only [h.params_eq, h.start_eq]
  split
  · exact h.failure ..
  · split
    · exact h.failure ..
    · rw [h.bytes 8 (by omega)]
      split
      · exact h.failure ..
      · split
        · exact h.failure ..
        · rw [h.verify_eq (by omega), parseResponse_congr (s := s) (by exact h.bytes) h.params_eq]
          split
          · split
            case h_1 p hp => exact h.response _ (parseResponse_length (by simp only; omega) hp)
            case h_2 => exact h.failure ..
          · exact h.failure ..

theorem execFilterProbe_outcomesAgree : OutcomesAgree .filterProbe (execFilterProbe s') (execFilterProbe s) := by
  rw [execFilterProbe_eq, execFilterProbe_eq, h.probeId_eq, h.isMatch_eq, h.retain_eq]
  exact .next { registers := by rw [h.registers]; rfl, out := by simp, tables := nofun }

theorem exec_outcomesAgree (hw : s.params.wellFormed = true) (i : Instr) : OutcomesAgree i (exec i s') (exec i s) := by
  cases i with
  | crcCompute => exact execCrcCompute_outcomesAgree h
  | crcVerify => exact execCrcVerify_outcomesAgree h
  | c8eDecode => exact execC8eDecode_outcomesAgree h hw
  | c12Encode => exact execC12Encode_outcomesAgree h
  | c12Decode => exact execC12Decode_outcomesAgree h
  | filterProbe => exact execFilterProbe_outcomesAgree h

end

/-- Settles O34: the two states agree on what the operation reads, so it takes the same branch of its meaning in both, with
the same operands. -/
theorem unreadInputsNeverMatter : Obligations.UnreadInputsNeverMatter := by
  intro i s s' t hw hregs hbytes hinterest ht
  have h : s'.SameReads s := ⟨hregs, hbytes, hinterest⟩
  have hagree := exec_outcomesAgree h hw i
  rw [ht] at hagree
  generalize exec i s' = o at hagree ⊢
  cases hagree with
  | next hsame => exact ⟨_, rfl, hsame.registers, hsame.out, hsame.tables⟩

end Sys2Proof.Machine
end

section
/-! Reset, the hazards and the duties of the host and the platform (70_reset_and_hazards.md R250, R251, R260, R262, R272). -/

namespace Sys2Proof.Machine

/-! ### The resolver's port -/

/-- The engine decodes while it holds the OP of C8E_DECODE (30_encoding.md R91). -/
theorem State.decoding_iff (s : State) : s.decoding = true ↔ s.eng.map Engine.op = some 0x3#4 := by
  unfold State.decoding
  cases s.eng with
  | none => simp
  | some e => simp [Instr.opcode]

theorem takeResolver_refused {s : State} {r : Resolver} (hdec : s.decoding = true) (h : ¬ s.resolver.sameAnswers r = true) :
    takeResolver r s = .refused .resolverChanged := by
  simp [takeResolver, hdec, h]

theorem takeResolver_taken {s : State} {r : Resolver} (h : ¬ s.decoding = true ∨ s.resolver.sameAnswers r = true) :
    takeResolver r s = .next { s with resolver := r } := by
  rcases h with h | h <;> simp [takeResolver, h]

theorem step_setResolver {s : State} {r : Resolver} {rest : List Event} (h : s.env = .setResolver r :: rest) :
    step s = takeResolver r { s with env := rest } := by
  rw [step, h]; rfl

/-- Settles O56: what the step does turns on whether the engine decodes and whether some answer differs. -/
theorem resolverChangeDuringDecodeIsRefused : Obligations.ResolverChangeDuringDecodeIsRefused := by
  intro s r rest henv
  have hdec := State.decoding_iff { s with env := rest }
  rw [step_setResolver henv]
  constructor
  · rintro hop ⟨id, hid⟩
    exact takeResolver_refused (hdec.2 hop) fun h => hid (Resolver.sameAnswers_iff.1 h id).symm
  · intro h
    refine takeResolver_taken (h.imp (mt hdec.1) fun hall => ?_)
    exact Resolver.sameAnswers_iff.2 fun id => (hall id).symm

/-! ### A step under the duties -/

/-- The engine's move goes on, but for a C8E_DECODE whose resolver does not answer (60_exceptions.md R228). -/
theorem engineMove_next {s : State} (h : s.decoding = true → s.resolver.answering = true) :
    ∃ t, engineMove s = .next t := by
  cases he : s.eng with
  | none => exact ⟨s, by simp only [engineMove, he]⟩
  | some e =>
    cases hi : decode e.word with
    | error x => exact ⟨s.commitIllegalOp, by simp only [engineMove, he, hi]⟩
    | ok i =>
      rw [engineMove_of_decode he hi]
      refine exec_next fun hc8e => h ((State.decoding_iff s).2 ?_)
      rw [he, Option.map_some, (decode_engineWord e i).1 hi, hc8e]
      rfl

/-- Settles O60: each event's duty excludes the one way in which the step that takes the event could stop. -/
theorem keptDutiesNeverStopTheMachine : Obligations.KeptDutiesNeverStopTheMachine := by
  intro s _ hduty
  rw [State.goesOn, step_eq]
  generalize s.nextEvent = ev at hduty ⊢
  cases ev with
  | access a =>
    obtain ⟨hr, hd⟩ : s.rst = false ∧ decodesAddr s.params a.addr = true := by simpa [State.dutyKept] using hduty
    exact ⟨_, takeAccess_inside (s := s.past) hr hd⟩
  | engine =>
    have hanswer : s.decoding = false ∨ s.resolver.answering = true := by simpa [State.dutyKept] using hduty
    exact engineMove_next (s := s.past) fun hdec => hanswer.resolve_left (ne_of_eq_of_ne hdec (by decide))
  | setResolver r =>
    have hsame : s.decoding = false ∨ s.resolver.sameAnswers r = true := by simpa [State.dutyKept] using hduty
    exact ⟨_, takeResolver_taken (s := s.past) (hsame.imp_left Bool.eq_false_iff.1)⟩
  | rstAssert => exact ⟨_, rfl⟩
  | rstRelease => exact ⟨_, rfl⟩

/-! ### Writes while BUSY -/

/-- While BUSY a guarded register write only sets WERR (10_state.md R24; 60_exceptions.md R231). -/
theorem State.busWrite_guarded_busy {s s' : State} {off : Nat} {r : RegName} {v : Word} (hb : s.status.busy = true)
    (h : RegName.atOffset off = some r) (hw : s.writeReg r v = s.guardWrite s') :
    s.busWrite 32 off v = { s with status := s.status.setWerr, resp := .writeOk } := by
  rw [State.busWrite_register h, hw, State.guardWrite_busy _ _ hb]

/-- While BUSY a write to the interest table or IN only sets WERR (20_memory.md R75). -/
theorem State.busWrite_input_busy {s : State} {width off : Nat} {t : Target} (hb : s.status.busy = true)
    (h : targetAt s.params width off = some t) (ht : t = .iset ∨ t = .inBuf) (v : Word) :
    s.busWrite width off v = { s with status := s.status.setWerr, resp := .writeOk } := by
  rcases ht with rfl | rfl <;> rw [State.busWrite, h] <;> simp only [State.guardWrite_busy _ _ hb]

/-- Settles O37: each of these inputs is guarded by BUSY, at every width and offset that reaches it. -/
theorem inputWritesWhileBusyAreIgnoredAndSetWerr : Obligations.InputWritesWhileBusyAreIgnoredAndSetWerr := by
  intro s v hb hp ignored
  have hignored : { s with status := s.status.setWerr, resp := .writeOk } = ignored := by
    simp only [ignored, Status.setWerr, hb]
  rw [← hignored]
  refine ⟨fun off hoff => ?_, fun k hk => ?_, fun k hk => ?_, fun k hk => ?_⟩
  · simp only [List.mem_cons, List.not_mem_nil, or_false] at hoff
    rcases hoff with rfl | rfl | rfl | rfl | rfl
    · exact State.busWrite_guarded_busy (r := .cmd) hb rfl rfl
    · exact State.busWrite_guarded_busy (r := .cfg) hb rfl rfl
    · exact State.busWrite_guarded_busy (r := .inLen) hb rfl rfl
    · exact State.busWrite_guarded_busy (r := .isetCount) hb rfl rfl
    · exact State.busWrite_guarded_busy (r := .probeId) hb rfl rfl
  · have hat : targetAt s.params 32 (0x01000 + 4 * k) = some .iset :=
      targetAt_word (t := .iset) hp trivial (by omega) (Nat.le_add_right ..)
        (by simp only [Target.base, Target.size, isetBase]; omega)
    exact State.busWrite_input_busy hb hat (.inl rfl) v
  · exact State.busWrite_input_busy hb (targetAt_inByte hp (Nat.le_add_right ..) (by omega)) (.inr rfl) v
  · have hat : targetAt s.params 32 (0x10000 + 4 * k) = some .inBuf :=
      targetAt_word (t := .inBuf) hp trivial (by omega) (Nat.le_add_right ..)
        (by simp only [Target.base, Target.size, inBase]; omega)
    exact State.busWrite_input_busy hb hat (.inr rfl) v

/-! ### Asserting rst -/

/-- Every register reads its reset value after rst is asserted (70_reset_and_hazards.md R250). -/
theorem readReg_assertRst (s : State) (r : RegName) : s.assertRst.readReg r = (State.resetWith s.params).readReg r := by
  cases r <;> rfl

/-- No byte of memory has a known value after rst is asserted: each is of one fresh draw (R251; log 19). -/
theorem readByte_assertRst (s : State) (a : Nat) : s.assertRst.readByte a = Config.freeByte s.nextDraw a :=
  congrArg (Config.freeByte · a) (ite_self _)

/-- Settles O55: the step is State.assertRst, whose registers are those of the reset state. -/
theorem assertingRstAbandonsAndResets : Obligations.AssertingRstAbandonsAndResets := by
  intro s rest henv
  have hstep : step s = .next { s with env := rest }.assertRst := by rw [step, henv]; rfl
  exact ⟨_, hstep, readReg_assertRst _, rfl, rfl, rfl, rfl, rfl, rfl, rfl, readByte_assertRst _⟩

end Sys2Proof.Machine
end
